-- ==== Sys2Proof/Word.lean ====
section
/-! DEFINITION. The word types of the RDT packet engine: bytes, the 16-bit checksum words, 32-bit sequence and ack
numbers, 64-bit time values, and the byte strings packets and messages are (00_scope.md R6, R7, R8; 20_memory.md R60). -/

namespace Sys2Proof

/-- A byte is 8 bits (R8). -/
abbrev Byte := BitVec 8

/-- A checksum, or the value of a `RESULT16` (R7, R93). -/
abbrev Word16 := BitVec 16

/-- A sequence number or an ack number: 4 bytes unsigned (R7). -/
abbrev Seq := BitVec 32

/-- A time value: `TIME_W` = 64 bits unsigned, in ticks of the host's clock (R6). -/
abbrev Time := BitVec 64

/-- A packet buffer (R30, R60 a). That it has exactly `PKT_SIZE` bytes is a checked property, `Instr.wf` for operands
and `SizesOk` for the queues, since `PKT_SIZE` is a parameter. -/
abbrev Packet := List Byte

/-- A message buffer (R60 b). -/
abbrev Message := List Byte

end Sys2Proof
end

