-- ==== Sys2Proof/Config.lean ====
section
/-! DEFINITION. The build-time configuration `Cfg` (00_scope.md R6; 10_state.md R27), its constraints, the constants the
source fixes, and the one free value of the model. -/

namespace Sys2Proof

/-- `BYTE_ORDER` (R6, 20_memory.md R62). -/
inductive ByteOrder where
  | le
  | be
  deriving DecidableEq, Repr

/-- `CC_MODE`: the congestion strategy, chosen when the engine is built (R6, 44_congestion.md R165). -/
inductive CcMode where
  | fixed (c : Nat)
  | aimd (base ub : Nat)
  deriving DecidableEq, Repr

/-- `c >= 1`, or `1 <= base <= ub` (R165). -/
def CcMode.wf : CcMode → Bool
  | .fixed c => decide (1 ≤ c)
  | .aimd base ub => decide (1 ≤ base) && decide (base ≤ ub)

/-- The reset value of `WCAP`: `base` (Aimd) or `c` (Fixed) (10_state.md R24, R46). -/
def CcMode.initialCap : CcMode → Nat
  | .fixed c => c
  | .aimd base _ => base

/-- The largest value `WCAP` may take: `ub` (Aimd) or `c` (Fixed) (10_state.md R31, R37; 44_congestion.md R169). -/
def CcMode.bound : CcMode → Nat
  | .fixed c => c
  | .aimd _ ub => ub

/-- The record `Cfg` of R6. Carried in `State` and changed by no step (DESIGN CHOICE, safe, log 1). -/
structure Cfg where
  pktSize : Nat
  timeout : Time
  cc : CcMode
  byteOrder : ByteOrder
  deriving DecidableEq, Repr

/-- `HDR_SIZE`, fixed 11 (R6). -/
def Config.hdrSize : Nat := 11

/-- `DUP_THRESHOLD`, fixed 3 (R6). -/
def Config.dupThreshold : Nat := 3

/-- The largest sequence number the Segmenter will produce, 0xFFFFFFFE (41_segmenter.md R132). -/
def Config.lastSeq : Nat := 0xFFFFFFFE

/-- `MAX_PAYLOAD = PKT_SIZE - HDR_SIZE` (R6). -/
def Cfg.maxPayload (c : Cfg) : Nat := c.pktSize - Config.hdrSize

/-- The constraints of R6 and 70_reset_and_hazards.md R243 (1). -/
abbrev Cfg.WF (c : Cfg) : Prop :=
  12 ≤ c.pktSize ∧ c.pktSize ≤ 266 ∧ 0 < c.timeout.toNat ∧ c.cc.wf = true

/-- The values of R6's column "reference". `TIMEOUT` and `ub` are open parameters there: 30 and 10 are the values of
the vectors (DESIGN CHOICE, unsafe, log 2). -/
def Cfg.reference : Cfg := { pktSize := 100, timeout := 30, cc := .aimd 2 10, byteOrder := .le }

/-- FREE VALUE: the expiry a chain entry gets when `now + TIMEOUT` does not fit in 64 bits, where "no rule applies"
(43_timer_chain.md R150; 93_implementation_defined.md row 14). Applied to the counter `State.freeCtr` (DESIGN CHOICE,
safe, log 7). -/
opaque Config.freeDeadline : Nat → Time

end Sys2Proof
end

