-- ==== Sys2Proof/Syntax.lean ====
section
/-! DEFINITION. The commands of the engine (one constructor per row of spec/opcode_table.json), the actions it answers
with, and the codes of refusals and fatal assertions (30_encoding.md R88, R93; 60_exceptions.md R210). -/

namespace Sys2Proof

/-- The twelve commands of R88, with the operands of R85 and R86. -/
inductive Instr where
  | csum (data : Message)
  | encode (seq ack : Seq) (payload : Message)
  | validate (pkt : Packet)
  | seglen (remaining : BitVec 32)
  | sndInit
  | sndFinal
  | sndMsg (now : Time) (data : Message)
  | sndPkt (now : Time) (pkt : Packet)
  | sndTimer (now : Time)
  | rcvInit
  | rcvFinal
  | rcvPkt (pkt : Packet)
  deriving DecidableEq, Repr

/-- The reasons of a refusal (60_exceptions.md R217). -/
inductive ErrReason where
  | illegalOpcode
  | badFormat
  | payloadTooLong
  | seqExhausted
  | halted
  deriving DecidableEq, Repr

/-- The codes of the fatal assertion (60_exceptions.md R215). -/
inductive FatalCode where
  | timerEmpty
  | lookupMiss
  deriving DecidableEq, Repr

/-- The engine's outputs (30_encoding.md R93). -/
inductive Action where
  | toChannel (pkt : Packet)
  | toApp (data : Message)
  | timerArm (d : Time)
  | timerDisarm
  | fatal (code : FatalCode)
  | err (reason : ErrReason)
  | result16 (v : Word16)
  | resultPkt (pkt : Packet)
  deriving DecidableEq, Repr

/-- What the host can present at the engine's inputs: one framed command descriptor (30_encoding.md R84), or the
hardware reset input (70_reset_and_hazards.md R240). -/
inductive PortEvent where
  | command (descriptor : List Byte)
  | reset
  deriving DecidableEq, Repr

end Sys2Proof
end

