-- ==== Sys2Proof/Machine/Bytes.lean ====
section
/-! DEFINITION. Byte order (20_memory.md R62, R63): unsigned values assembled from bytes and written as bytes, in
`BYTE_ORDER`. -/

namespace Sys2Proof

/-- `sum over i of bs[i] * 256^i` (R62, `LE`). -/
def leValue : List Byte → Nat
  | [] => 0
  | b :: bs => b.toNat + 256 * leValue bs

/-- The unsigned value of a byte string in `BYTE_ORDER` (R62). -/
def bytesToNat (bo : ByteOrder) (bs : List Byte) : Nat :=
  match bo with
  | .le => leValue bs
  | .be => leValue bs.reverse

/-- The `n` low bytes of `v`, least significant first. -/
def leBytes : Nat → Nat → List Byte
  | 0, _ => []
  | n + 1, v => BitVec.ofNat 8 v :: leBytes n (v / 256)

/-- The `n` bytes of `v` in `BYTE_ORDER` (R63). -/
def natToBytes (bo : ByteOrder) (n v : Nat) : List Byte :=
  match bo with
  | .le => leBytes n v
  | .be => (leBytes n v).reverse

/-- The `n` bytes of `bs` at offset `o`; only the ones that exist, where `bs` is shorter. -/
def slice (bs : List Byte) (o n : Nat) : List Byte := (bs.drop o).take n

/-- The unsigned value of the `n` bytes at offset `o` (R62). -/
def getField (bo : ByteOrder) (bs : List Byte) (o n : Nat) : Nat := bytesToNat bo (slice bs o n)

end Sys2Proof
end

