-- ==== Sys2Proof/WellFormed.lean ====
section
/-! DEFINITION. Which command terms a descriptor can express (30_encoding.md R85, R86): a packet operand has exactly
`PKT_SIZE` bytes, and a byte string is no longer than its length field can say. -/

namespace Sys2Proof

/-- A packet operand has `PKT_SIZE` bytes (20_memory.md R60 a). -/
def Packet.wf (cfg : Cfg) (p : Packet) : Bool := p.length == cfg.pktSize

/-- The command is expressible as a descriptor under `cfg` (R85, R86). -/
def Instr.wf (cfg : Cfg) : Instr → Bool
  | .csum data => decide (data.length < 2 ^ 16)
  | .encode _ _ payload => decide (payload.length < 2 ^ 8)
  | .validate pkt => Packet.wf cfg pkt
  | .seglen _ => true
  | .sndInit => true
  | .sndFinal => true
  | .sndMsg _ data => decide (data.length < 2 ^ 32)
  | .sndPkt _ pkt => Packet.wf cfg pkt
  | .sndTimer _ => true
  | .rcvInit => true
  | .rcvFinal => true
  | .rcvPkt pkt => Packet.wf cfg pkt

end Sys2Proof
end

