-- ==== Sys2Proof/Decode.lean ====
section
/-! DEFINITION. The decoder of command descriptors, total on any byte string, and the encoder of commands; the encoder
of actions (30_encoding.md R84 to R95). -/

namespace Sys2Proof

/-- The command names of R88. -/
inductive Opcode where
  | csum | encode | validate | seglen
  | sndInit | sndFinal | sndMsg | sndPkt | sndTimer
  | rcvInit | rcvFinal | rcvPkt
  deriving DecidableEq, Repr

/-- The formats of R85. -/
inductive Format where
  | z | t | m | p | q | b | e | l
  deriving DecidableEq, Repr

/-- One row of R88. -/
structure OpcodeRow where
  byte : Byte
  op : Opcode
  fmt : Format
  mnemonic : String
  deriving DecidableEq, Repr

/-- The command set, R88 and spec/opcode_table.json. -/
def opcodeTable : List OpcodeRow :=
  [ ⟨0x01, .csum, .b, "CSUM"⟩,
    ⟨0x02, .encode, .e, "ENCODE"⟩,
    ⟨0x03, .validate, .q, "VALIDATE"⟩,
    ⟨0x04, .seglen, .l, "SEGLEN"⟩,
    ⟨0x10, .sndInit, .z, "SND_INIT"⟩,
    ⟨0x11, .sndFinal, .z, "SND_FINAL"⟩,
    ⟨0x12, .sndMsg, .m, "SND_MSG"⟩,
    ⟨0x13, .sndPkt, .p, "SND_PKT"⟩,
    ⟨0x14, .sndTimer, .t, "SND_TIMER"⟩,
    ⟨0x20, .rcvInit, .z, "RCV_INIT"⟩,
    ⟨0x21, .rcvFinal, .z, "RCV_FINAL"⟩,
    ⟨0x23, .rcvPkt, .q, "RCV_PKT"⟩ ]

/-- The row byte 0 selects; every other value of byte 0 is illegal (R89, R90). -/
def rowOf (byte0 : Byte) : Option OpcodeRow := opcodeTable.find? (fun r => r.byte == byte0)

/-- The total length the format computes, from the descriptor's own length field or from `PKT_SIZE` (R85, R87). Of a
length field that is cut off, the bytes that exist are read; the total is then above the descriptor's length whatever
they say, since the field lies inside the fixed part. -/
def Format.totalLength (cfg : Cfg) (d : List Byte) : Format → Nat
  | .z => 1
  | .t => 9
  | .m => 13 + getField cfg.byteOrder d 9 4
  | .p => 9 + cfg.pktSize
  | .q => 1 + cfg.pktSize
  | .b => 3 + getField cfg.byteOrder d 1 2
  | .e => 10 + getField cfg.byteOrder d 9 1
  | .l => 5

/-- A 32-bit operand at offset `o` of the descriptor (R86). -/
def operand32 (cfg : Cfg) (d : List Byte) (o : Nat) : BitVec 32 := BitVec.ofNat 32 (getField cfg.byteOrder d o 4)

/-- The 64-bit `now` at offset 1 of the descriptor (R85, R86). -/
def operandNow (cfg : Cfg) (d : List Byte) : Time := BitVec.ofNat 64 (getField cfg.byteOrder d 1 8)

/-- The command a descriptor of the right length holds: the operands at the offsets of R85. -/
def operandsOf (cfg : Cfg) (d : List Byte) : Opcode → Instr
  | .csum => .csum (d.drop 3)
  | .encode => .encode (operand32 cfg d 1) (operand32 cfg d 5) (d.drop 10)
  | .validate => .validate (d.drop 1)
  | .seglen => .seglen (operand32 cfg d 1)
  | .sndInit => .sndInit
  | .sndFinal => .sndFinal
  | .sndMsg => .sndMsg (operandNow cfg d) (d.drop 13)
  | .sndPkt => .sndPkt (operandNow cfg d) (d.drop 9)
  | .sndTimer => .sndTimer (operandNow cfg d)
  | .rcvInit => .rcvInit
  | .rcvFinal => .rcvFinal
  | .rcvPkt => .rcvPkt (d.drop 1)

/-- Decoding one framed descriptor: byte 0 must be listed in R88 (else illegal opcode, the empty descriptor too,
R90), then the length must be the one its format computes (else bad format, R91); that order is 60_exceptions.md R221. -/
def decode (cfg : Cfg) (d : List Byte) : Except ErrReason Instr :=
  match d with
  | [] => .error .illegalOpcode
  | byte0 :: _ =>
    match rowOf byte0 with
    | none => .error .illegalOpcode
    | some row =>
      if d.length = row.fmt.totalLength cfg d then .ok (operandsOf cfg d row.op) else .error .badFormat

/-- The command name of a term. -/
def Instr.opcode : Instr → Opcode
  | .csum _ => .csum
  | .encode _ _ _ => .encode
  | .validate _ => .validate
  | .seglen _ => .seglen
  | .sndInit => .sndInit
  | .sndFinal => .sndFinal
  | .sndMsg _ _ => .sndMsg
  | .sndPkt _ _ => .sndPkt
  | .sndTimer _ => .sndTimer
  | .rcvInit => .rcvInit
  | .rcvFinal => .rcvFinal
  | .rcvPkt _ => .rcvPkt

/-- Byte 0 of a command's descriptor (R88). -/
def Opcode.byte : Opcode → Byte
  | .csum => 0x01
  | .encode => 0x02
  | .validate => 0x03
  | .seglen => 0x04
  | .sndInit => 0x10
  | .sndFinal => 0x11
  | .sndMsg => 0x12
  | .sndPkt => 0x13
  | .sndTimer => 0x14
  | .rcvInit => 0x20
  | .rcvFinal => 0x21
  | .rcvPkt => 0x23

/-- The operand bytes after byte 0 (R85, R86). -/
def operandBytes (cfg : Cfg) : Instr → List Byte
  | .csum data => natToBytes cfg.byteOrder 2 data.length ++ data
  | .encode seq ack payload =>
    natToBytes cfg.byteOrder 4 seq.toNat ++ natToBytes cfg.byteOrder 4 ack.toNat
      ++ natToBytes cfg.byteOrder 1 payload.length ++ payload
  | .validate pkt => pkt
  | .seglen remaining => natToBytes cfg.byteOrder 4 remaining.toNat
  | .sndInit => []
  | .sndFinal => []
  | .sndMsg now data =>
    natToBytes cfg.byteOrder 8 now.toNat ++ natToBytes cfg.byteOrder 4 data.length ++ data
  | .sndPkt now pkt => natToBytes cfg.byteOrder 8 now.toNat ++ pkt
  | .sndTimer now => natToBytes cfg.byteOrder 8 now.toNat
  | .rcvInit => []
  | .rcvFinal => []
  | .rcvPkt pkt => pkt

/-- The descriptor of a well-formed command (R84, R85). -/
def encode (cfg : Cfg) (i : Instr) : List Byte := i.opcode.byte :: operandBytes cfg i

/-- The numeric codes of the refusals (60_exceptions.md R217). -/
def ErrReason.code : ErrReason → Byte
  | .illegalOpcode => 1
  | .badFormat => 2
  | .payloadTooLong => 3
  | .seqExhausted => 4
  | .halted => 5

/-- The numeric codes of the fatal assertion (60_exceptions.md R215). -/
def FatalCode.code : FatalCode → Byte
  | .timerEmpty => 1
  | .lookupMiss => 2

/-- The bytes of an action descriptor (R93). -/
def encodeAction (cfg : Cfg) : Action → List Byte
  | .toChannel pkt => 0x81 :: pkt
  | .toApp data => 0x82 :: (natToBytes cfg.byteOrder 4 data.length ++ data)
  | .timerArm d => 0x83 :: natToBytes cfg.byteOrder 8 d.toNat
  | .timerDisarm => [0x84]
  | .fatal code => [0x85, code.code]
  | .err reason => [0x86, reason.code]
  | .result16 v => 0x87 :: natToBytes cfg.byteOrder 2 v.toNat
  | .resultPkt pkt => 0x88 :: pkt

/-- The descriptor whose first `nbits` bits are `w` (bit 0 the least significant bit of byte 0, the second byte bits
15..8, whatever `BYTE_ORDER` is) and whose later bits are 0. It is framed at the length its format computes (R87);
where byte 0 is illegal, at its `nbits` bits (DESIGN CHOICE, log 15). -/
def tableDescriptor (cfg : Cfg) (nbits w : Nat) : List Byte :=
  let given := leBytes ((nbits + 7) / 8) w
  match rowOf (given.headD 0) with
  | none => given
  | some row =>
    let total := row.fmt.totalLength cfg (given ++ List.replicate 13 0)
    (given ++ List.replicate total 0).take total

/-- What the decoder reads from the table's word, for the reference configuration. -/
def decodeTableWord (nbits w : Nat) : Option Instr :=
  match decode Cfg.reference (tableDescriptor Cfg.reference nbits w) with
  | .ok i => some i
  | .error _ => none

end Sys2Proof
end

