-- ==== Sys2Proof/Machine/State.lean ====
section
/-! DEFINITION. The state of the engine as plain data (10_state.md): the sender half, the receiver half, the shared
fault latch, the host's timer, and the model's own fields; and the state after hardware reset (R46). -/

namespace Sys2Proof.Machine

/-- One entry of the timer chain (10_state.md R33). -/
structure ChainEntry where
  seq : Seq
  expiry : Time
  deriving DecidableEq, Repr

/-- The total map `DUPCNT` (10_state.md R34), as the list of its non-zero counts with rising keys (DESIGN CHOICE,
safe, log 9). -/
abbrev DupMap := List (Seq × Nat)

/-- The state. INVENTORY.md lists each field with its rule. -/
structure State where
  /-- The build constants; no step changes them (10_state.md R27; log 1). -/
  cfg : Cfg
  /-- `SEQ` (R21). -/
  seq : Seq
  /-- `CUR_ACK` (R22). -/
  curAck : Seq
  /-- `HIGHEST_SENT` (R23). -/
  highestSent : Seq
  /-- `WCAP` (R24). -/
  wcap : Nat
  /-- `WINDOW` (R31), oldest admitted first. -/
  window : List Packet
  /-- `BACKLOG` (R32), front first. -/
  backlog : List Packet
  /-- `CHAIN` (R33), head first. -/
  chain : List ChainEntry
  /-- `DUPCNT` (R34). -/
  dupcnt : DupMap
  /-- `EXPECTED` (R25). -/
  expected : Seq
  /-- `RBUF` (R35), head first. -/
  rbuf : List Packet
  /-- `FATAL` (R26). -/
  fatal : BitVec 8
  /-- `TMR`, the host's single-shot timer: the deadline it is armed for (R44; logs 6 and 8). -/
  tmr : Option Nat
  /-- MODEL'S OWN: what the host presents next, oldest first (log 3). -/
  input : List PortEvent
  /-- MODEL'S OWN: every action emitted so far, oldest first (20_memory.md R72; log 5). -/
  actions : List Action
  /-- MODEL'S OWN: the counter behind the free value `Config.freeDeadline` (log 7). -/
  freeCtr : Nat
  deriving DecidableEq, Repr

/-- What can stop the machine with a fault: nothing. Every error class of 60_exceptions.md R210 has a next state, the
fatal assertion too (it leads to the halted state, R215, R216). Log 12. -/
inductive Fault where
  deriving DecidableEq, Repr

/-- Why a command has no meaning. -/
inductive Refusal where
  /-- Raised by an arm of `exec` only, for a command that has no meaning yet. Safe: no next state is claimed. -/
  | notModelled (mnemonic : String)
  deriving DecidableEq, Repr

/-- The state after hardware reset of an engine built with `cfg` (10_state.md R46; 70_reset_and_hazards.md R240). -/
def State.ofCfg (cfg : Cfg) : State :=
  { cfg := cfg
    seq := 0
    curAck := 1
    highestSent := 0
    wcap := cfg.cc.initialCap
    window := []
    backlog := []
    chain := []
    dupcnt := []
    expected := 1
    rbuf := []
    fatal := 0
    tmr := none
    input := []
    actions := []
    freeCtr := 0 }

/-- The machine right after reset, with the reference configuration (log 2). -/
def State.reset : State := State.ofCfg Cfg.reference

/-- The outcome of a step. -/
abbrev Result := Host.Outcome State Fault Refusal

end Sys2Proof.Machine
end

