-- ==== Sys2Proof/Machine/Flags.lean ====
section
/-! DEFINITION. The two derived predicates that play the part of status flags (10_state.md R29). The engine stores no
condition codes and no command computes one. -/

namespace Sys2Proof.Machine

/-- `TIMER_ARMED := (CHAIN != [])` (R29). -/
def timerArmed (s : State) : Bool := !s.chain.isEmpty

/-- `HALTED := (FATAL != 0)` (R29). -/
def halted (s : State) : Bool := s.fatal != 0

end Sys2Proof.Machine
end

