-- ==== Sys2Proof/Machine/Operands.lean ====
section
/-! DEFINITION. Packet buffers: the accessors `getN`, `putN` (20_memory.md R62, R63), the fields of the wire packet
(30_encoding.md R80), and the two arithmetic helpers `max` and `sat_sub`
(42_send_window.md R141; 43_timer_chain.md R151). -/

namespace Sys2Proof.Machine

/-- `get8(p, o)` (20_memory.md R62). -/
def get8 (bo : ByteOrder) (p : Packet) (o : Nat) : BitVec 8 := BitVec.ofNat 8 (getField bo p o 1)

/-- `get16(p, o)` (20_memory.md R62). -/
def get16 (bo : ByteOrder) (p : Packet) (o : Nat) : BitVec 16 := BitVec.ofNat 16 (getField bo p o 2)

/-- `get32(p, o)` (20_memory.md R62). -/
def get32 (bo : ByteOrder) (p : Packet) (o : Nat) : BitVec 32 := BitVec.ofNat 32 (getField bo p o 4)

/-- The bytes `bs` written at offset `o`; no other byte changes (20_memory.md R63). -/
def putBytes (p : Packet) (o : Nat) (bs : List Byte) : Packet := p.take o ++ bs ++ p.drop (o + bs.length)

/-- `put8(p, o, v)` (20_memory.md R63). -/
def put8 (bo : ByteOrder) (p : Packet) (o : Nat) (v : BitVec 8) : Packet := putBytes p o (natToBytes bo 1 v.toNat)

/-- `put16(p, o, v)` (20_memory.md R63). -/
def put16 (bo : ByteOrder) (p : Packet) (o : Nat) (v : BitVec 16) : Packet := putBytes p o (natToBytes bo 2 v.toNat)

/-- `put32(p, o, v)` (20_memory.md R63). -/
def put32 (bo : ByteOrder) (p : Packet) (o : Nat) (v : BitVec 32) : Packet := putBytes p o (natToBytes bo 4 v.toNat)

/-- `len_of(p)` (30_encoding.md R80). -/
def lenOf (cfg : Cfg) (p : Packet) : BitVec 8 := get8 cfg.byteOrder p 0

/-- `seq_of(p)` (30_encoding.md R80). -/
def seqOf (cfg : Cfg) (p : Packet) : Seq := get32 cfg.byteOrder p 1

/-- `ack_of(p)` (30_encoding.md R80). -/
def ackOf (cfg : Cfg) (p : Packet) : Seq := get32 cfg.byteOrder p 5

/-- `csum_of(p)` (30_encoding.md R80). -/
def csumOf (cfg : Cfg) (p : Packet) : Word16 := get16 cfg.byteOrder p 9

/-- `payload_of(p) = p[11 .. 11 + len_of(p) - 1]` (30_encoding.md R80). -/
def payloadOf (cfg : Cfg) (p : Packet) : Message := slice p Config.hdrSize (lenOf cfg p).toNat

/-- The larger of two sequence numbers, unsigned (42_send_window.md R141). -/
def maxSeq (x y : Seq) : Seq := if x < y then y else x

/-- `sat_sub(x, y) = if x > y then x - y else 0` (43_timer_chain.md R151). -/
def satSub (x y : Time) : Time := if y < x then x - y else 0

end Sys2Proof.Machine
end

