-- ==== Sys2Proof/Machine/Ops.lean ====
section
/-! DEFINITION. The operations the commands share: emitting actions, driving the host's timer, the drop, the refusal
and the fatal assertion (60_exceptions.md), hardware reset (70_reset_and_hazards.md R240), deadlines, the map `DUPCNT`,
and the command port. -/

namespace Sys2Proof.Machine

/-- `emit A`: append to the action list (30_encoding.md R95; 20_memory.md R72). -/
def emit (a : Action) (s : State) : State := { s with actions := s.actions ++ [a] }

/-- `emit TIMER_ARM(d)` in a command with time `now`: the host's timer is set to run out at `now + d`, replacing any
pending deadline (30_encoding.md R94; 10_state.md R44). -/
def armTimer (now d : Time) (s : State) : State := { emit (.timerArm d) s with tmr := some (now.toNat + d.toNat) }

/-- `emit TIMER_DISARM` (30_encoding.md R94; 10_state.md R44). -/
def disarmTimer (s : State) : State := { emit .timerDisarm s with tmr := none }

/-- `drop`: no state change, no action (60_exceptions.md R211). -/
def drop (s : State) : State := s

/-- `refuse(reason)`: the one action `ERR(reason)`, no state change (60_exceptions.md R217). -/
def refuse (r : ErrReason) (s : State) : State := emit (.err r) s

/-- `fatal(code)`: `FATAL` takes the code if it is 0, and `FATAL(code)` is emitted (60_exceptions.md R215). This is the
engine's one exception entry; there is no return from it (R223). -/
def fatalStop (c : FatalCode) (s : State) : State :=
  emit (.fatal c) { s with fatal := if s.fatal = 0 then c.code else s.fatal }

/-- The first check of every command: while `FATAL != 0` it is refused with `ERR_HALTED` (60_exceptions.md R216,
R221). -/
def unlessHalted (s s' : State) : Result := .next (if halted s then refuse .halted s else s')

/-- Hardware reset: every piece of engine state at its reset value, the host's timer disarmed, no action
(70_reset_and_hazards.md R240). The configuration, the pending input, the past actions and the free-value counter are
not engine state and stay (log 14). -/
def hardwareReset (s : State) : State :=
  { State.ofCfg s.cfg with input := s.input, actions := s.actions, freeCtr := s.freeCtr }

/-- Whether `now + TIMEOUT` fits in 64 bits (70_reset_and_hazards.md R244 (b)). -/
abbrev DeadlineFits (now : Time) (s : State) : Prop := now.toNat + s.cfg.timeout.toNat < 2 ^ 64

/-- The expiry `now + TIMEOUT` in 64 bits (43_timer_chain.md R150); a free value where the sum does not fit (log 7). -/
def deadline (now : Time) (s : State) : Time :=
  if DeadlineFits now s then now + s.cfg.timeout else Config.freeDeadline s.freeCtr

/-- The free-value counter after one deadline is computed: it moves on where a free value was taken. -/
def nextFree (now : Time) (s : State) : Nat := if DeadlineFits now s then s.freeCtr else s.freeCtr + 1

/-- Appends a fresh chain entry `(q, now + TIMEOUT)` at the tail (43_timer_chain.md R150, R153). -/
def pushDeadline (q : Seq) (now : Time) (s : State) : State :=
  { s with chain := s.chain ++ [⟨q, deadline now s⟩], freeCtr := nextFree now s }

/-- The count of an ack value; 0 for a value never seen (10_state.md R34). -/
def dupGet : DupMap → Seq → Nat
  | [], _ => 0
  | (k, n) :: m, a => if k = a then n else dupGet m a

/-- The map with the count of `a` set to `n`; keys stay rising and a count of 0 is not listed. -/
def dupSet : DupMap → Seq → Nat → DupMap
  | [], a, n => if n = 0 then [] else [(a, n)]
  | (k, c) :: m, a, n =>
    if a < k then (if n = 0 then (k, c) :: m else (a, n) :: (k, c) :: m)
    else if a = k then (if n = 0 then m else (a, n) :: m)
    else (k, c) :: dupSet m a n

/-- The canonical form of the map: rising keys, no count of 0. -/
abbrev DupWf (m : DupMap) : Prop := (m.map Prod.fst).Pairwise (· < ·) ∧ ∀ e ∈ m, e.2 ≠ 0

/-- The host's side of issuing a decoded command: the single-shot timer is disarmed as `SND_TIMER` is issued
(10_state.md R44; 60_exceptions.md R227; log 6). The engine does not see it. -/
def issue (i : Instr) (s : State) : State :=
  match i with
  | .sndTimer _ => { s with tmr := none }
  | _ => s

/-- The descriptor `d` put in front of what the host presents next. -/
def pushCommand (d : List Byte) (s : State) : State := { s with input := .command d :: s.input }

end Sys2Proof.Machine
end

