-- ==== Sys2Proof/Machine/Codec.lean ====
section
/-! DEFINITION. Packet Codec (40_codec.md): the checksum calculator, the encoder, the validator, and the commands
`CSUM`, `ENCODE`, `VALIDATE`. -/

namespace Sys2Proof.Machine

/-- A 16-bit checksum word from two bytes in `BYTE_ORDER` (40_codec.md R110; 20_memory.md R64). -/
def checksumWord (bo : ByteOrder) (b0 b1 : Byte) : Nat :=
  match bo with
  | .le => b0.toNat + 256 * b1.toNat
  | .be => 256 * b0.toNat + b1.toNat

/-- The sum of the 16-bit words of a byte string, an odd tail zero-padded (40_codec.md R110). -/
def wordSum (bo : ByteOrder) : List Byte → Nat
  | [] => 0
  | [b] => checksumWord bo b 0
  | b0 :: b1 :: rest => checksumWord bo b0 b1 + wordSum bo rest

/-- The fold loop `while (sum >> 16) != 0: sum <- (sum & 0xFFFF) + (sum >> 16)` (40_codec.md R110), at most `fuel`
passes; each pass makes the sum smaller, so `sum` passes are enough. -/
def foldCarries : Nat → Nat → Nat
  | 0, sum => sum
  | fuel + 1, sum => if sum >>> 16 = 0 then sum else foldCarries fuel ((sum &&& 0xFFFF) + (sum >>> 16))

/-- `checksum16(d)` (40_codec.md R110). -/
def checksum16 (bo : ByteOrder) (d : List Byte) : Word16 :=
  ~~~ BitVec.ofNat 16 (foldCarries (wordSum bo d) (wordSum bo d))

/-- `encode(payload, seq, ack)` (40_codec.md R113). -/
def encodePacket (cfg : Cfg) (payload : Message) (seq ack : Seq) : Packet :=
  let p := List.replicate cfg.pktSize (0 : Byte)
  let p := put8 cfg.byteOrder p 0 (BitVec.ofNat 8 payload.length)
  let p := put32 cfg.byteOrder p 1 seq
  let p := put32 cfg.byteOrder p 5 ack
  let p := put16 cfg.byteOrder p 9 0
  let p := putBytes p Config.hdrSize payload
  put16 cfg.byteOrder p 9 (checksum16 cfg.byteOrder p)

/-- `validate(p)` (40_codec.md R116): the length test, then the checksum recomputed with bytes 9 and 10 zeroed on a
copy. -/
def validate (cfg : Cfg) (p : Packet) : Bool :=
  if cfg.maxPayload < (lenOf cfg p).toNat then false
  else checksum16 cfg.byteOrder (putBytes p 9 [0, 0]) == csumOf cfg p

/-- `CSUM data` (40_codec.md R118). -/
def execCsum (data : Message) (s : State) : Result :=
  unlessHalted s (emit (.result16 (checksum16 s.cfg.byteOrder data)) s)

/-- `ENCODE seq, ack, payload` (40_codec.md R119). -/
def execEncode (seq ack : Seq) (payload : Message) (s : State) : Result :=
  unlessHalted s
    (if s.cfg.maxPayload < payload.length then refuse .payloadTooLong s
     else emit (.resultPkt (encodePacket s.cfg payload seq ack)) s)

/-- `VALIDATE pkt` (40_codec.md R120). -/
def execValidate (pkt : Packet) (s : State) : Result :=
  unlessHalted s (emit (.result16 (if validate s.cfg pkt then 1 else 0)) s)

end Sys2Proof.Machine
end

