-- ==== Sys2Proof/Machine/Congestion.lean ====
section
/-! DEFINITION. Congestion Controller (44_congestion.md): the three micro-ops on `WCAP`; in mode `Fixed` they do
nothing (R165). -/

namespace Sys2Proof.Machine

/-- `aimd_increase()` (44_congestion.md R166). -/
def aimdIncrease (s : State) : State :=
  match s.cfg.cc with
  | .fixed _ => s
  | .aimd _ ub => { s with wcap := min ub (if s.wcap < ub then 2 * s.wcap else s.wcap + 1) }

/-- `aimd_halve()` (44_congestion.md R167). -/
def aimdHalve (s : State) : State :=
  match s.cfg.cc with
  | .fixed _ => s
  | .aimd _ _ => { s with wcap := max 1 (s.wcap / 2) }

/-- `aimd_reset()` (44_congestion.md R168). -/
def aimdReset (s : State) : State :=
  match s.cfg.cc with
  | .fixed _ => s
  | .aimd base _ => { s with wcap := base }

end Sys2Proof.Machine
end

