-- ==== Sys2Proof/Machine/TimerChain.lean ====
section
/-! DEFINITION. Retransmission Timer Chain (43_timer_chain.md): `schedule`, `cancel`, and the command `SND_TIMER`. -/

namespace Sys2Proof.Machine

/-- `schedule(seq)` (43_timer_chain.md R150). -/
def schedule (q : Seq) (now : Time) (s : State) : State :=
  pushDeadline q now (if timerArmed s then s else armTimer now s.cfg.timeout s)

/-- `cancel(seq)` (43_timer_chain.md R151): removes the first entry for `q`; disarms if that empties the chain, re-arms
for the new head if the head was removed. -/
def cancel (q : Seq) (now : Time) (s : State) : State :=
  match s.chain.findIdx? (fun e => e.seq == q) with
  | none => s
  | some i =>
    let s' : State := { s with chain := s.chain.eraseIdx i }
    match s'.chain with
    | [] => disarmTimer s'
    | head :: _ => if i = 0 then armTimer now (satSub head.expiry now) s' else s'

/-- The last line of `SND_TIMER`: one `TIMER_ARM` for the head of the final chain, none if it is empty
(43_timer_chain.md R157). -/
def rearm (now : Time) (s : State) : State :=
  match s.chain with
  | [] => s
  | head :: _ => armTimer now (satSub head.expiry now) s

/-- The entry of `WINDOW` with sequence number `q` (42_send_window.md R145). -/
def lookup (q : Seq) (s : State) : Option Packet := s.window.find? (fun p => seqOf s.cfg p == q)

/-- The live arm of `SND_TIMER` (43_timer_chain.md R155): the packet is sent again as stored, a fresh entry goes to the
tail, and `WCAP` takes the timeout path. -/
def retransmit (p : Packet) (q : Seq) (now : Time) (s : State) : State :=
  aimdReset (pushDeadline q now (emit (.toChannel p) s))

/-- `on_fire()` on a non-empty chain, after the pop of the entry for `q` (43_timer_chain.md R153, R155, R156). -/
def fireEntry (q : Seq) (now : Time) (s : State) : State :=
  if s.curAck ≤ q then
    match lookup q s with
    | none => fatalStop .lookupMiss s
    | some p => rearm now (retransmit p q now s)
  else rearm now s

/-- `on_fire()` (43_timer_chain.md R153, R154). -/
def onFire (now : Time) (s : State) : State :=
  match s.chain with
  | [] => fatalStop .timerEmpty s
  | head :: rest => fireEntry head.seq now { s with chain := rest }

/-- `SND_TIMER now` (43_timer_chain.md R153). -/
def execSndTimer (now : Time) (s : State) : Result := unlessHalted s (onFire now s)

end Sys2Proof.Machine
end

