-- ==== Sys2Proof/Machine/Window.lean ====
section
/-! DEFINITION. Send Window and Backlog (42_send_window.md): `admit`, `transmit_new`, `advance`. -/

namespace Sys2Proof.Machine

/-- `transmit_new(p)` (42_send_window.md R141): deliver, schedule, append, and raise `HIGHEST_SENT`. -/
def transmitNew (p : Packet) (now : Time) (s : State) : State :=
  let s := schedule (seqOf s.cfg p) now (emit (.toChannel p) s)
  { s with
    window := s.window ++ [p]
    highestSent := maxSeq s.highestSent (seqOf s.cfg p) }

/-- `admit(p)` (42_send_window.md R140). -/
def admitPacket (p : Packet) (now : Time) (s : State) : State :=
  if s.window.length < s.wcap then transmitNew p now s else { s with backlog := s.backlog ++ [p] }

/-- `admit` for each packet of a list, in order (41_segmenter.md R136). -/
def admitAll (now : Time) : List Packet → State → State
  | [], s => s
  | p :: ps, s => admitAll now ps (admitPacket p now s)

/-- The refill loop (42_send_window.md R142, R143), over the packets the backlog holds. -/
def refill (now : Time) : List Packet → State → State
  | [], s => { s with backlog := [] }
  | p :: rest, s =>
    if s.window.length < s.wcap then refill now rest (transmitNew p now { s with backlog := rest })
    else { s with backlog := p :: rest }

/-- `advance(a)` (42_send_window.md R142): nothing unless `a > CUR_ACK`. -/
def advance (a : Seq) (now : Time) (s : State) : State :=
  if s.curAck < a then
    refill now s.backlog
      { s with window := s.window.filter (fun p => decide (a ≤ seqOf s.cfg p)), curAck := a }
  else s

end Sys2Proof.Machine
end

