-- ==== Sys2Proof/Machine/AckProcessor.lean ====
section
/-! DEFINITION. Sender ACK Processor (45_ack_processor.md): the command `SND_PKT`. -/

namespace Sys2Proof.Machine

/-- The retransmission and the `cancel` of a fast retransmit, both skipped when no window entry has the ack's value
(45_ack_processor.md R176, R178). -/
def fastRetransmit (a : Seq) (now : Time) (s : State) : State :=
  match lookup a s with
  | none => s
  | some p => cancel a now (emit (.toChannel p) s)

/-- Counting the ack; at the threshold the count is cleared, the packet is resent and `WCAP` is halved
(45_ack_processor.md R176, R177, R178). -/
def countAck (a : Seq) (now : Time) (s : State) : State :=
  if dupGet s.dupcnt a + 1 = Config.dupThreshold then
    aimdHalve (fastRetransmit a now { s with dupcnt := dupSet s.dupcnt a 0 })
  else { s with dupcnt := dupSet s.dupcnt a (dupGet s.dupcnt a + 1) }

/-- The three steps of an accepted ack, in order (45_ack_processor.md R179). -/
def acceptAck (a : Seq) (now : Time) (s : State) : State := aimdIncrease (advance a now (countAck a now s))

/-- The acceptance test `a <= HIGHEST_SENT + 1`, without wrap-around (45_ack_processor.md R180). -/
def ackInRange (a : Seq) (s : State) : Bool := decide (a.toNat ≤ s.highestSent.toNat + 1)

/-- `SND_PKT now, pkt` (45_ack_processor.md R176): corruption and an invalid ack are silent drops. -/
def execSndPkt (now : Time) (pkt : Packet) (s : State) : Result :=
  unlessHalted s
    (if validate s.cfg pkt then
       if ackInRange (ackOf s.cfg pkt) s then acceptAck (ackOf s.cfg pkt) now s else drop s
     else drop s)

end Sys2Proof.Machine
end

