-- ==== Sys2Proof/Machine/Lifecycle.lean ====
section
/-! DEFINITION. Lifecycle commands (47_lifecycle.md): `SND_INIT`, `SND_FINAL`, `RCV_INIT`, `RCV_FINAL`. -/

namespace Sys2Proof.Machine

/-- The sender half to its reset values, the timer disarmed first when deadlines are pending (47_lifecycle.md R200). -/
def resetSender (s : State) : State :=
  let s := if timerArmed s then disarmTimer s else s
  { s with
    seq := 0
    curAck := 1
    highestSent := 0
    wcap := s.cfg.cc.initialCap
    window := []
    backlog := []
    chain := []
    dupcnt := [] }

/-- The receiver half to its reset values (47_lifecycle.md R202). -/
def resetReceiver (s : State) : State := { s with expected := 1, rbuf := [] }

/-- `SND_INIT` (47_lifecycle.md R200). -/
def execSndInit (s : State) : Result := unlessHalted s (resetSender s)

/-- `SND_FINAL` (47_lifecycle.md R201). -/
def execSndFinal (s : State) : Result := unlessHalted s (resetSender s)

/-- `RCV_INIT` (47_lifecycle.md R202). -/
def execRcvInit (s : State) : Result := unlessHalted s (resetReceiver s)

/-- `RCV_FINAL` (47_lifecycle.md R203). -/
def execRcvFinal (s : State) : Result := unlessHalted s (resetReceiver s)

end Sys2Proof.Machine
end

