-- ==== Sys2Proof/Machine/Reorder.lean ====
section
/-! DEFINITION. Receive Reorder Buffer (46_reorder_buffer.md): the command `RCV_PKT`. -/

namespace Sys2Proof.Machine

/-- Delivery of one in-order packet: one `TO_APP` with its payload, and `EXPECTED` goes up by one
(46_reorder_buffer.md R187, R190). -/
def deliver (p : Packet) (s : State) : State :=
  { emit (.toApp (payloadOf s.cfg p)) s with expected := s.expected + 1 }

/-- `rx_insert(pkt)` (46_reorder_buffer.md R188). -/
def rxInsert (pkt : Packet) (s : State) : State :=
  let q := seqOf s.cfg pkt
  if s.rbuf.any (fun r => seqOf s.cfg r == q) then s
  else
    let i := s.rbuf.countP (fun r => decide (seqOf s.cfg r < q))
    { s with rbuf := s.rbuf.take i ++ [pkt] ++ s.rbuf.drop i }

/-- The drain loop (46_reorder_buffer.md R190), over the packets the buffer holds. -/
def drainFrom : List Packet → State → State
  | [], s => { s with rbuf := [] }
  | p :: rest, s =>
    if seqOf s.cfg p = s.expected then drainFrom rest (deliver p { s with rbuf := rest })
    else { s with rbuf := p :: rest }

/-- `rx_drain()` (46_reorder_buffer.md R190). -/
def rxDrain (s : State) : State := drainFrom s.rbuf s

/-- `emit_ack()` (46_reorder_buffer.md R191). -/
def emitAck (s : State) : State := emit (.toChannel (encodePacket s.cfg [] 0 s.expected)) s

/-- The arms of `RCV_PKT` by sequence number (46_reorder_buffer.md R185, R187, R188, R189, R192). -/
def rxPlace (pkt : Packet) (s : State) : State :=
  let q := seqOf s.cfg pkt
  if q = 0xFFFFFFFF then s
  else if q = s.expected then deliver pkt s
  else if s.expected < q then rxInsert pkt s
  else s

/-- `RCV_PKT pkt` (46_reorder_buffer.md R185, R186). -/
def execRcvPkt (pkt : Packet) (s : State) : Result :=
  unlessHalted s (if validate s.cfg pkt then emitAck (rxDrain (rxPlace pkt s)) else drop s)

end Sys2Proof.Machine
end

