-- ==== Sys2Proof/Machine/Segmenter.lean ====
section
/-! DEFINITION. Segmenter (41_segmenter.md): `seglen`, `split`, and the commands `SEGLEN`, `SND_MSG`. -/

namespace Sys2Proof.Machine

/-- `seglen(remaining) = min(remaining, MAX_PAYLOAD)`, 8-bit (41_segmenter.md R130). -/
def seglen (cfg : Cfg) (remaining : Nat) : BitVec 8 := BitVec.ofNat 8 (min remaining cfg.maxPayload)

/-- The packets `split` yields for the bytes still to send, after the packet numbered `seq` (41_segmenter.md R133).
`fuel` bounds the passes; the length of the message is enough, since a pass takes at least one byte when
`MAX_PAYLOAD >= 1` (log 11). -/
def splitFrom (cfg : Cfg) : Nat → Seq → Message → List Packet
  | 0, _, _ => []
  | fuel + 1, seq, msg =>
    if msg = [] then []
    else
      let n := (seglen cfg msg.length).toNat
      encodePacket cfg (msg.take n) (seq + 1) 1 :: splitFrom cfg fuel (seq + 1) (msg.drop n)

/-- `split(msg)`: the packets, numbered from `SEQ + 1` (41_segmenter.md R133). -/
def split (cfg : Cfg) (seq : Seq) (msg : Message) : List Packet := splitFrom cfg msg.length seq msg

/-- `ceil(|data| / MAX_PAYLOAD)` (41_segmenter.md R131, R136). -/
def packetCount (cfg : Cfg) (len : Nat) : Nat := (len + (cfg.maxPayload - 1)) / cfg.maxPayload

/-- `SEGLEN remaining` (41_segmenter.md R135). -/
def execSegLen (remaining : BitVec 32) (s : State) : Result :=
  unlessHalted s (emit (.result16 ((seglen s.cfg remaining.toNat).setWidth 16)) s)

/-- The effect of an accepted message: `SEQ` moves on by the number of packets, and each packet is admitted in order
(41_segmenter.md R133, R136). `admit` does not read `SEQ`, so moving it first is the same. -/
def sendMessage (now : Time) (data : Message) (s : State) : State :=
  admitAll now (split s.cfg s.seq data) { s with seq := s.seq + BitVec.ofNat 32 (split s.cfg s.seq data).length }

/-- `SND_MSG now, data` (41_segmenter.md R136). The exhaustion test is made without wrap-around. -/
def execSndMsg (now : Time) (data : Message) (s : State) : Result :=
  unlessHalted s
    (if Config.lastSeq < s.seq.toNat + packetCount s.cfg data.length then refuse .seqExhausted s
     else sendMessage now data s)

end Sys2Proof.Machine
end

