-- ==== Sys2Proof/Machine/Dispatch.lean ====
section
/-! DEFINITION. One arm per command (30_encoding.md R88). -/

namespace Sys2Proof.Machine

def exec (i : Instr) (s : State) : Host.Outcome State Fault Refusal :=
  match i with
  | .csum data => Sys2Proof.Machine.execCsum data s
  | .encode seq ack payload => Sys2Proof.Machine.execEncode seq ack payload s
  | .validate pkt => Sys2Proof.Machine.execValidate pkt s
  | .seglen remaining => Sys2Proof.Machine.execSegLen remaining s
  | .sndInit => Sys2Proof.Machine.execSndInit s
  | .sndFinal => Sys2Proof.Machine.execSndFinal s
  | .sndMsg now data => Sys2Proof.Machine.execSndMsg now data s
  | .sndPkt now pkt => Sys2Proof.Machine.execSndPkt now pkt s
  | .sndTimer now => Sys2Proof.Machine.execSndTimer now s
  | .rcvInit => Sys2Proof.Machine.execRcvInit s
  | .rcvFinal => Sys2Proof.Machine.execRcvFinal s
  | .rcvPkt pkt => Sys2Proof.Machine.execRcvPkt pkt s

end Sys2Proof.Machine
end

