-- ==== Sys2Proof/Machine/Step.lean ====
section
/-! DEFINITION. One step: one event of the command port, or an idle step when none is pending (00_scope.md R10;
10_state.md R28; 70_reset_and_hazards.md R242, R250). -/

namespace Sys2Proof.Machine

/-- The engine's answer to one descriptor: a descriptor the decoder does not accept is refused (60_exceptions.md R217,
R221), any other runs its command. -/
def runDescriptor (d : List Byte) (s : State) : Result :=
  match decode s.cfg d with
  | .error r => .next (refuse r s)
  | .ok i => exec i (issue i s)

/-- One step. -/
def step (s : State) : Host.Outcome State Fault Refusal :=
  match s.input with
  | [] => .next s
  | .reset :: rest => .next (hardwareReset { s with input := rest })
  | .command d :: rest => runDescriptor d { s with input := rest }

/-- The table's word, as the descriptor the host presents next (log 4). -/
def State.withFetchWord (s : State) (nbits w : Nat) : State := pushCommand (tableDescriptor s.cfg nbits w) s

end Sys2Proof.Machine
end

