-- ==== Sys2Proof/Safety.lean ====
section
/-! DEFINITION. The terms the claims use: the invariants of 10_state.md, R36 to R41 (as far as they hold of every host),
reachable states, the well-behaved host of 70_reset_and_hazards.md R244, the two halves of the state, and what the
application has been given. -/

namespace Sys2Proof.Machine

/-- The sequence numbers of a list of packets. -/
def seqs (cfg : Cfg) (ps : List Packet) : List Seq := ps.map (seqOf cfg)

/-- Every queued packet has `PKT_SIZE` bytes (10_state.md R30). -/
structure SizesOk (s : State) : Prop where
  window : ∀ p ∈ s.window, p.length = s.cfg.pktSize
  backlog : ∀ p ∈ s.backlog, p.length = s.cfg.pktSize
  rbuf : ∀ p ∈ s.rbuf, p.length = s.cfg.pktSize

/-- The window and backlog invariants that hold of every host: 10_state.md R36 (b), (c), (d), and that `CUR_ACK` never
passes `HIGHEST_SENT + 1`. R36 (a) is not among them: see `OrderOk` and log 16. -/
structure SequencingOk (s : State) : Prop where
  distinct : (seqs s.cfg (s.window ++ s.backlog)).Nodup
  windowSent : ∀ p ∈ s.window, 1 ≤ (seqOf s.cfg p).toNat ∧ (seqOf s.cfg p).toNat ≤ s.highestSent.toNat
  sentMade : s.highestSent.toNat ≤ s.seq.toNat
  backlogMade : ∀ p ∈ s.backlog, 1 ≤ (seqOf s.cfg p).toNat ∧ (seqOf s.cfg p).toNat ≤ s.seq.toNat
  backlogRising : (seqs s.cfg s.backlog).Pairwise (· < ·)
  seqBound : s.seq.toNat ≤ Config.lastSeq
  ackRange : 1 ≤ s.curAck.toNat ∧ s.curAck.toNat ≤ s.highestSent.toNat + 1

/-- The chain invariants 10_state.md R38 (b), (c); and that only packets sent at least once have an entry. -/
structure ChainOk (s : State) : Prop where
  once : (s.chain.map ChainEntry.seq).Nodup
  transmitted : ∀ e ∈ s.chain, e.seq.toNat ≤ s.highestSent.toNat ∧ e.seq ∉ seqs s.cfg s.backlog
  live : ∀ e ∈ s.chain, s.curAck ≤ e.seq → ∃ p ∈ s.window, seqOf s.cfg p = e.seq

/-- The capacity bounds: 44_congestion.md R169, 10_state.md R24, R37. -/
structure CapacityOk (s : State) : Prop where
  cap : 1 ≤ s.wcap ∧ s.wcap ≤ s.cfg.cc.bound
  fixedCap : ∀ c, s.cfg.cc = .fixed c → s.wcap = c
  windowBound : s.window.length ≤ s.cfg.cc.bound

/-- The reorder-buffer invariants: 10_state.md R40, 46_reorder_buffer.md R192. -/
structure ReceiverOk (s : State) : Prop where
  rising : (seqs s.cfg s.rbuf).Pairwise (· < ·)
  ahead : ∀ p ∈ s.rbuf, s.expected < seqOf s.cfg p
  usable : ∀ p ∈ s.rbuf, seqOf s.cfg p ≠ 0xFFFFFFFF
  started : 1 ≤ s.expected.toNat

/-- The duplicate-ack map is in canonical form with counts 1 and 2 (10_state.md R34). -/
structure DupOk (s : State) : Prop where
  canonical : DupWf s.dupcnt
  small : ∀ e ∈ s.dupcnt, e.2 ≤ 2

/-- The timer is armed iff the chain is non-empty (10_state.md R39; for every host by log 6), and the fault latch is 0,
or 1 with an empty chain (43_timer_chain.md R154; code 2 is never reached). -/
structure LatchOk (s : State) : Prop where
  armed : s.tmr.isSome = timerArmed s
  latch : s.fatal = 0 ∨ s.fatal = 1 ∧ s.chain = []

/-- The invariant of the engine: what holds between commands, for every host. -/
structure EngineInv (s : State) : Prop where
  cfgOk : s.cfg.WF
  sizes : SizesOk s
  sequencing : SequencingOk s
  chainOk : ChainOk s
  capacity : CapacityOk s
  receiver : ReceiverOk s
  dup : DupOk s
  latch : LatchOk s

/-- The order that holds as long as no message bypasses the backlog (10_state.md R36 (a), (e), (f)). -/
structure OrderOk (s : State) : Prop where
  rising : (seqs s.cfg (s.window ++ s.backlog)).Pairwise (· < ·)
  unacked : ∀ p ∈ s.window, s.curAck ≤ seqOf s.cfg p
  unsent : ∀ p ∈ s.backlog, s.highestSent < seqOf s.cfg p

/-- The backlog waits only while the window is full (10_state.md R36 (e), mode `Fixed`). -/
def FullOk (s : State) : Prop := s.backlog ≠ [] → s.wcap ≤ s.window.length

/-- The command is not a message that would bypass a waiting backlog (10_state.md R36 (f); 70_reset_and_hazards.md
R252). -/
def NoBypass (i : Instr) (s : State) : Prop :=
  ∀ now data, i = .sndMsg now data → s.backlog = [] ∨ s.wcap ≤ s.window.length

/-- Deadlines when the clock last read `last` (10_state.md R38 (a)): non-decreasing from head to tail, none later than
`last + TIMEOUT`. -/
structure DeadlinesOk (last : Nat) (s : State) : Prop where
  rising : (s.chain.map fun e => e.expiry.toNat).Pairwise (· ≤ ·)
  bounded : ∀ e ∈ s.chain, e.expiry.toNat ≤ last + s.cfg.timeout.toNat

/-- When the chain is non-empty the host's timer is armed, for no earlier than the head's deadline, and for no later
than the larger of it and the last clock reading (10_state.md R39: its deadline is `max(t_arm, head.expiry)`). -/
def TimerServesHead (last : Nat) (s : State) : Prop :=
  ∀ e rest, s.chain = e :: rest → ∃ t, s.tmr = some t ∧ e.expiry.toNat ≤ t ∧ t ≤ max last e.expiry.toNat

/-- The clock reading a command carries (10_state.md R43). -/
def nowOf : Instr → Option Time
  | .csum _ => none
  | .encode _ _ _ => none
  | .validate _ => none
  | .seglen _ => none
  | .sndInit => none
  | .sndFinal => none
  | .sndMsg now _ => some now
  | .sndPkt now _ => some now
  | .sndTimer now => some now
  | .rcvInit => none
  | .rcvFinal => none
  | .rcvPkt _ => none

/-- The last clock reading once the next event of the port is taken. -/
def clockAfter (last : Nat) (s : State) : Nat :=
  match s.input with
  | .command d :: _ =>
    match decode s.cfg d with
    | .ok i => match nowOf i with
      | some now => now.toNat
      | none => last
    | .error _ => last
  | _ => last

/-- R244 (b) for one command: its clock reading is not before `last`, and `now + TIMEOUT` fits in 64 bits. -/
def ClockOk (last : Nat) (i : Instr) (s : State) : Prop :=
  ∀ now, nowOf i = some now → last ≤ now.toNat ∧ now.toNat + s.cfg.timeout.toNat < 2 ^ 64

/-- R244 (c) for one command: `SND_TIMER` is issued only when the timer the engine armed has run out. -/
def FiringOk (i : Instr) (s : State) : Prop :=
  ∀ now, i = .sndTimer now → ∃ t, s.tmr = some t ∧ t ≤ now.toNat

/-- The states an engine built with `cfg` can be in, whatever its host presents. -/
inductive Reachable (cfg : Cfg) : State → Prop where
  | start (input : List PortEvent) : Reachable cfg { State.ofCfg cfg with input := input }
  | next {s t : State} : Reachable cfg s → step s = .next t → Reachable cfg t

/-- Which half a command may touch (30_encoding.md R88, column "half"). -/
inductive EngineHalf where
  | none
  | sender
  | receiver
  deriving DecidableEq, Repr

/-- R88, column "half". -/
def halfOf : Instr → EngineHalf
  | .csum _ => .none
  | .encode _ _ _ => .none
  | .validate _ => .none
  | .seglen _ => .none
  | .sndInit => .sender
  | .sndFinal => .sender
  | .sndMsg _ _ => .sender
  | .sndPkt _ _ => .sender
  | .sndTimer _ => .sender
  | .rcvInit => .receiver
  | .rcvFinal => .receiver
  | .rcvPkt _ => .receiver

/-- The sender halves of two states agree, the host's timer and the model's free-value counter with them. -/
structure SameSender (s t : State) : Prop where
  seq : t.seq = s.seq
  curAck : t.curAck = s.curAck
  highestSent : t.highestSent = s.highestSent
  wcap : t.wcap = s.wcap
  window : t.window = s.window
  backlog : t.backlog = s.backlog
  chain : t.chain = s.chain
  dupcnt : t.dupcnt = s.dupcnt
  tmr : t.tmr = s.tmr
  freeCtr : t.freeCtr = s.freeCtr

/-- The receiver halves of two states agree. -/
structure SameReceiver (s t : State) : Prop where
  expected : t.expected = s.expected
  rbuf : t.rbuf = s.rbuf

/-- The payload of a `TO_APP` action; nothing of any other action. -/
def appData : Action → Option Message
  | .toApp data => some data
  | .toChannel _ => none
  | .timerArm _ => none
  | .timerDisarm => none
  | .fatal _ => none
  | .err _ => none
  | .result16 _ => none
  | .resultPkt _ => none

/-- The byte stream the application has been given: the concatenation of the `TO_APP` data (46_reorder_buffer.md
R187). -/
def delivered (s : State) : Message := (s.actions.filterMap appData).flatten

/-- A list of packets given to the receiver one after another. -/
def receiveAll : List Packet → State → Result
  | [], s => .next s
  | p :: ps, s =>
    match exec (.rcvPkt p) s with
    | .next t => receiveAll ps t
    | .fault r => .fault r
    | .refused r => .refused r

/-- The actions of first transmissions: `TO_CHANNEL` each, and one `TIMER_ARM` after the first if no timer was armed. -/
def sendActions (cfg : Cfg) (armed : Bool) : List Packet → List Action
  | [] => []
  | p :: ps => .toChannel p :: (if armed then [] else [.timerArm cfg.timeout]) ++ ps.map .toChannel

/-- The largest of `h` and the sequence numbers of the packets. -/
def highestOf (cfg : Cfg) (h : Seq) (ps : List Packet) : Seq := ps.foldl (fun h p => maxSeq h (seqOf cfg p)) h

/-- `WCAP` after one `aimd_halve` (44_congestion.md R167; nothing in mode `Fixed`, R165). -/
def halvedCap : CcMode → Nat → Nat
  | .fixed _, w => w
  | .aimd _ _, w => max 1 (w / 2)

/-- `WCAP` after one `aimd_increase` (44_congestion.md R166; nothing in mode `Fixed`, R165). -/
def increasedCap : CcMode → Nat → Nat
  | .fixed _, w => w
  | .aimd _ ub, w => min ub (if w < ub then 2 * w else w + 1)

/-- `WCAP` after one `aimd_reset` (44_congestion.md R168; nothing in mode `Fixed`, R165). -/
def timeoutCap : CcMode → Nat → Nat
  | .fixed _, w => w
  | .aimd base _, _ => base

/-- How many packets at the front of a list carry the numbers `e`, `e + 1`, ... (46_reorder_buffer.md R190). -/
def runLength (cfg : Cfg) : Seq → List Packet → Nat
  | _, [] => 0
  | e, p :: ps => if seqOf cfg p = e then runLength cfg (e + 1) ps + 1 else 0

/-- The `i`-th packet of a message sent when `SEQ = seq` (41_segmenter.md R131, R133): bytes `i * M` on, at most `M` of
them, numbered `seq + i + 1`, with the placeholder ack 1. -/
def messagePacket (cfg : Cfg) (seq : Seq) (data : Message) (i : Nat) : Packet :=
  encodePacket cfg (slice data (i * cfg.maxPayload) cfg.maxPayload) (seq + BitVec.ofNat 32 (i + 1)) 1

/-- The packets of a message, `ceil(S / M)` of them (41_segmenter.md R131, R133). -/
def messagePackets (cfg : Cfg) (seq : Seq) (data : Message) : List Packet :=
  (List.range (packetCount cfg data.length)).map (messagePacket cfg seq data)

/-- The total length 30_encoding.md R85 gives a descriptor with a known byte 0: from `PKT_SIZE`, or from the
descriptor's own length field. -/
def requiredLength (cfg : Cfg) (d : List Byte) : Option Nat :=
  match (d.headD 0).toNat with
  | 0x01 => some (3 + getField cfg.byteOrder d 1 2)
  | 0x02 => some (10 + getField cfg.byteOrder d 9 1)
  | 0x03 => some (1 + cfg.pktSize)
  | 0x04 => some 5
  | 0x10 => some 1
  | 0x11 => some 1
  | 0x12 => some (13 + getField cfg.byteOrder d 9 4)
  | 0x13 => some (9 + cfg.pktSize)
  | 0x14 => some 9
  | 0x20 => some 1
  | 0x21 => some 1
  | 0x23 => some (1 + cfg.pktSize)
  | _ => none

/-- The timer action `cancel(a)` emits (43_timer_chain.md R151). -/
def cancelActions (chain : List ChainEntry) (a : Seq) (now : Time) : List Action :=
  match chain with
  | [] => []
  | [e] => if e.seq = a then [.timerDisarm] else []
  | e :: e' :: _ => if e.seq = a then [.timerArm (satSub e'.expiry now)] else []

/-- The deadline `cancel(a)` leaves the host's timer with: none when the only entry goes, the new head's, or `now` if
that has passed, when the head goes (43_timer_chain.md R151; 10_state.md R39, R44). -/
def cancelTimer (chain : List ChainEntry) (a : Seq) (now : Time) (tmr : Option Nat) : Option Nat :=
  match chain with
  | [] => tmr
  | [e] => if e.seq = a then none else tmr
  | e :: e' :: _ => if e.seq = a then some (max now.toNat e'.expiry.toNat) else tmr

end Sys2Proof.Machine
end

