-- ==== Sys2Proof/Certificates/Slice0/Obligations.lean ====
section
/-! DEFINITION. The statements for the provers. Each docstring names the rules it formalises; where a statement rests on
a choice of the model it says so. -/

open Sys2Proof Sys2Proof.Machine

/-! ### Encoding -/

/-- 30_encoding.md R84 to R89: decoding the descriptor of a well-formed command gives the command back, with every
operand at every value, under every configuration. -/
def Obligations.DecodeInvertsEncode : Prop :=
  ∀ (cfg : Cfg) (i : Instr), i.wf cfg = true → decode cfg (encode cfg i) = .ok i

/-- 30_encoding.md R85, R87, R89, R91: a descriptor the decoder accepts is the descriptor of exactly one well-formed
command, the one decoded: no bit of it is dropped. -/
def Obligations.EncodeInvertsDecode : Prop :=
  ∀ (cfg : Cfg) (d : List Byte) (i : Instr), decode cfg d = .ok i → i.wf cfg = true ∧ encode cfg i = d

/-- Descriptors written out from 30_encoding.md R85, R88 and 95_test_vectors.md (Programs 1, 4 and 5, V-C39, V-L1), at
least one of each of the eight formats, little-endian, with `PKT_SIZE = 12` for the packet operands of `SND_PKT` and
`RCV_PKT`. -/
def Obligations.SpecDescriptorsDecode : Prop :=
  let cfg : Cfg := { pktSize := 12, timeout := 30, cc := .aimd 2 10, byteOrder := .le }
  decode cfg [0x01, 0x03, 0x00, 0x01, 0x02, 0x03] = .ok (.csum [0x01, 0x02, 0x03]) ∧
  decode cfg [0x02, 0x01, 0, 0, 0, 0x02, 0, 0, 0, 0x02, 0x41, 0x42] = .ok (.encode 1 2 [0x41, 0x42]) ∧
  decode cfg [0x04, 0x2C, 0x01, 0x00, 0x00] = .ok (.seglen 300) ∧
  decode cfg [0x10] = .ok .sndInit ∧
  decode cfg [0x12, 0x06, 0, 0, 0, 0, 0, 0, 0, 0x01, 0, 0, 0, 0x78] = .ok (.sndMsg 6 [0x78]) ∧
  decode cfg [0x13, 0x21, 0, 0, 0, 0, 0, 0, 0, 12, 11, 10, 9, 8, 7, 6, 5, 4, 3, 2, 1]
    = .ok (.sndPkt 33 [12, 11, 10, 9, 8, 7, 6, 5, 4, 3, 2, 1]) ∧
  decode cfg [0x14, 0x1E, 0, 0, 0, 0, 0, 0, 0] = .ok (.sndTimer 30) ∧
  decode cfg [0x21] = .ok .rcvFinal ∧
  decode cfg [0x23, 1, 2, 3, 4, 5, 6, 7, 8, 9, 10, 11, 12] = .ok (.rcvPkt [1, 2, 3, 4, 5, 6, 7, 8, 9, 10, 11, 12])

/-- 30_encoding.md R90: a descriptor whose byte 0 is none of the twelve listed values (0x22 among them), and the empty
descriptor, is answered by `ERR(1)` and changes no state; none executes as a no-op. -/
def Obligations.UnlistedOpcodeIsRefused : Prop :=
  (∀ (s : State) (d : List Byte) (rest : List PortEvent), s.input = .command d :: rest →
    (∀ b, d.head? = some b →
      b ∉ ([0x01, 0x02, 0x03, 0x04, 0x10, 0x11, 0x12, 0x13, 0x14, 0x20, 0x21, 0x23] : List Byte)) →
    step s = .next { s with input := rest, actions := s.actions ++ [.err .illegalOpcode] }) ∧
  ∀ cfg, encodeAction cfg (.err .illegalOpcode) = [0x86, 0x01]

/-- 30_encoding.md R91: a descriptor of a known opcode whose length differs from the one R85 computes is answered by
`ERR(2)` and changes no state; `ENCODE` with `plen > MAX_PAYLOAD` is well-formed, and refused by its own rule with
`ERR(3)`. -/
def Obligations.WrongLengthIsRefused : Prop :=
  (∀ (s : State) (d : List Byte) (rest : List PortEvent) (n : Nat), s.input = .command d :: rest →
    requiredLength s.cfg d = some n → d.length ≠ n →
    step s = .next { s with input := rest, actions := s.actions ++ [.err .badFormat] }) ∧
  (∀ cfg, encodeAction cfg (.err .badFormat) = [0x86, 0x02]) ∧
  ∀ (s : State) (seq ack : Seq) (payload : Message), s.fatal = 0 → payload.length < 256 →
    s.cfg.maxPayload < payload.length →
    decode s.cfg (encode s.cfg (.encode seq ack payload)) = .ok (.encode seq ack payload) ∧
    exec (.encode seq ack payload) s = .next { s with actions := s.actions ++ [.err .payloadTooLong] }

/-- 30_encoding.md R93, 60_exceptions.md R215, R217: the bytes of the action descriptors: code, length and fields of each,
the two fatal codes and the five reasons. -/
def Obligations.ActionDescriptorLayouts : Prop :=
  ∀ (cfg : Cfg) (pkt : Packet) (data : Message) (d : Time) (v : Word16),
    encodeAction cfg (.toChannel pkt) = 0x81 :: pkt ∧
    (encodeAction cfg (.toApp data)).length = 5 + data.length ∧ (encodeAction cfg (.toApp data)).take 1 = [0x82] ∧
    (data.length < 2 ^ 32 → getField cfg.byteOrder (encodeAction cfg (.toApp data)) 1 4 = data.length) ∧
    (encodeAction cfg (.toApp data)).drop 5 = data ∧
    (encodeAction cfg (.timerArm d)).length = 9 ∧ (encodeAction cfg (.timerArm d)).take 1 = [0x83] ∧
    getField cfg.byteOrder (encodeAction cfg (.timerArm d)) 1 8 = d.toNat ∧
    encodeAction cfg .timerDisarm = [0x84] ∧
    encodeAction cfg (.fatal .timerEmpty) = [0x85, 1] ∧ encodeAction cfg (.fatal .lookupMiss) = [0x85, 2] ∧
    encodeAction cfg (.err .illegalOpcode) = [0x86, 1] ∧ encodeAction cfg (.err .badFormat) = [0x86, 2] ∧
    encodeAction cfg (.err .payloadTooLong) = [0x86, 3] ∧ encodeAction cfg (.err .seqExhausted) = [0x86, 4] ∧
    encodeAction cfg (.err .halted) = [0x86, 5] ∧
    (encodeAction cfg (.result16 v)).length = 3 ∧ (encodeAction cfg (.result16 v)).take 1 = [0x87] ∧
    getField cfg.byteOrder (encodeAction cfg (.result16 v)) 1 2 = v.toNat ∧
    encodeAction cfg (.resultPkt pkt) = 0x88 :: pkt

/-! ### The step -/

/-- 00_scope.md R10, 20_memory.md R71, 10_state.md R28, R44: a step takes the next event of the port. A descriptor that
decodes to `i` runs `exec i`, after the host's own disarming of its timer when `i` is `SND_TIMER`; the reset input
resets; with no event pending nothing changes. The port queue is the model's (log 3). That the timer is disarmed by
every `SND_TIMER`, also by one that comes before it has run out and by one a halted engine refuses, is the model's
(log 6): R44 says it of a well-behaved host only. -/
def Obligations.StepRunsDecodedCommand : Prop :=
  ∀ (s : State) (rest : List PortEvent),
    (∀ d i, s.input = .command d :: rest → decode s.cfg d = .ok i →
      (∀ now, i = .sndTimer now → step s = exec i { s with input := rest, tmr := none }) ∧
      ((∀ now, i ≠ .sndTimer now) → step s = exec i { s with input := rest })) ∧
    (s.input = .reset :: rest → step s = .next (hardwareReset { s with input := rest })) ∧
    (s.input = [] → step s = .next s)

/-- 60_exceptions.md R210, R217, R222: every descriptor the host can present, the reset input and an idle port have a
next state; the engine never stops. -/
def Obligations.EveryStepAnswersNext : Prop :=
  (∀ s : State, ∃ t, step s = .next t) ∧ ∀ (i : Instr) (s : State), ∃ t, exec i s = .next t

/-! ### Packet buffers and the codec -/

/-- 20_memory.md R62: the value an accessor reads is the sum of the bytes at its offsets, weighted in `BYTE_ORDER`, at
every offset where its field fits. -/
def Obligations.AccessorsWeighBytes : Prop :=
  ∀ (p : Packet) (o : Nat),
    (o + 1 ≤ p.length →
      (get8 .le p o).toNat = (p.getD o 0).toNat ∧ (get8 .be p o).toNat = (p.getD o 0).toNat) ∧
    (o + 2 ≤ p.length →
      (get16 .le p o).toNat = (p.getD o 0).toNat + 256 * (p.getD (o + 1) 0).toNat ∧
      (get16 .be p o).toNat = 256 * (p.getD o 0).toNat + (p.getD (o + 1) 0).toNat) ∧
    (o + 4 ≤ p.length →
      (get32 .le p o).toNat = (p.getD o 0).toNat + 256 * (p.getD (o + 1) 0).toNat
        + 65536 * (p.getD (o + 2) 0).toNat + 16777216 * (p.getD (o + 3) 0).toNat ∧
      (get32 .be p o).toNat = 16777216 * (p.getD o 0).toNat + 65536 * (p.getD (o + 1) 0).toNat
        + 256 * (p.getD (o + 2) 0).toNat + (p.getD (o + 3) 0).toNat)

/-- 20_memory.md R63: what `putN` writes `getN` reads back, in either byte order, at every offset where the field fits;
no other byte of the buffer changes, and it keeps its length. -/
def Obligations.AccessorsReadBackAndFrame : Prop :=
  ∀ (bo : ByteOrder) (p : Packet) (o : Nat),
    (∀ v : BitVec 8, o + 1 ≤ p.length → get8 bo (put8 bo p o v) o = v ∧ (put8 bo p o v).length = p.length ∧
      ∀ j, j < o ∨ o + 1 ≤ j → (put8 bo p o v)[j]? = p[j]?) ∧
    (∀ v : BitVec 16, o + 2 ≤ p.length → get16 bo (put16 bo p o v) o = v ∧ (put16 bo p o v).length = p.length ∧
      ∀ j, j < o ∨ o + 2 ≤ j → (put16 bo p o v)[j]? = p[j]?) ∧
    (∀ v : BitVec 32, o + 4 ≤ p.length → get32 bo (put32 bo p o v) o = v ∧ (put32 bo p o v).length = p.length ∧
      ∀ j, j < o ∨ o + 4 ≤ j → (put32 bo p o v)[j]? = p[j]?)

/-- 40_codec.md R110, R111, 20_memory.md R64: the word sum adds 16-bit words of two bytes each in `BYTE_ORDER`, an odd
tail padded with a zero byte; the checksum is the complement of that sum reduced modulo 0xFFFF, with 0xFFFF in place of
0 when the sum is not 0. -/
def Obligations.ChecksumIsSumModulo65535 : Prop :=
  (∀ bo, wordSum bo [] = 0) ∧
  (∀ b : Byte, wordSum .le [b] = b.toNat ∧ wordSum .be [b] = 256 * b.toNat) ∧
  (∀ (b0 b1 : Byte) (rest : List Byte),
    wordSum .le (b0 :: b1 :: rest) = b0.toNat + 256 * b1.toNat + wordSum .le rest ∧
    wordSum .be (b0 :: b1 :: rest) = 256 * b0.toNat + b1.toNat + wordSum .be rest) ∧
  ∀ (bo : ByteOrder) (d : List Byte), (checksum16 bo d).toNat =
    0xFFFF - (if wordSum bo d = 0 then 0 else if wordSum bo d % 0xFFFF = 0 then 0xFFFF else wordSum bo d % 0xFFFF)

/-- 40_codec.md R111, R117 (b): exchanging two aligned 16-bit words of a byte string does not change its checksum. -/
def Obligations.ChecksumIgnoresWordOrder : Prop :=
  ∀ (bo : ByteOrder) (a m b : List Byte) (x0 x1 y0 y1 : Byte), a.length % 2 = 0 → m.length % 2 = 0 →
    checksum16 bo (a ++ [x0, x1] ++ m ++ [y0, y1] ++ b) = checksum16 bo (a ++ [y0, y1] ++ m ++ [x0, x1] ++ b)

/-- 40_codec.md R115: an encoded packet validates, and its fields read back. -/
def Obligations.EncodedPacketValidatesAndReadsBack : Prop :=
  ∀ (cfg : Cfg) (payload : Message) (seq ack : Seq), cfg.WF → payload.length ≤ cfg.maxPayload →
    validate cfg (encodePacket cfg payload seq ack) = true ∧
    (lenOf cfg (encodePacket cfg payload seq ack)).toNat = payload.length ∧
    seqOf cfg (encodePacket cfg payload seq ack) = seq ∧
    ackOf cfg (encodePacket cfg payload seq ack) = ack ∧
    payloadOf cfg (encodePacket cfg payload seq ack) = payload

/-- 30_encoding.md R80, R82, 40_codec.md R113: an encoded packet has `PKT_SIZE` bytes, its length byte at offset 0, its
payload from offset 11, and zeros after the payload. -/
def Obligations.EncodedPacketLayout : Prop :=
  ∀ (cfg : Cfg) (payload : Message) (seq ack : Seq), cfg.WF → payload.length ≤ cfg.maxPayload →
    (encodePacket cfg payload seq ack).length = cfg.pktSize ∧
    (encodePacket cfg payload seq ack)[0]? = some (BitVec.ofNat 8 payload.length) ∧
    (∀ i, i < payload.length → (encodePacket cfg payload seq ack)[11 + i]? = payload[i]?) ∧
    ∀ j, 11 + payload.length ≤ j → j < cfg.pktSize → (encodePacket cfg payload seq ack)[j]? = some 0

/-- 40_codec.md R117 (a), S1: every single-bit flip anywhere in an encoded packet, checksum field included, is
detected. -/
def Obligations.SingleBitFlipIsDetected : Prop :=
  ∀ (cfg : Cfg) (payload : Message) (seq ack : Seq) (k j : Nat), cfg.WF → payload.length ≤ cfg.maxPayload →
    k < cfg.pktSize → j < 8 →
    validate cfg ((encodePacket cfg payload seq ack).modify k (fun b => b ^^^ BitVec.twoPow 8 j)) = false

/-! ### The direct commands -/

/-- 40_codec.md R118: `CSUM` answers `RESULT16` of the checksum and changes no state; it is refused while `FATAL` is
not 0. -/
def Obligations.CsumAnswersChecksum : Prop :=
  ∀ (data : Message) (s : State),
    (s.fatal = 0 → exec (.csum data) s =
      .next { s with actions := s.actions ++ [.result16 (checksum16 s.cfg.byteOrder data)] }) ∧
    (s.fatal ≠ 0 → exec (.csum data) s = .next { s with actions := s.actions ++ [.err .halted] })

/-- 40_codec.md R119: `ENCODE` answers the encoded packet and changes no state, `SEQ` included; with too long a payload
it is refused with reason 3, and while `FATAL` is not 0 with reason 5. -/
def Obligations.EncodeAnswersPacket : Prop :=
  ∀ (seq ack : Seq) (payload : Message) (s : State),
    (s.fatal = 0 → payload.length ≤ s.cfg.maxPayload → exec (.encode seq ack payload) s =
      .next { s with actions := s.actions ++ [.resultPkt (encodePacket s.cfg payload seq ack)] }) ∧
    (s.fatal = 0 → s.cfg.maxPayload < payload.length → exec (.encode seq ack payload) s =
      .next { s with actions := s.actions ++ [.err .payloadTooLong] }) ∧
    (s.fatal ≠ 0 → exec (.encode seq ack payload) s = .next { s with actions := s.actions ++ [.err .halted] })

/-- 40_codec.md R116, R120: `VALIDATE` answers 1 exactly when the length byte is at most `MAX_PAYLOAD` and the stored
checksum is the one recomputed with bytes 9 and 10 zero; it changes no state, and is refused while `FATAL` is not 0. -/
def Obligations.ValidateAnswersVerdict : Prop :=
  ∀ (pkt : Packet) (s : State),
    (s.fatal = 0 → (lenOf s.cfg pkt).toNat ≤ s.cfg.maxPayload →
      checksum16 s.cfg.byteOrder (pkt.take 9 ++ [0, 0] ++ pkt.drop 11) = csumOf s.cfg pkt →
      exec (.validate pkt) s = .next { s with actions := s.actions ++ [.result16 1] }) ∧
    (s.fatal = 0 → (s.cfg.maxPayload < (lenOf s.cfg pkt).toNat ∨
        checksum16 s.cfg.byteOrder (pkt.take 9 ++ [0, 0] ++ pkt.drop 11) ≠ csumOf s.cfg pkt) →
      exec (.validate pkt) s = .next { s with actions := s.actions ++ [.result16 0] }) ∧
    (s.fatal ≠ 0 → exec (.validate pkt) s = .next { s with actions := s.actions ++ [.err .halted] })

/-- 41_segmenter.md R130, R135: `SEGLEN` answers `min(remaining, MAX_PAYLOAD)` and changes no state; it is refused while
`FATAL` is not 0. -/
def Obligations.SegLenAnswersMinimum : Prop :=
  ∀ (remaining : BitVec 32) (s : State), s.cfg.WF →
    (s.fatal = 0 → ∃ v : Word16, v.toNat = min remaining.toNat s.cfg.maxPayload ∧
      exec (.seglen remaining) s = .next { s with actions := s.actions ++ [.result16 v] }) ∧
    (s.fatal ≠ 0 → exec (.seglen remaining) s = .next { s with actions := s.actions ++ [.err .halted] })

/-! ### Lifecycle, halting, reset -/

/-- 47_lifecycle.md R200, R201: `SND_INIT` and `SND_FINAL` put the whole sender half at its reset values, with a
`TIMER_DISARM` exactly when deadlines were pending; everything else is untouched. -/
def Obligations.SenderLifecycleResetsHalf : Prop :=
  ∀ (s : State) (i : Instr), (i = .sndInit ∨ i = .sndFinal) →
    (s.fatal = 0 → ∃ t, exec i s = .next t ∧
      t.seq = 0 ∧ t.curAck = 1 ∧ t.highestSent = 0 ∧ t.window = [] ∧ t.backlog = [] ∧ t.chain = [] ∧ t.dupcnt = [] ∧
      (∀ base ub, s.cfg.cc = .aimd base ub → t.wcap = base) ∧ (∀ c, s.cfg.cc = .fixed c → t.wcap = c) ∧
      (s.chain ≠ [] → t.actions = s.actions ++ [.timerDisarm] ∧ t.tmr = none) ∧
      (s.chain = [] → t.actions = s.actions ∧ t.tmr = s.tmr) ∧
      t.expected = s.expected ∧ t.rbuf = s.rbuf ∧ t.fatal = s.fatal ∧ t.cfg = s.cfg ∧ t.input = s.input ∧
      t.freeCtr = s.freeCtr) ∧
    (s.fatal ≠ 0 → exec i s = .next { s with actions := s.actions ++ [.err .halted] })

/-- 47_lifecycle.md R202, R203: `RCV_INIT` and `RCV_FINAL` put the receiver half at its reset values, with no action;
everything else is untouched. -/
def Obligations.ReceiverLifecycleResetsHalf : Prop :=
  ∀ (s : State) (i : Instr), (i = .rcvInit ∨ i = .rcvFinal) →
    (s.fatal = 0 → exec i s = .next { s with expected := 1, rbuf := [] }) ∧
    (s.fatal ≠ 0 → exec i s = .next { s with actions := s.actions ++ [.err .halted] })

/-- 60_exceptions.md R216: while `FATAL` is not 0 every command is refused with `ERR_HALTED` and changes nothing, and
no descriptor takes the engine out of the halted state; the reset input does. -/
def Obligations.HaltedUntilReset : Prop :=
  (∀ (i : Instr) (s : State), s.fatal ≠ 0 → exec i s = .next { s with actions := s.actions ++ [.err .halted] }) ∧
  (∀ (s t : State) (d : List Byte) (rest : List PortEvent), s.fatal ≠ 0 → s.input = .command d :: rest →
    step s = .next t → t.fatal = s.fatal) ∧
  ∀ (s : State) (rest : List PortEvent), s.input = .reset :: rest → ∃ t, step s = .next t ∧ t.fatal = 0

/-- 70_reset_and_hazards.md R240, 10_state.md R46: hardware reset puts every piece of state, `FATAL` included, at its
reset value, whatever the state was, and emits no action; the host's timer is disarmed; nothing else clears `FATAL`.
`State.reset` has the same values. -/
def Obligations.HardwareResetRestoresAll : Prop :=
  (∀ (s : State) (rest : List PortEvent), s.input = .reset :: rest → ∃ t, step s = .next t ∧
    t.seq = 0 ∧ t.curAck = 1 ∧ t.highestSent = 0 ∧ t.window = [] ∧ t.backlog = [] ∧ t.chain = [] ∧
    (∀ a, dupGet t.dupcnt a = 0) ∧
    (∀ base ub, s.cfg.cc = .aimd base ub → t.wcap = base) ∧ (∀ c, s.cfg.cc = .fixed c → t.wcap = c) ∧
    t.expected = 1 ∧ t.rbuf = [] ∧ t.fatal = 0 ∧ t.tmr = none ∧ t.actions = s.actions) ∧
  (∀ s t : State, s.fatal ≠ 0 → step s = .next t → t.fatal = 0 → ∃ rest, s.input = .reset :: rest) ∧
  State.reset.seq = 0 ∧ State.reset.curAck = 1 ∧ State.reset.highestSent = 0 ∧ State.reset.window = [] ∧
  State.reset.backlog = [] ∧ State.reset.chain = [] ∧ (∀ a, dupGet State.reset.dupcnt a = 0) ∧
  (∀ base ub, State.reset.cfg.cc = .aimd base ub → State.reset.wcap = base) ∧
  (∀ c, State.reset.cfg.cc = .fixed c → State.reset.wcap = c) ∧
  State.reset.expected = 1 ∧ State.reset.rbuf = [] ∧ State.reset.fatal = 0 ∧ State.reset.tmr = none

/-! ### Segmenter and send window -/

/-- 41_segmenter.md R131, R132, R133, R134: a message of `S` bytes yields `ceil(S / M)` packets; the `i`-th is numbered
`SEQ + i + 1`, carries ack 1, and is full or, the last one, carries the rest; the payloads together are the message. -/
def Obligations.SplitNumbersSizesReassembles : Prop :=
  ∀ (cfg : Cfg) (seq : Seq) (msg : Message), cfg.WF → seq.toNat + packetCount cfg msg.length ≤ Config.lastSeq →
    (split cfg seq msg).length * cfg.maxPayload < msg.length + cfg.maxPayload ∧
    msg.length ≤ (split cfg seq msg).length * cfg.maxPayload ∧
    (∀ i (h : i < (split cfg seq msg).length),
      (seqOf cfg (split cfg seq msg)[i]).toNat = seq.toNat + i + 1 ∧
      ackOf cfg (split cfg seq msg)[i] = 1 ∧
      validate cfg (split cfg seq msg)[i] = true ∧
      (i + 1 < (split cfg seq msg).length → (payloadOf cfg (split cfg seq msg)[i]).length = cfg.maxPayload) ∧
      (i + 1 = (split cfg seq msg).length →
        (payloadOf cfg (split cfg seq msg)[i]).length = msg.length - i * cfg.maxPayload)) ∧
    (split cfg seq msg).flatMap (payloadOf cfg) = msg

/-- 41_segmenter.md R136, 42_send_window.md R140, R141, 43_timer_chain.md R150: an accepted message moves `SEQ` on by
its packet count; as many of its packets as the window has room for are sent, scheduled and appended to the window, the
rest joins the backlog, in order; the entries the chain held stay in front as they were; the timer is armed once, only if
a packet was sent and the chain was empty; nothing else changes. The expiry is `now + TIMEOUT` where that fits in 64
bits (elsewhere a free value and its counter moves on, log 7; the timer's deadline does not wrap, log 8). -/
def Obligations.SndMsgSendsThenBacklogs : Prop :=
  ∀ (s : State) (now : Time) (data : Message), s.cfg.WF → s.fatal = 0 →
    s.seq.toNat + packetCount s.cfg data.length ≤ Config.lastSeq →
    ∃ t, exec (.sndMsg now data) s = .next t ∧
      let ps := messagePackets s.cfg s.seq data
      let sent := ps.take (s.wcap - s.window.length)
      let waiting := ps.drop (s.wcap - s.window.length)
      t.seq.toNat = s.seq.toNat + ps.length ∧
      t.window = s.window ++ sent ∧ t.backlog = s.backlog ++ waiting ∧
      (∃ new, t.chain = s.chain ++ new ∧ new.map ChainEntry.seq = seqs s.cfg sent ∧
        (DeadlineFits now s → new = sent.map fun p => ⟨seqOf s.cfg p, now + s.cfg.timeout⟩)) ∧
      t.tmr = (if s.chain = [] ∧ sent ≠ [] then some (now.toNat + s.cfg.timeout.toNat) else s.tmr) ∧
      (DeadlineFits now s → t.freeCtr = s.freeCtr) ∧
      t.highestSent.toNat = (if sent = [] then s.highestSent.toNat
        else max s.highestSent.toNat (s.seq.toNat + sent.length)) ∧
      t.actions = s.actions ++ sendActions s.cfg (timerArmed s) sent ∧
      t.curAck = s.curAck ∧ t.wcap = s.wcap ∧ t.dupcnt = s.dupcnt ∧ t.expected = s.expected ∧ t.rbuf = s.rbuf ∧
      t.fatal = s.fatal ∧ t.cfg = s.cfg ∧ t.input = s.input

/-- 41_segmenter.md R132, R136: a message that would need a sequence number above 0xFFFFFFFE is refused whole with
`ERR_SEQ_EXHAUSTED`, before any state change. -/
def Obligations.SndMsgRefusedWhenNumbersRunOut : Prop :=
  ∀ (s : State) (now : Time) (data : Message), s.fatal = 0 →
    0xFFFFFFFE < s.seq.toNat + packetCount s.cfg data.length →
    exec (.sndMsg now data) s = .next { s with actions := s.actions ++ [.err .seqExhausted] }

/-! ### Timer chain -/

/-- 43_timer_chain.md R150: `schedule` appends `(seq, now + TIMEOUT)` at the tail, and arms the timer for `TIMEOUT`
exactly when the chain was empty; no other field changes but the model's free-value counter, which stays where the sum
fits in 64 bits. Where it does not fit, for which R150 gives no rule, the model's choices are that the expiry is a free
value and the counter moves on (log 7) and that the timer's deadline does not wrap (log 8). -/
def Obligations.ScheduleAppendsAtTail : Prop :=
  ∀ (q : Seq) (now : Time) (s : State), ∃ (x : Time) (n : Nat),
    (now.toNat + s.cfg.timeout.toNat < 2 ^ 64 → x.toNat = now.toNat + s.cfg.timeout.toNat ∧ n = s.freeCtr) ∧
    (s.chain ≠ [] → schedule q now s = { s with chain := s.chain ++ [⟨q, x⟩], freeCtr := n }) ∧
    (s.chain = [] → schedule q now s =
      { s with
        chain := [⟨q, x⟩]
        actions := s.actions ++ [.timerArm s.cfg.timeout]
        tmr := some (now.toNat + s.cfg.timeout.toNat)
        freeCtr := n })

/-- 43_timer_chain.md R151: `cancel` removes the first entry for `q` and nothing else; the timer is disarmed when that
empties the chain, set for the new head when the head was removed, and left alone otherwise; an absent number is not an
error. -/
def Obligations.CancelRemovesFirstMatch : Prop :=
  ∀ (q : Seq) (now : Time) (s : State),
    ((∀ e ∈ s.chain, e.seq ≠ q) → cancel q now s = s) ∧
    ∀ before e after, s.chain = before ++ e :: after → e.seq = q → (∀ e' ∈ before, e'.seq ≠ q) →
      (before = [] → after = [] →
        cancel q now s = { s with chain := [], actions := s.actions ++ [.timerDisarm], tmr := none }) ∧
      (∀ head tail, before = [] → after = head :: tail → ∃ d : Time, d.toNat = head.expiry.toNat - now.toNat ∧
        cancel q now s =
          { s with
            chain := after
            actions := s.actions ++ [.timerArm d]
            tmr := some (now.toNat + d.toNat) }) ∧
      (before ≠ [] → cancel q now s = { s with chain := before ++ after })

/-- 43_timer_chain.md R154: `SND_TIMER` with an empty chain sets `FATAL` to 1 and emits `FATAL(1)`; nothing else
changes. -/
def Obligations.SndTimerOnEmptyChainIsFatal : Prop :=
  ∀ (s : State) (now : Time), s.fatal = 0 → s.chain = [] →
    exec (.sndTimer now) s = .next { s with fatal := 1, actions := s.actions ++ [.fatal .timerEmpty] }

/-- 43_timer_chain.md R153, R155, R157, 44_congestion.md R168: on a live entry whose packet is in the window, `SND_TIMER`
sends that packet again as stored, moves the entry to the tail with a fresh expiry, resets `WCAP` to `base` (mode Aimd),
and arms the timer once, for the head of the final chain, saturating at 0; the window and `DUPCNT` are unchanged. The
expiry is `now + TIMEOUT` where that fits in 64 bits (elsewhere a free value, log 7). -/
def Obligations.SndTimerRetransmitsLiveEntry : Prop :=
  ∀ (s : State) (now : Time) (e : ChainEntry) (rest : List ChainEntry) (p : Packet), s.fatal = 0 →
    s.chain = e :: rest → s.curAck ≤ e.seq → s.window.find? (fun p => seqOf s.cfg p == e.seq) = some p →
    ∃ (t : State) (x d : Time), exec (.sndTimer now) s = .next t ∧
      t.chain = rest ++ [⟨e.seq, x⟩] ∧
      t.wcap = timeoutCap s.cfg.cc s.wcap ∧
      t.actions = s.actions ++ [.toChannel p, .timerArm d] ∧
      (∀ h tl, rest = h :: tl → d.toNat = h.expiry.toNat - now.toNat) ∧
      (rest = [] → d.toNat = x.toNat - now.toNat) ∧
      t.tmr = some (now.toNat + d.toNat) ∧
      (now.toNat + s.cfg.timeout.toNat < 2 ^ 64 →
        x.toNat = now.toNat + s.cfg.timeout.toNat ∧ t.freeCtr = s.freeCtr ∧ (rest = [] → d = s.cfg.timeout)) ∧
      t = { s with chain := t.chain, wcap := t.wcap, actions := t.actions, tmr := t.tmr, freeCtr := t.freeCtr }

/-- 43_timer_chain.md R153, R155, 60_exceptions.md R215: on a live entry whose packet is not in the window, `SND_TIMER`
sets `FATAL` to 2 and emits `FATAL(2)`; the head has been popped, nothing else changes. (No run reaches this:
WellBehavedHostNeverHalts and EveryStepKeepsEngineInv.) -/
def Obligations.SndTimerLookupMissIsFatal : Prop :=
  ∀ (s : State) (now : Time) (e : ChainEntry) (rest : List ChainEntry), s.fatal = 0 →
    s.chain = e :: rest → s.curAck ≤ e.seq → (∀ p ∈ s.window, seqOf s.cfg p ≠ e.seq) →
    exec (.sndTimer now) s =
      .next { s with chain := rest, fatal := 2, actions := s.actions ++ [.fatal .lookupMiss] }

/-- 43_timer_chain.md R153, R156, R157: on a stale entry `SND_TIMER` removes it and sends nothing; `WCAP` is not reset;
the timer is armed for the new head if there is one, saturating at 0, and nothing is emitted otherwise. -/
def Obligations.SndTimerDiscardsStaleEntry : Prop :=
  ∀ (s : State) (now : Time) (e : ChainEntry) (rest : List ChainEntry), s.fatal = 0 →
    s.chain = e :: rest → e.seq < s.curAck →
    (rest = [] → exec (.sndTimer now) s = .next { s with chain := [] }) ∧
    ∀ h tl, rest = h :: tl → ∃ d : Time, d.toNat = h.expiry.toNat - now.toNat ∧
      exec (.sndTimer now) s = .next
        { s with chain := rest, actions := s.actions ++ [.timerArm d], tmr := some (now.toNat + d.toNat) }

/-- 43_timer_chain.md R152: an entry leaves the chain only by `cancel` of a fast retransmit of its own number, by being
the head when `SND_TIMER` fires, or by a sender lifecycle command; in particular no acknowledgment removes one. -/
def Obligations.ChainEntriesLeaveLazily : Prop :=
  ∀ (i : Instr) (s t : State) (e : ChainEntry), exec i s = .next t → e ∈ s.chain → e ∉ t.chain →
    i = .sndInit ∨ i = .sndFinal ∨ (∃ now, i = .sndTimer now ∧ s.chain.head? = some e) ∨
    ∃ now pkt, i = .sndPkt now pkt ∧ e.seq = ackOf s.cfg pkt ∧ dupGet s.dupcnt e.seq = 2 ∧
      ∃ p ∈ s.window, seqOf s.cfg p = e.seq

/-- 10_state.md R38 (a): while the host's clock does not run backwards and `now + TIMEOUT` fits in 64 bits, deadlines
never decrease from head to tail. -/
def Obligations.DeadlinesStayOrdered : Prop :=
  ∀ (last : Nat) (i : Instr) (s t : State), DeadlinesOk last s → ClockOk last i s → exec i s = .next t →
    DeadlinesOk (match nowOf i with | some now => now.toNat | none => last) t

/-- 10_state.md R39: from every state that meets the engine's invariant, while the host's clock does not run backwards and
`now + TIMEOUT` fits in 64 bits, a step keeps the timer armed, while the chain is non-empty, for no earlier than the
head's deadline and no later than the larger of it and the last clock reading. -/
def Obligations.TimerServesEarliestDeadline : Prop :=
  ∀ (last : Nat) (s t : State), EngineInv s → TimerServesHead last s →
    (∀ d rest i, s.input = .command d :: rest → decode s.cfg d = .ok i → ClockOk last i s) →
    step s = .next t → TimerServesHead (clockAfter last s) t

/-! ### Congestion controller -/

/-- 44_congestion.md R165 to R168, R170: the three micro-ops write only `WCAP`, read only `WCAP`, and do nothing in mode
`Fixed`. -/
def Obligations.AimdUpdatesCapacityOnly : Prop :=
  ∀ s : State,
    (∀ base ub, s.cfg.cc = .aimd base ub →
      aimdIncrease s = { s with wcap := min ub (if s.wcap < ub then 2 * s.wcap else s.wcap + 1) } ∧
      aimdHalve s = { s with wcap := max 1 (s.wcap / 2) } ∧
      aimdReset s = { s with wcap := base }) ∧
    ∀ c, s.cfg.cc = .fixed c → aimdIncrease s = s ∧ aimdHalve s = s ∧ aimdReset s = s

/-! ### ACK processor -/

/-- 60_exceptions.md R211, R212, R213, 45_ack_processor.md R176, R180: a corrupt packet, and a valid one whose ack number
is above `HIGHEST_SENT + 1` (no wrap-around), is dropped: no state change and no action. -/
def Obligations.SndPktDropsCorruptAndInvalid : Prop :=
  ∀ (s : State) (now : Time) (pkt : Packet), s.fatal = 0 →
    (validate s.cfg pkt = false ∨ s.highestSent.toNat + 1 < (ackOf s.cfg pkt).toNat) →
    exec (.sndPkt now pkt) s = .next s

/-- 45_ack_processor.md R176 to R180, 42_send_window.md R142, R143, 43_timer_chain.md R151, 44_congestion.md R166, R167:
what an accepted ack does, in the order of R179. The third ack of a value clears its count, resends the window entry of
that number and cancels its deadline if there is one, and halves `WCAP`; then, if the ack is above `CUR_ACK`, the entries
below it leave the window and the backlog refills the room the halved or unhalved capacity leaves; last, `WCAP` is
raised. The kept chain entries are as they were; the timer is as `cancel` and the first refilled packet leave it
(10_state.md R44); nothing else changes. The expiry is `now + TIMEOUT` where that fits in 64 bits (elsewhere a free value and its
counter moves on, log 7; the timer's deadline does not wrap, log 8). The counts are stated of a canonical map (log 9). -/
def Obligations.SndPktProcessesAcceptedAck : Prop :=
  ∀ (s : State) (now : Time) (pkt : Packet), s.fatal = 0 → validate s.cfg pkt = true →
    (ackOf s.cfg pkt).toNat ≤ s.highestSent.toNat + 1 →
    ∃ t, exec (.sndPkt now pkt) s = .next t ∧
      let a := ackOf s.cfg pkt
      let third := dupGet s.dupcnt a = 2
      let cap := if third then halvedCap s.cfg.cc s.wcap else s.wcap
      let resent := if third then (s.window.filter fun p => seqOf s.cfg p == a).take 1 else []
      let chain := if resent = [] then s.chain else s.chain.eraseP fun e => e.seq == a
      let kept := if s.curAck < a then s.window.filter fun p => decide (a ≤ seqOf s.cfg p) else s.window
      let out := if s.curAck < a then s.backlog.take (cap - kept.length) else []
      (DupWf s.dupcnt → DupWf t.dupcnt ∧ ∀ b, dupGet t.dupcnt b =
        if b = a then (if third then 0 else dupGet s.dupcnt a + 1) else dupGet s.dupcnt b) ∧
      t.curAck = (if s.curAck < a then a else s.curAck) ∧
      t.window = kept ++ out ∧ t.backlog = s.backlog.drop out.length ∧
      (∃ new, t.chain = chain ++ new ∧ new.map ChainEntry.seq = seqs s.cfg out ∧
        (DeadlineFits now s → new = out.map fun p => ⟨seqOf s.cfg p, now + s.cfg.timeout⟩)) ∧
      t.tmr = (if chain = [] ∧ out ≠ [] then some (now.toNat + s.cfg.timeout.toNat)
        else if resent = [] then s.tmr else cancelTimer s.chain a now s.tmr) ∧
      (DeadlineFits now s → t.freeCtr = s.freeCtr) ∧
      t.highestSent = highestOf s.cfg s.highestSent out ∧
      t.wcap = increasedCap s.cfg.cc cap ∧
      t.actions = s.actions ++ resent.map .toChannel
        ++ (if resent = [] then [] else cancelActions s.chain a now)
        ++ sendActions s.cfg (!chain.isEmpty) out ∧
      t.seq = s.seq ∧ t.expected = s.expected ∧ t.rbuf = s.rbuf ∧ t.fatal = s.fatal ∧ t.cfg = s.cfg ∧
      t.input = s.input

/-- 45_ack_processor.md R178, 70_reset_and_hazards.md R253: after a fast retransmit the packet is still in the window and
has no chain entry: its deadline is cancelled and none is created. -/
def Obligations.FastRetransmitLeavesNoDeadline : Prop :=
  ∀ (s t : State) (now : Time) (pkt p : Packet), EngineInv s → s.fatal = 0 → validate s.cfg pkt = true →
    (ackOf s.cfg pkt).toNat ≤ s.highestSent.toNat + 1 → dupGet s.dupcnt (ackOf s.cfg pkt) = 2 →
    p ∈ s.window → seqOf s.cfg p = ackOf s.cfg pkt → exec (.sndPkt now pkt) s = .next t →
    p ∈ t.window ∧ (∀ e ∈ t.chain, e.seq ≠ ackOf s.cfg pkt) ∧ Action.toChannel p ∈ t.actions.drop s.actions.length

/-! ### Reorder buffer -/

/-- 46_reorder_buffer.md R186: a corrupt data packet is dropped: no ack, no action, no state change. It is the only case
in which `RCV_PKT` emits nothing: any other packet is answered, last of all, by one ack with the new `EXPECTED` (R191),
and a halted engine answers with its refusal. -/
def Obligations.RcvPktAcksUnlessCorrupt : Prop :=
  ∀ (s : State) (pkt : Packet),
    (s.fatal = 0 → validate s.cfg pkt = false → exec (.rcvPkt pkt) s = .next s) ∧
    (s.fatal = 0 → validate s.cfg pkt = true → ∃ (t : State) (before : List Action), exec (.rcvPkt pkt) s = .next t ∧
      t.actions = s.actions ++ before ++ [.toChannel (encodePacket s.cfg [] 0 t.expected)] ∧
      ∀ a ∈ before, ∃ data, a = .toApp data) ∧
    (s.fatal ≠ 0 → exec (.rcvPkt pkt) s = .next { s with actions := s.actions ++ [.err .halted] })

/-- 46_reorder_buffer.md R185, R187, R190, R191: the expected packet is delivered first, then the longest run of buffered
packets that continues it, one `TO_APP` each; then one ack with the new `EXPECTED` is sent; only `EXPECTED` and `RBUF`
change. -/
def Obligations.RcvPktInOrderDeliversRun : Prop :=
  ∀ (s : State) (pkt : Packet), s.fatal = 0 → validate s.cfg pkt = true → seqOf s.cfg pkt = s.expected →
    s.expected ≠ 0xFFFFFFFF →
    ∃ m, ∃ hm : m ≤ s.rbuf.length,
      (∀ k (hk : k < m), seqOf s.cfg s.rbuf[k] = s.expected + BitVec.ofNat 32 (k + 1)) ∧
      (∀ h : m < s.rbuf.length, seqOf s.cfg s.rbuf[m] ≠ s.expected + BitVec.ofNat 32 (m + 1)) ∧
      exec (.rcvPkt pkt) s = .next
        { s with
          expected := s.expected + BitVec.ofNat 32 (m + 1)
          rbuf := s.rbuf.drop m
          actions := s.actions ++ [.toApp (payloadOf s.cfg pkt)]
            ++ (s.rbuf.take m).map (fun p => .toApp (payloadOf s.cfg p))
            ++ [.toChannel (encodePacket s.cfg [] 0 (s.expected + BitVec.ofNat 32 (m + 1)))] }

/-- 46_reorder_buffer.md R188, R191, 10_state.md R40: a packet ahead of `EXPECTED` with a number not yet buffered is
inserted, whole, so that the buffer stays ascending; nothing is delivered, and the ack repeats `EXPECTED`. -/
def Obligations.RcvPktAheadIsBuffered : Prop :=
  ∀ (s : State) (pkt : Packet), s.fatal = 0 → ReceiverOk s → validate s.cfg pkt = true →
    s.expected < seqOf s.cfg pkt → seqOf s.cfg pkt ≠ 0xFFFFFFFF → seqOf s.cfg pkt ∉ seqs s.cfg s.rbuf →
    ∃ lower higher, s.rbuf = lower ++ higher ∧
      (seqs s.cfg (lower ++ [pkt] ++ higher)).Pairwise (· < ·) ∧
      exec (.rcvPkt pkt) s = .next
        { s with
          rbuf := lower ++ [pkt] ++ higher
          actions := s.actions ++ [.toChannel (encodePacket s.cfg [] 0 s.expected)] }

/-- 46_reorder_buffer.md R188, R189, R191, R192, 60_exceptions.md R214: a valid packet that is stale, already buffered, or
numbered 0xFFFFFFFF is neither buffered nor delivered, and the ack with `EXPECTED` is still sent. -/
def Obligations.RcvPktSkippedIsAcked : Prop :=
  ∀ (s : State) (pkt : Packet), s.fatal = 0 → ReceiverOk s → validate s.cfg pkt = true →
    (seqOf s.cfg pkt < s.expected ∨ seqOf s.cfg pkt ∈ seqs s.cfg s.rbuf ∨ seqOf s.cfg pkt = 0xFFFFFFFF) →
    exec (.rcvPkt pkt) s = .next
      { s with actions := s.actions ++ [.toChannel (encodePacket s.cfg [] 0 s.expected)] }

/-- 46_reorder_buffer.md R193, S3: whatever the order in which the packets of a contiguous run arrive, and with
duplicates, corrupt packets and stale packets among them, the application is given exactly the payloads of the run in
sequence order, and the buffer ends empty. -/
def Obligations.ArrivalOrderDoesNotMatter : Prop :=
  ∀ (s : State) (ps arrivals : List Packet), s.fatal = 0 → s.rbuf = [] → 1 ≤ s.expected.toNat →
    s.expected.toNat + ps.length ≤ 0xFFFFFFFF →
    (∀ i (h : i < ps.length), validate s.cfg ps[i] = true ∧ (seqOf s.cfg ps[i]).toNat = s.expected.toNat + i) →
    (∀ p ∈ arrivals, p ∈ ps ∨ validate s.cfg p = false ∨ (seqOf s.cfg p).toNat < s.expected.toNat) →
    (∀ p ∈ ps, p ∈ arrivals) →
    ∃ t, receiveAll arrivals s = .next t ∧ t.rbuf = [] ∧ t.expected.toNat = s.expected.toNat + ps.length ∧
      delivered t = delivered s ++ ps.flatMap (payloadOf s.cfg)

/-- 41_segmenter.md R134 with 46_reorder_buffer.md R193: the packets `SND_MSG` makes of a message, brought by the channel
to a receiver that expects the first of them, in any order, with repetitions and corrupt packets among them, reproduce
the message byte for byte. -/
def Obligations.MessageSurvivesTheChannel : Prop :=
  ∀ (snd rcv : State) (data : Message) (arrivals : List Packet), snd.cfg.WF → rcv.cfg = snd.cfg → rcv.fatal = 0 →
    rcv.rbuf = [] → rcv.expected.toNat = snd.seq.toNat + 1 →
    snd.seq.toNat + packetCount snd.cfg data.length ≤ Config.lastSeq →
    (∀ p ∈ arrivals, p ∈ split snd.cfg snd.seq data ∨ validate snd.cfg p = false) →
    (∀ p ∈ split snd.cfg snd.seq data, p ∈ arrivals) →
    ∃ t, receiveAll arrivals rcv = .next t ∧ t.rbuf = [] ∧ delivered t = delivered rcv ++ data

/-! ### The whole machine -/

/-- The invariant holds after reset, for every legal configuration. -/
def Obligations.ResetMeetsEngineInv : Prop :=
  (∀ (cfg : Cfg) (input : List PortEvent), cfg.WF → EngineInv { State.ofCfg cfg with input := input }) ∧
  EngineInv State.reset

/-- 10_state.md R36 (b), (c), (d), R37, R38 (b), (c), R39, R40, 44_congestion.md R169, 43_timer_chain.md R154, R155: from
every state that meets the engine's invariant, whatever the host presents, a step gives a state that meets it. That the
timer is armed iff the chain is non-empty R39 says with a well-behaved host; for every other host it is the model's, by
which every `SND_TIMER` disarms the timer, a premature or refused one too (log 6). -/
def Obligations.EveryStepKeepsEngineInv : Prop :=
  ∀ s t : State, EngineInv s → step s = .next t → EngineInv t

/-- 10_state.md R36 (a), (e), (f): as long as no message bypasses a waiting backlog, window and backlog together ascend,
everything in the window is unacknowledged, and nothing in the backlog was sent: every step keeps that, in either mode.
In mode `Fixed` the backlog moreover waits only while the window is full, so that no message can bypass it. Both hold
after reset. -/
def Obligations.OrderHoldsWithoutBypass : Prop :=
  (∀ s t : State, EngineInv s → OrderOk s →
    (∀ d rest i, s.input = .command d :: rest → decode s.cfg d = .ok i → NoBypass i s) →
    step s = .next t → OrderOk t) ∧
  (∀ (s t : State) (c : Nat), s.cfg.cc = .fixed c → EngineInv s → OrderOk s → FullOk s → step s = .next t →
    OrderOk t ∧ FullOk t) ∧
  ∀ (cfg : Cfg) (input : List PortEvent),
    OrderOk { State.ofCfg cfg with input := input } ∧ FullOk { State.ofCfg cfg with input := input }

/-- 10_state.md R36 (a) against 42_send_window.md R142: in mode `Aimd` the operations reach a state whose window holds a
packet numbered below `CUR_ACK` (log 16). A new message bypasses the backlog (70_reset_and_hazards.md R252), and an ack
of its packet also covers the backlog packet that is only then sent. -/
def Obligations.AimdBypassReachesAckedPacketInWindow : Prop :=
  ∃ s, Reachable { pktSize := 12, timeout := 30, cc := .aimd 2 10, byteOrder := .le } s ∧
    ∃ p ∈ s.window, seqOf s.cfg p < s.curAck

/-- 10_state.md R41: from every state that meets the engine's invariant, no command but the sender's lifecycle commands
lowers `SEQ`, `CUR_ACK` or `HIGHEST_SENT`, and no command but the receiver's lowers `EXPECTED`. -/
def Obligations.CountersNeverDecrease : Prop :=
  ∀ (i : Instr) (s t : State), EngineInv s → exec i s = .next t →
    (i ≠ .sndInit → i ≠ .sndFinal →
      s.seq.toNat ≤ t.seq.toNat ∧ s.curAck.toNat ≤ t.curAck.toNat ∧ s.highestSent.toNat ≤ t.highestSent.toNat) ∧
    (i ≠ .rcvInit → i ≠ .rcvFinal → s.expected.toNat ≤ t.expected.toNat)

/-- 43_timer_chain.md R154, 10_state.md R44, 70_reset_and_hazards.md R244 (c): with a host that issues `SND_TIMER` only
when the timer the engine armed has run out, no step of a running engine halts it. -/
def Obligations.WellBehavedHostNeverHalts : Prop :=
  ∀ s t : State, EngineInv s → s.fatal = 0 →
    (∀ d rest i, s.input = .command d :: rest → decode s.cfg d = .ok i → FiringOk i s) →
    step s = .next t → t.fatal = 0

/-- 10_state.md R47, the `w` columns: what each command leaves unchanged. No command changes the configuration or the
pending input; past actions stay. -/
def Obligations.CommandsWriteOnlyTheirColumns : Prop :=
  ∀ (i : Instr) (s t : State), exec i s = .next t →
    t.cfg = s.cfg ∧ t.input = s.input ∧ (∃ new, t.actions = s.actions ++ new) ∧
    (halfOf i = .none → t = { s with actions := t.actions }) ∧
    (halfOf i = .sender → SameReceiver s t) ∧
    (halfOf i = .receiver → SameSender s t) ∧
    ((∀ now, i ≠ .sndTimer now) → t.fatal = s.fatal) ∧
    (∀ now data, i = .sndMsg now data → t.curAck = s.curAck ∧ t.wcap = s.wcap ∧ t.dupcnt = s.dupcnt) ∧
    (∀ now pkt, i = .sndPkt now pkt → t.seq = s.seq) ∧
    ∀ now, i = .sndTimer now → t.seq = s.seq ∧ t.curAck = s.curAck ∧ t.highestSent = s.highestSent ∧
      t.window = s.window ∧ t.backlog = s.backlog ∧ t.dupcnt = s.dupcnt

/-- 10_state.md R47, last sentence: no command of one half reads or writes the other half. Run in two states that agree
on the configuration, on `FATAL` and on the command's own half, a command leaves that half equal and emits the same
actions, whatever the other half holds; a codec command emits the same actions whatever both hold. -/
def Obligations.HalvesDoNotInteract : Prop :=
  ∀ (i : Instr) (s s' t t' : State), s'.cfg = s.cfg → s'.fatal = s.fatal →
    (halfOf i = .sender → SameSender s s') → (halfOf i = .receiver → SameReceiver s s') →
    exec i s = .next t → exec i s' = .next t' →
    (halfOf i = .sender → SameSender t t' ∧ SameReceiver s' t') ∧
    (halfOf i = .receiver → SameReceiver t t' ∧ SameSender s' t') ∧
    t'.fatal = t.fatal ∧ ∃ new, t.actions = s.actions ++ new ∧ t'.actions = s'.actions ++ new

/-- 10_state.md R36 (a), 42_send_window.md R142: a packet numbered below `CUR_ACK` comes into the window only out of the
backlog, by the refill of an ack that raises `CUR_ACK` past it. Every step that leaves one in the window is such an ack,
or found it there and left `CUR_ACK` as it was. (Where R36 (a) fails, it fails by such packets alone, log 16.) -/
def Obligations.AckedPacketsEnterWindowOnlyFromBacklog : Prop :=
  ∀ s t : State, EngineInv s → step s = .next t → ∀ p ∈ t.window, seqOf t.cfg p < t.curAck →
    (s.curAck < t.curAck ∧ p ∈ s.backlog) ∨
    (t.curAck = s.curAck ∧ p ∈ s.window ∧ seqOf s.cfg p < s.curAck)
end

