-- ==== Sys2Proof/Laws/State.lean ====
section
/-! SUPPORT. One lemma per field per update: what each shared operation leaves in each field of the state. -/

namespace Sys2Proof.Machine

@[simp] theorem deadline_emit (now : Time) (a : Action) (s : State) : deadline now (emit a s) = deadline now s := rfl

@[simp] theorem nextFree_emit (now : Time) (a : Action) (s : State) : nextFree now (emit a s) = nextFree now s := rfl

@[simp] theorem timerArmed_emit (a : Action) (s : State) : timerArmed (emit a s) = timerArmed s := rfl

/-! ### emit, refuse, fatalStop, drop -/

@[simp] theorem emit_cfg (a : Action) (s : State) : (emit a s).cfg = s.cfg := rfl
@[simp] theorem emit_seq (a : Action) (s : State) : (emit a s).seq = s.seq := rfl
@[simp] theorem emit_curAck (a : Action) (s : State) : (emit a s).curAck = s.curAck := rfl
@[simp] theorem emit_highestSent (a : Action) (s : State) : (emit a s).highestSent = s.highestSent := rfl
@[simp] theorem emit_wcap (a : Action) (s : State) : (emit a s).wcap = s.wcap := rfl
@[simp] theorem emit_window (a : Action) (s : State) : (emit a s).window = s.window := rfl
@[simp] theorem emit_backlog (a : Action) (s : State) : (emit a s).backlog = s.backlog := rfl
@[simp] theorem emit_chain (a : Action) (s : State) : (emit a s).chain = s.chain := rfl
@[simp] theorem emit_dupcnt (a : Action) (s : State) : (emit a s).dupcnt = s.dupcnt := rfl
@[simp] theorem emit_expected (a : Action) (s : State) : (emit a s).expected = s.expected := rfl
@[simp] theorem emit_rbuf (a : Action) (s : State) : (emit a s).rbuf = s.rbuf := rfl
@[simp] theorem emit_fatal (a : Action) (s : State) : (emit a s).fatal = s.fatal := rfl
@[simp] theorem emit_tmr (a : Action) (s : State) : (emit a s).tmr = s.tmr := rfl
@[simp] theorem emit_input (a : Action) (s : State) : (emit a s).input = s.input := rfl
@[simp] theorem emit_actions (a : Action) (s : State) : (emit a s).actions = s.actions ++ [a] := rfl
@[simp] theorem emit_freeCtr (a : Action) (s : State) : (emit a s).freeCtr = s.freeCtr := rfl
@[simp] theorem refuse_cfg (r : ErrReason) (s : State) : (refuse r s).cfg = s.cfg := rfl
@[simp] theorem refuse_seq (r : ErrReason) (s : State) : (refuse r s).seq = s.seq := rfl
@[simp] theorem refuse_curAck (r : ErrReason) (s : State) : (refuse r s).curAck = s.curAck := rfl
@[simp] theorem refuse_highestSent (r : ErrReason) (s : State) : (refuse r s).highestSent = s.highestSent := rfl
@[simp] theorem refuse_wcap (r : ErrReason) (s : State) : (refuse r s).wcap = s.wcap := rfl
@[simp] theorem refuse_window (r : ErrReason) (s : State) : (refuse r s).window = s.window := rfl
@[simp] theorem refuse_backlog (r : ErrReason) (s : State) : (refuse r s).backlog = s.backlog := rfl
@[simp] theorem refuse_chain (r : ErrReason) (s : State) : (refuse r s).chain = s.chain := rfl
@[simp] theorem refuse_dupcnt (r : ErrReason) (s : State) : (refuse r s).dupcnt = s.dupcnt := rfl
@[simp] theorem refuse_expected (r : ErrReason) (s : State) : (refuse r s).expected = s.expected := rfl
@[simp] theorem refuse_rbuf (r : ErrReason) (s : State) : (refuse r s).rbuf = s.rbuf := rfl
@[simp] theorem refuse_fatal (r : ErrReason) (s : State) : (refuse r s).fatal = s.fatal := rfl
@[simp] theorem refuse_tmr (r : ErrReason) (s : State) : (refuse r s).tmr = s.tmr := rfl
@[simp] theorem refuse_input (r : ErrReason) (s : State) : (refuse r s).input = s.input := rfl
@[simp] theorem refuse_actions (r : ErrReason) (s : State) : (refuse r s).actions = s.actions ++ [.err r] := rfl
@[simp] theorem refuse_freeCtr (r : ErrReason) (s : State) : (refuse r s).freeCtr = s.freeCtr := rfl
@[simp] theorem fatalStop_cfg (c : FatalCode) (s : State) : (fatalStop c s).cfg = s.cfg := rfl
@[simp] theorem fatalStop_seq (c : FatalCode) (s : State) : (fatalStop c s).seq = s.seq := rfl
@[simp] theorem fatalStop_curAck (c : FatalCode) (s : State) : (fatalStop c s).curAck = s.curAck := rfl
@[simp] theorem fatalStop_highestSent (c : FatalCode) (s : State) : (fatalStop c s).highestSent = s.highestSent := rfl
@[simp] theorem fatalStop_wcap (c : FatalCode) (s : State) : (fatalStop c s).wcap = s.wcap := rfl
@[simp] theorem fatalStop_window (c : FatalCode) (s : State) : (fatalStop c s).window = s.window := rfl
@[simp] theorem fatalStop_backlog (c : FatalCode) (s : State) : (fatalStop c s).backlog = s.backlog := rfl
@[simp] theorem fatalStop_chain (c : FatalCode) (s : State) : (fatalStop c s).chain = s.chain := rfl
@[simp] theorem fatalStop_dupcnt (c : FatalCode) (s : State) : (fatalStop c s).dupcnt = s.dupcnt := rfl
@[simp] theorem fatalStop_expected (c : FatalCode) (s : State) : (fatalStop c s).expected = s.expected := rfl
@[simp] theorem fatalStop_rbuf (c : FatalCode) (s : State) : (fatalStop c s).rbuf = s.rbuf := rfl
@[simp] theorem fatalStop_fatal (c : FatalCode) (s : State) :
    (fatalStop c s).fatal = if s.fatal = 0 then c.code else s.fatal := rfl
@[simp] theorem fatalStop_tmr (c : FatalCode) (s : State) : (fatalStop c s).tmr = s.tmr := rfl
@[simp] theorem fatalStop_input (c : FatalCode) (s : State) : (fatalStop c s).input = s.input := rfl
@[simp] theorem fatalStop_actions (c : FatalCode) (s : State) : (fatalStop c s).actions = s.actions ++ [.fatal c] := rfl
@[simp] theorem fatalStop_freeCtr (c : FatalCode) (s : State) : (fatalStop c s).freeCtr = s.freeCtr := rfl
@[simp] theorem drop_eq (s : State) : drop s = s := rfl

/-! ### armTimer, disarmTimer -/

@[simp] theorem armTimer_cfg (now d : Time) (s : State) : (armTimer now d s).cfg = s.cfg := rfl
@[simp] theorem armTimer_seq (now d : Time) (s : State) : (armTimer now d s).seq = s.seq := rfl
@[simp] theorem armTimer_curAck (now d : Time) (s : State) : (armTimer now d s).curAck = s.curAck := rfl
@[simp] theorem armTimer_highestSent (now d : Time) (s : State) : (armTimer now d s).highestSent = s.highestSent := rfl
@[simp] theorem armTimer_wcap (now d : Time) (s : State) : (armTimer now d s).wcap = s.wcap := rfl
@[simp] theorem armTimer_window (now d : Time) (s : State) : (armTimer now d s).window = s.window := rfl
@[simp] theorem armTimer_backlog (now d : Time) (s : State) : (armTimer now d s).backlog = s.backlog := rfl
@[simp] theorem armTimer_chain (now d : Time) (s : State) : (armTimer now d s).chain = s.chain := rfl
@[simp] theorem armTimer_dupcnt (now d : Time) (s : State) : (armTimer now d s).dupcnt = s.dupcnt := rfl
@[simp] theorem armTimer_expected (now d : Time) (s : State) : (armTimer now d s).expected = s.expected := rfl
@[simp] theorem armTimer_rbuf (now d : Time) (s : State) : (armTimer now d s).rbuf = s.rbuf := rfl
@[simp] theorem armTimer_fatal (now d : Time) (s : State) : (armTimer now d s).fatal = s.fatal := rfl
@[simp] theorem armTimer_tmr (now d : Time) (s : State) : (armTimer now d s).tmr = some (now.toNat + d.toNat) := rfl
@[simp] theorem armTimer_input (now d : Time) (s : State) : (armTimer now d s).input = s.input := rfl
@[simp] theorem armTimer_actions (now d : Time) (s : State) : (armTimer now d s).actions = s.actions ++ [.timerArm d] := rfl
@[simp] theorem armTimer_freeCtr (now d : Time) (s : State) : (armTimer now d s).freeCtr = s.freeCtr := rfl
@[simp] theorem disarmTimer_cfg (s : State) : (disarmTimer s).cfg = s.cfg := rfl
@[simp] theorem disarmTimer_seq (s : State) : (disarmTimer s).seq = s.seq := rfl
@[simp] theorem disarmTimer_curAck (s : State) : (disarmTimer s).curAck = s.curAck := rfl
@[simp] theorem disarmTimer_highestSent (s : State) : (disarmTimer s).highestSent = s.highestSent := rfl
@[simp] theorem disarmTimer_wcap (s : State) : (disarmTimer s).wcap = s.wcap := rfl
@[simp] theorem disarmTimer_window (s : State) : (disarmTimer s).window = s.window := rfl
@[simp] theorem disarmTimer_backlog (s : State) : (disarmTimer s).backlog = s.backlog := rfl
@[simp] theorem disarmTimer_chain (s : State) : (disarmTimer s).chain = s.chain := rfl
@[simp] theorem disarmTimer_dupcnt (s : State) : (disarmTimer s).dupcnt = s.dupcnt := rfl
@[simp] theorem disarmTimer_expected (s : State) : (disarmTimer s).expected = s.expected := rfl
@[simp] theorem disarmTimer_rbuf (s : State) : (disarmTimer s).rbuf = s.rbuf := rfl
@[simp] theorem disarmTimer_fatal (s : State) : (disarmTimer s).fatal = s.fatal := rfl
@[simp] theorem disarmTimer_tmr (s : State) : (disarmTimer s).tmr = none := rfl
@[simp] theorem disarmTimer_input (s : State) : (disarmTimer s).input = s.input := rfl
@[simp] theorem disarmTimer_actions (s : State) : (disarmTimer s).actions = s.actions ++ [.timerDisarm] := rfl
@[simp] theorem disarmTimer_freeCtr (s : State) : (disarmTimer s).freeCtr = s.freeCtr := rfl

/-! ### pushDeadline, hardwareReset, pushCommand -/

@[simp] theorem pushDeadline_cfg (q : Seq) (now : Time) (s : State) : (pushDeadline q now s).cfg = s.cfg := rfl
@[simp] theorem pushDeadline_seq (q : Seq) (now : Time) (s : State) : (pushDeadline q now s).seq = s.seq := rfl
@[simp] theorem pushDeadline_curAck (q : Seq) (now : Time) (s : State) : (pushDeadline q now s).curAck = s.curAck := rfl
@[simp] theorem pushDeadline_highestSent (q : Seq) (now : Time) (s : State) : (pushDeadline q now s).highestSent = s.highestSent := rfl
@[simp] theorem pushDeadline_wcap (q : Seq) (now : Time) (s : State) : (pushDeadline q now s).wcap = s.wcap := rfl
@[simp] theorem pushDeadline_window (q : Seq) (now : Time) (s : State) : (pushDeadline q now s).window = s.window := rfl
@[simp] theorem pushDeadline_backlog (q : Seq) (now : Time) (s : State) : (pushDeadline q now s).backlog = s.backlog := rfl
@[simp] theorem pushDeadline_chain (q : Seq) (now : Time) (s : State) :
    (pushDeadline q now s).chain = s.chain ++ [⟨q, deadline now s⟩] := rfl
@[simp] theorem pushDeadline_dupcnt (q : Seq) (now : Time) (s : State) : (pushDeadline q now s).dupcnt = s.dupcnt := rfl
@[simp] theorem pushDeadline_expected (q : Seq) (now : Time) (s : State) : (pushDeadline q now s).expected = s.expected := rfl
@[simp] theorem pushDeadline_rbuf (q : Seq) (now : Time) (s : State) : (pushDeadline q now s).rbuf = s.rbuf := rfl
@[simp] theorem pushDeadline_fatal (q : Seq) (now : Time) (s : State) : (pushDeadline q now s).fatal = s.fatal := rfl
@[simp] theorem pushDeadline_tmr (q : Seq) (now : Time) (s : State) : (pushDeadline q now s).tmr = s.tmr := rfl
@[simp] theorem pushDeadline_input (q : Seq) (now : Time) (s : State) : (pushDeadline q now s).input = s.input := rfl
@[simp] theorem pushDeadline_actions (q : Seq) (now : Time) (s : State) : (pushDeadline q now s).actions = s.actions := rfl
@[simp] theorem pushDeadline_freeCtr (q : Seq) (now : Time) (s : State) : (pushDeadline q now s).freeCtr = nextFree now s := rfl
@[simp] theorem hardwareReset_cfg (s : State) : (hardwareReset s).cfg = s.cfg := rfl
@[simp] theorem hardwareReset_seq (s : State) : (hardwareReset s).seq = 0 := rfl
@[simp] theorem hardwareReset_curAck (s : State) : (hardwareReset s).curAck = 1 := rfl
@[simp] theorem hardwareReset_highestSent (s : State) : (hardwareReset s).highestSent = 0 := rfl
@[simp] theorem hardwareReset_wcap (s : State) : (hardwareReset s).wcap = s.cfg.cc.initialCap := rfl
@[simp] theorem hardwareReset_window (s : State) : (hardwareReset s).window = [] := rfl
@[simp] theorem hardwareReset_backlog (s : State) : (hardwareReset s).backlog = [] := rfl
@[simp] theorem hardwareReset_chain (s : State) : (hardwareReset s).chain = [] := rfl
@[simp] theorem hardwareReset_dupcnt (s : State) : (hardwareReset s).dupcnt = [] := rfl
@[simp] theorem hardwareReset_expected (s : State) : (hardwareReset s).expected = 1 := rfl
@[simp] theorem hardwareReset_rbuf (s : State) : (hardwareReset s).rbuf = [] := rfl
@[simp] theorem hardwareReset_fatal (s : State) : (hardwareReset s).fatal = 0 := rfl
@[simp] theorem hardwareReset_tmr (s : State) : (hardwareReset s).tmr = none := rfl
@[simp] theorem hardwareReset_input (s : State) : (hardwareReset s).input = s.input := rfl
@[simp] theorem hardwareReset_actions (s : State) : (hardwareReset s).actions = s.actions := rfl
@[simp] theorem hardwareReset_freeCtr (s : State) : (hardwareReset s).freeCtr = s.freeCtr := rfl
@[simp] theorem pushCommand_cfg (d : List Byte) (s : State) : (pushCommand d s).cfg = s.cfg := rfl
@[simp] theorem pushCommand_seq (d : List Byte) (s : State) : (pushCommand d s).seq = s.seq := rfl
@[simp] theorem pushCommand_curAck (d : List Byte) (s : State) : (pushCommand d s).curAck = s.curAck := rfl
@[simp] theorem pushCommand_highestSent (d : List Byte) (s : State) : (pushCommand d s).highestSent = s.highestSent := rfl
@[simp] theorem pushCommand_wcap (d : List Byte) (s : State) : (pushCommand d s).wcap = s.wcap := rfl
@[simp] theorem pushCommand_window (d : List Byte) (s : State) : (pushCommand d s).window = s.window := rfl
@[simp] theorem pushCommand_backlog (d : List Byte) (s : State) : (pushCommand d s).backlog = s.backlog := rfl
@[simp] theorem pushCommand_chain (d : List Byte) (s : State) : (pushCommand d s).chain = s.chain := rfl
@[simp] theorem pushCommand_dupcnt (d : List Byte) (s : State) : (pushCommand d s).dupcnt = s.dupcnt := rfl
@[simp] theorem pushCommand_expected (d : List Byte) (s : State) : (pushCommand d s).expected = s.expected := rfl
@[simp] theorem pushCommand_rbuf (d : List Byte) (s : State) : (pushCommand d s).rbuf = s.rbuf := rfl
@[simp] theorem pushCommand_fatal (d : List Byte) (s : State) : (pushCommand d s).fatal = s.fatal := rfl
@[simp] theorem pushCommand_tmr (d : List Byte) (s : State) : (pushCommand d s).tmr = s.tmr := rfl
@[simp] theorem pushCommand_input (d : List Byte) (s : State) : (pushCommand d s).input = .command d :: s.input := rfl
@[simp] theorem pushCommand_actions (d : List Byte) (s : State) : (pushCommand d s).actions = s.actions := rfl
@[simp] theorem pushCommand_freeCtr (d : List Byte) (s : State) : (pushCommand d s).freeCtr = s.freeCtr := rfl

/-! ### issue -/

@[simp] theorem issue_cfg (i : Instr) (s : State) : (issue i s).cfg = s.cfg := by cases i <;> rfl
@[simp] theorem issue_seq (i : Instr) (s : State) : (issue i s).seq = s.seq := by cases i <;> rfl
@[simp] theorem issue_curAck (i : Instr) (s : State) : (issue i s).curAck = s.curAck := by cases i <;> rfl
@[simp] theorem issue_highestSent (i : Instr) (s : State) : (issue i s).highestSent = s.highestSent := by cases i <;> rfl
@[simp] theorem issue_wcap (i : Instr) (s : State) : (issue i s).wcap = s.wcap := by cases i <;> rfl
@[simp] theorem issue_window (i : Instr) (s : State) : (issue i s).window = s.window := by cases i <;> rfl
@[simp] theorem issue_backlog (i : Instr) (s : State) : (issue i s).backlog = s.backlog := by cases i <;> rfl
@[simp] theorem issue_chain (i : Instr) (s : State) : (issue i s).chain = s.chain := by cases i <;> rfl
@[simp] theorem issue_dupcnt (i : Instr) (s : State) : (issue i s).dupcnt = s.dupcnt := by cases i <;> rfl
@[simp] theorem issue_expected (i : Instr) (s : State) : (issue i s).expected = s.expected := by cases i <;> rfl
@[simp] theorem issue_rbuf (i : Instr) (s : State) : (issue i s).rbuf = s.rbuf := by cases i <;> rfl
@[simp] theorem issue_fatal (i : Instr) (s : State) : (issue i s).fatal = s.fatal := by cases i <;> rfl
@[simp] theorem issue_input (i : Instr) (s : State) : (issue i s).input = s.input := by cases i <;> rfl
@[simp] theorem issue_actions (i : Instr) (s : State) : (issue i s).actions = s.actions := by cases i <;> rfl
@[simp] theorem issue_freeCtr (i : Instr) (s : State) : (issue i s).freeCtr = s.freeCtr := by cases i <;> rfl
theorem issue_tmr (i : Instr) (s : State) : (issue i s).tmr = match i with | .sndTimer _ => none | _ => s.tmr := by
  cases i <;> rfl

/-! ### the congestion controller -/

@[simp] theorem aimdIncrease_cfg (s : State) : (aimdIncrease s).cfg = s.cfg := by unfold aimdIncrease; split <;> rfl
@[simp] theorem aimdIncrease_seq (s : State) : (aimdIncrease s).seq = s.seq := by unfold aimdIncrease; split <;> rfl
@[simp] theorem aimdIncrease_curAck (s : State) : (aimdIncrease s).curAck = s.curAck := by unfold aimdIncrease; split <;> rfl
@[simp] theorem aimdIncrease_highestSent (s : State) : (aimdIncrease s).highestSent = s.highestSent := by unfold aimdIncrease; split <;> rfl
@[simp] theorem aimdIncrease_window (s : State) : (aimdIncrease s).window = s.window := by unfold aimdIncrease; split <;> rfl
@[simp] theorem aimdIncrease_backlog (s : State) : (aimdIncrease s).backlog = s.backlog := by unfold aimdIncrease; split <;> rfl
@[simp] theorem aimdIncrease_chain (s : State) : (aimdIncrease s).chain = s.chain := by unfold aimdIncrease; split <;> rfl
@[simp] theorem aimdIncrease_dupcnt (s : State) : (aimdIncrease s).dupcnt = s.dupcnt := by unfold aimdIncrease; split <;> rfl
@[simp] theorem aimdIncrease_expected (s : State) : (aimdIncrease s).expected = s.expected := by unfold aimdIncrease; split <;> rfl
@[simp] theorem aimdIncrease_rbuf (s : State) : (aimdIncrease s).rbuf = s.rbuf := by unfold aimdIncrease; split <;> rfl
@[simp] theorem aimdIncrease_fatal (s : State) : (aimdIncrease s).fatal = s.fatal := by unfold aimdIncrease; split <;> rfl
@[simp] theorem aimdIncrease_tmr (s : State) : (aimdIncrease s).tmr = s.tmr := by unfold aimdIncrease; split <;> rfl
@[simp] theorem aimdIncrease_input (s : State) : (aimdIncrease s).input = s.input := by unfold aimdIncrease; split <;> rfl
@[simp] theorem aimdIncrease_actions (s : State) : (aimdIncrease s).actions = s.actions := by unfold aimdIncrease; split <;> rfl
@[simp] theorem aimdIncrease_freeCtr (s : State) : (aimdIncrease s).freeCtr = s.freeCtr := by unfold aimdIncrease; split <;> rfl
@[simp] theorem aimdHalve_cfg (s : State) : (aimdHalve s).cfg = s.cfg := by unfold aimdHalve; split <;> rfl
@[simp] theorem aimdHalve_seq (s : State) : (aimdHalve s).seq = s.seq := by unfold aimdHalve; split <;> rfl
@[simp] theorem aimdHalve_curAck (s : State) : (aimdHalve s).curAck = s.curAck := by unfold aimdHalve; split <;> rfl
@[simp] theorem aimdHalve_highestSent (s : State) : (aimdHalve s).highestSent = s.highestSent := by unfold aimdHalve; split <;> rfl
@[simp] theorem aimdHalve_window (s : State) : (aimdHalve s).window = s.window := by unfold aimdHalve; split <;> rfl
@[simp] theorem aimdHalve_backlog (s : State) : (aimdHalve s).backlog = s.backlog := by unfold aimdHalve; split <;> rfl
@[simp] theorem aimdHalve_chain (s : State) : (aimdHalve s).chain = s.chain := by unfold aimdHalve; split <;> rfl
@[simp] theorem aimdHalve_dupcnt (s : State) : (aimdHalve s).dupcnt = s.dupcnt := by unfold aimdHalve; split <;> rfl
@[simp] theorem aimdHalve_expected (s : State) : (aimdHalve s).expected = s.expected := by unfold aimdHalve; split <;> rfl
@[simp] theorem aimdHalve_rbuf (s : State) : (aimdHalve s).rbuf = s.rbuf := by unfold aimdHalve; split <;> rfl
@[simp] theorem aimdHalve_fatal (s : State) : (aimdHalve s).fatal = s.fatal := by unfold aimdHalve; split <;> rfl
@[simp] theorem aimdHalve_tmr (s : State) : (aimdHalve s).tmr = s.tmr := by unfold aimdHalve; split <;> rfl
@[simp] theorem aimdHalve_input (s : State) : (aimdHalve s).input = s.input := by unfold aimdHalve; split <;> rfl
@[simp] theorem aimdHalve_actions (s : State) : (aimdHalve s).actions = s.actions := by unfold aimdHalve; split <;> rfl
@[simp] theorem aimdHalve_freeCtr (s : State) : (aimdHalve s).freeCtr = s.freeCtr := by unfold aimdHalve; split <;> rfl
@[simp] theorem aimdReset_cfg (s : State) : (aimdReset s).cfg = s.cfg := by unfold aimdReset; split <;> rfl
@[simp] theorem aimdReset_seq (s : State) : (aimdReset s).seq = s.seq := by unfold aimdReset; split <;> rfl
@[simp] theorem aimdReset_curAck (s : State) : (aimdReset s).curAck = s.curAck := by unfold aimdReset; split <;> rfl
@[simp] theorem aimdReset_highestSent (s : State) : (aimdReset s).highestSent = s.highestSent := by unfold aimdReset; split <;> rfl
@[simp] theorem aimdReset_window (s : State) : (aimdReset s).window = s.window := by unfold aimdReset; split <;> rfl
@[simp] theorem aimdReset_backlog (s : State) : (aimdReset s).backlog = s.backlog := by unfold aimdReset; split <;> rfl
@[simp] theorem aimdReset_chain (s : State) : (aimdReset s).chain = s.chain := by unfold aimdReset; split <;> rfl
@[simp] theorem aimdReset_dupcnt (s : State) : (aimdReset s).dupcnt = s.dupcnt := by unfold aimdReset; split <;> rfl
@[simp] theorem aimdReset_expected (s : State) : (aimdReset s).expected = s.expected := by unfold aimdReset; split <;> rfl
@[simp] theorem aimdReset_rbuf (s : State) : (aimdReset s).rbuf = s.rbuf := by unfold aimdReset; split <;> rfl
@[simp] theorem aimdReset_fatal (s : State) : (aimdReset s).fatal = s.fatal := by unfold aimdReset; split <;> rfl
@[simp] theorem aimdReset_tmr (s : State) : (aimdReset s).tmr = s.tmr := by unfold aimdReset; split <;> rfl
@[simp] theorem aimdReset_input (s : State) : (aimdReset s).input = s.input := by unfold aimdReset; split <;> rfl
@[simp] theorem aimdReset_actions (s : State) : (aimdReset s).actions = s.actions := by unfold aimdReset; split <;> rfl
@[simp] theorem aimdReset_freeCtr (s : State) : (aimdReset s).freeCtr = s.freeCtr := by unfold aimdReset; split <;> rfl

/-! ### the lifecycle resets -/

@[simp] theorem resetReceiver_cfg (s : State) : (resetReceiver s).cfg = s.cfg := rfl
@[simp] theorem resetReceiver_seq (s : State) : (resetReceiver s).seq = s.seq := rfl
@[simp] theorem resetReceiver_curAck (s : State) : (resetReceiver s).curAck = s.curAck := rfl
@[simp] theorem resetReceiver_highestSent (s : State) : (resetReceiver s).highestSent = s.highestSent := rfl
@[simp] theorem resetReceiver_wcap (s : State) : (resetReceiver s).wcap = s.wcap := rfl
@[simp] theorem resetReceiver_window (s : State) : (resetReceiver s).window = s.window := rfl
@[simp] theorem resetReceiver_backlog (s : State) : (resetReceiver s).backlog = s.backlog := rfl
@[simp] theorem resetReceiver_chain (s : State) : (resetReceiver s).chain = s.chain := rfl
@[simp] theorem resetReceiver_dupcnt (s : State) : (resetReceiver s).dupcnt = s.dupcnt := rfl
@[simp] theorem resetReceiver_expected (s : State) : (resetReceiver s).expected = 1 := rfl
@[simp] theorem resetReceiver_rbuf (s : State) : (resetReceiver s).rbuf = [] := rfl
@[simp] theorem resetReceiver_fatal (s : State) : (resetReceiver s).fatal = s.fatal := rfl
@[simp] theorem resetReceiver_tmr (s : State) : (resetReceiver s).tmr = s.tmr := rfl
@[simp] theorem resetReceiver_input (s : State) : (resetReceiver s).input = s.input := rfl
@[simp] theorem resetReceiver_actions (s : State) : (resetReceiver s).actions = s.actions := rfl
@[simp] theorem resetReceiver_freeCtr (s : State) : (resetReceiver s).freeCtr = s.freeCtr := rfl
@[simp] theorem resetSender_cfg (s : State) : (resetSender s).cfg = s.cfg := by unfold resetSender; split <;> rfl
@[simp] theorem resetSender_seq (s : State) : (resetSender s).seq = 0 := by unfold resetSender; split <;> rfl
@[simp] theorem resetSender_curAck (s : State) : (resetSender s).curAck = 1 := by unfold resetSender; split <;> rfl
@[simp] theorem resetSender_highestSent (s : State) : (resetSender s).highestSent = 0 := by unfold resetSender; split <;> rfl
@[simp] theorem resetSender_wcap (s : State) : (resetSender s).wcap = s.cfg.cc.initialCap := by unfold resetSender; split <;> rfl
@[simp] theorem resetSender_window (s : State) : (resetSender s).window = [] := by unfold resetSender; split <;> rfl
@[simp] theorem resetSender_backlog (s : State) : (resetSender s).backlog = [] := by unfold resetSender; split <;> rfl
@[simp] theorem resetSender_chain (s : State) : (resetSender s).chain = [] := by unfold resetSender; split <;> rfl
@[simp] theorem resetSender_dupcnt (s : State) : (resetSender s).dupcnt = [] := by unfold resetSender; split <;> rfl
@[simp] theorem resetSender_expected (s : State) : (resetSender s).expected = s.expected := by unfold resetSender; split <;> rfl
@[simp] theorem resetSender_rbuf (s : State) : (resetSender s).rbuf = s.rbuf := by unfold resetSender; split <;> rfl
@[simp] theorem resetSender_fatal (s : State) : (resetSender s).fatal = s.fatal := by unfold resetSender; split <;> rfl
@[simp] theorem resetSender_tmr (s : State) : (resetSender s).tmr = if timerArmed s then none else s.tmr := by by_cases h : timerArmed s <;> simp [resetSender, h]
@[simp] theorem resetSender_input (s : State) : (resetSender s).input = s.input := by unfold resetSender; split <;> rfl
@[simp] theorem resetSender_actions (s : State) :
    (resetSender s).actions = s.actions ++ (if timerArmed s then [.timerDisarm] else []) := by by_cases h : timerArmed s <;> simp [resetSender, h]
@[simp] theorem resetSender_freeCtr (s : State) : (resetSender s).freeCtr = s.freeCtr := by unfold resetSender; split <;> rfl

/-! ### deliver, emitAck -/

@[simp] theorem deliver_cfg (p : Packet) (s : State) : (deliver p s).cfg = s.cfg := rfl
@[simp] theorem deliver_seq (p : Packet) (s : State) : (deliver p s).seq = s.seq := rfl
@[simp] theorem deliver_curAck (p : Packet) (s : State) : (deliver p s).curAck = s.curAck := rfl
@[simp] theorem deliver_highestSent (p : Packet) (s : State) : (deliver p s).highestSent = s.highestSent := rfl
@[simp] theorem deliver_wcap (p : Packet) (s : State) : (deliver p s).wcap = s.wcap := rfl
@[simp] theorem deliver_window (p : Packet) (s : State) : (deliver p s).window = s.window := rfl
@[simp] theorem deliver_backlog (p : Packet) (s : State) : (deliver p s).backlog = s.backlog := rfl
@[simp] theorem deliver_chain (p : Packet) (s : State) : (deliver p s).chain = s.chain := rfl
@[simp] theorem deliver_dupcnt (p : Packet) (s : State) : (deliver p s).dupcnt = s.dupcnt := rfl
@[simp] theorem deliver_expected (p : Packet) (s : State) : (deliver p s).expected = s.expected + 1 := rfl
@[simp] theorem deliver_rbuf (p : Packet) (s : State) : (deliver p s).rbuf = s.rbuf := rfl
@[simp] theorem deliver_fatal (p : Packet) (s : State) : (deliver p s).fatal = s.fatal := rfl
@[simp] theorem deliver_tmr (p : Packet) (s : State) : (deliver p s).tmr = s.tmr := rfl
@[simp] theorem deliver_input (p : Packet) (s : State) : (deliver p s).input = s.input := rfl
@[simp] theorem deliver_actions (p : Packet) (s : State) :
    (deliver p s).actions = s.actions ++ [.toApp (payloadOf s.cfg p)] := rfl
@[simp] theorem deliver_freeCtr (p : Packet) (s : State) : (deliver p s).freeCtr = s.freeCtr := rfl
@[simp] theorem emitAck_cfg (s : State) : (emitAck s).cfg = s.cfg := rfl
@[simp] theorem emitAck_seq (s : State) : (emitAck s).seq = s.seq := rfl
@[simp] theorem emitAck_curAck (s : State) : (emitAck s).curAck = s.curAck := rfl
@[simp] theorem emitAck_highestSent (s : State) : (emitAck s).highestSent = s.highestSent := rfl
@[simp] theorem emitAck_wcap (s : State) : (emitAck s).wcap = s.wcap := rfl
@[simp] theorem emitAck_window (s : State) : (emitAck s).window = s.window := rfl
@[simp] theorem emitAck_backlog (s : State) : (emitAck s).backlog = s.backlog := rfl
@[simp] theorem emitAck_chain (s : State) : (emitAck s).chain = s.chain := rfl
@[simp] theorem emitAck_dupcnt (s : State) : (emitAck s).dupcnt = s.dupcnt := rfl
@[simp] theorem emitAck_expected (s : State) : (emitAck s).expected = s.expected := rfl
@[simp] theorem emitAck_rbuf (s : State) : (emitAck s).rbuf = s.rbuf := rfl
@[simp] theorem emitAck_fatal (s : State) : (emitAck s).fatal = s.fatal := rfl
@[simp] theorem emitAck_tmr (s : State) : (emitAck s).tmr = s.tmr := rfl
@[simp] theorem emitAck_input (s : State) : (emitAck s).input = s.input := rfl
@[simp] theorem emitAck_actions (s : State) :
    (emitAck s).actions = s.actions ++ [.toChannel (encodePacket s.cfg [] 0 s.expected)] := rfl
@[simp] theorem emitAck_freeCtr (s : State) : (emitAck s).freeCtr = s.freeCtr := rfl

/-! ### schedule -/

@[simp] theorem schedule_cfg (q : Seq) (now : Time) (s : State) : (schedule q now s).cfg = s.cfg := by unfold schedule; split <;> rfl
@[simp] theorem schedule_seq (q : Seq) (now : Time) (s : State) : (schedule q now s).seq = s.seq := by unfold schedule; split <;> rfl
@[simp] theorem schedule_curAck (q : Seq) (now : Time) (s : State) : (schedule q now s).curAck = s.curAck := by unfold schedule; split <;> rfl
@[simp] theorem schedule_highestSent (q : Seq) (now : Time) (s : State) : (schedule q now s).highestSent = s.highestSent := by unfold schedule; split <;> rfl
@[simp] theorem schedule_wcap (q : Seq) (now : Time) (s : State) : (schedule q now s).wcap = s.wcap := by unfold schedule; split <;> rfl
@[simp] theorem schedule_window (q : Seq) (now : Time) (s : State) : (schedule q now s).window = s.window := by unfold schedule; split <;> rfl
@[simp] theorem schedule_backlog (q : Seq) (now : Time) (s : State) : (schedule q now s).backlog = s.backlog := by unfold schedule; split <;> rfl
@[simp] theorem schedule_chain (q : Seq) (now : Time) (s : State) :
    (schedule q now s).chain = s.chain ++ [⟨q, deadline now s⟩] := by unfold schedule; split <;> rfl
@[simp] theorem schedule_dupcnt (q : Seq) (now : Time) (s : State) : (schedule q now s).dupcnt = s.dupcnt := by unfold schedule; split <;> rfl
@[simp] theorem schedule_expected (q : Seq) (now : Time) (s : State) : (schedule q now s).expected = s.expected := by unfold schedule; split <;> rfl
@[simp] theorem schedule_rbuf (q : Seq) (now : Time) (s : State) : (schedule q now s).rbuf = s.rbuf := by unfold schedule; split <;> rfl
@[simp] theorem schedule_fatal (q : Seq) (now : Time) (s : State) : (schedule q now s).fatal = s.fatal := by unfold schedule; split <;> rfl
@[simp] theorem schedule_tmr (q : Seq) (now : Time) (s : State) :
    (schedule q now s).tmr = if timerArmed s then s.tmr else some (now.toNat + s.cfg.timeout.toNat) := by by_cases h : timerArmed s <;> simp [schedule, h]
@[simp] theorem schedule_input (q : Seq) (now : Time) (s : State) : (schedule q now s).input = s.input := by unfold schedule; split <;> rfl
@[simp] theorem schedule_actions (q : Seq) (now : Time) (s : State) :
    (schedule q now s).actions = s.actions ++ (if timerArmed s then [] else [.timerArm s.cfg.timeout]) := by by_cases h : timerArmed s <;> simp [schedule, h]
@[simp] theorem schedule_freeCtr (q : Seq) (now : Time) (s : State) : (schedule q now s).freeCtr = nextFree now s := by unfold schedule; split <;> rfl

/-! ### transmitNew -/

@[simp] theorem transmitNew_cfg (p : Packet) (now : Time) (s : State) : (transmitNew p now s).cfg = s.cfg := by simp [transmitNew]
@[simp] theorem transmitNew_seq (p : Packet) (now : Time) (s : State) : (transmitNew p now s).seq = s.seq := by simp [transmitNew]
@[simp] theorem transmitNew_curAck (p : Packet) (now : Time) (s : State) : (transmitNew p now s).curAck = s.curAck := by simp [transmitNew]
@[simp] theorem transmitNew_highestSent (p : Packet) (now : Time) (s : State) :
    (transmitNew p now s).highestSent = maxSeq s.highestSent (seqOf s.cfg p) := by simp [transmitNew]
@[simp] theorem transmitNew_wcap (p : Packet) (now : Time) (s : State) : (transmitNew p now s).wcap = s.wcap := by simp [transmitNew]
@[simp] theorem transmitNew_window (p : Packet) (now : Time) (s : State) :
    (transmitNew p now s).window = s.window ++ [p] := by simp [transmitNew]
@[simp] theorem transmitNew_backlog (p : Packet) (now : Time) (s : State) : (transmitNew p now s).backlog = s.backlog := by simp [transmitNew]
@[simp] theorem transmitNew_chain (p : Packet) (now : Time) (s : State) :
    (transmitNew p now s).chain = s.chain ++ [⟨seqOf s.cfg p, deadline now s⟩] := by simp [transmitNew]
@[simp] theorem transmitNew_dupcnt (p : Packet) (now : Time) (s : State) : (transmitNew p now s).dupcnt = s.dupcnt := by simp [transmitNew]
@[simp] theorem transmitNew_expected (p : Packet) (now : Time) (s : State) : (transmitNew p now s).expected = s.expected := by simp [transmitNew]
@[simp] theorem transmitNew_rbuf (p : Packet) (now : Time) (s : State) : (transmitNew p now s).rbuf = s.rbuf := by simp [transmitNew]
@[simp] theorem transmitNew_fatal (p : Packet) (now : Time) (s : State) : (transmitNew p now s).fatal = s.fatal := by simp [transmitNew]
@[simp] theorem transmitNew_tmr (p : Packet) (now : Time) (s : State) :
    (transmitNew p now s).tmr = if timerArmed s then s.tmr else some (now.toNat + s.cfg.timeout.toNat) := by simp [transmitNew]; rfl
@[simp] theorem transmitNew_input (p : Packet) (now : Time) (s : State) : (transmitNew p now s).input = s.input := by simp [transmitNew]
@[simp] theorem transmitNew_actions (p : Packet) (now : Time) (s : State) :
    (transmitNew p now s).actions = s.actions ++ .toChannel p :: (if timerArmed s then [] else [.timerArm s.cfg.timeout]) := by simp [transmitNew]; rfl
@[simp] theorem transmitNew_freeCtr (p : Packet) (now : Time) (s : State) : (transmitNew p now s).freeCtr = nextFree now s := by simp [transmitNew]

end Sys2Proof.Machine
end

