-- ==== Sys2Proof/Laws/Ops.lean ====
section
/-! SUPPORT. What each shared operation can do, said once: arithmetic helpers, the map `DUPCNT`, the guard of every
command, the timer chain's `cancel` and re-arm. -/

namespace Sys2Proof.Machine

/-! ### arithmetic -/

theorem toNat_satSub (x y : Time) : (satSub x y).toNat = x.toNat - y.toNat := by
  unfold satSub
  split
  · rename_i h
    rw [BitVec.toNat_sub_of_le (BitVec.le_of_lt h)]
  · rename_i h
    have h := BitVec.not_lt.mp h
    simp only [BitVec.le_def] at h
    simp
    omega

theorem toNat_maxSeq (x y : Seq) : (maxSeq x y).toNat = max x.toNat y.toNat := by
  unfold maxSeq
  split <;> rename_i h <;> rw [BitVec.lt_def] at h <;> omega

theorem le_maxSeq_left (x y : Seq) : x.toNat ≤ (maxSeq x y).toNat := by rw [toNat_maxSeq]; omega

theorem le_maxSeq_right (x y : Seq) : y.toNat ≤ (maxSeq x y).toNat := by rw [toNat_maxSeq]; omega

theorem deadline_of_fits (now : Time) (s : State) (h : DeadlineFits now s) : deadline now s = now + s.cfg.timeout :=
  if_pos h

theorem toNat_deadline (now : Time) (s : State) (h : DeadlineFits now s) :
    (deadline now s).toNat = now.toNat + s.cfg.timeout.toNat := by
  rw [deadline_of_fits now s h, BitVec.toNat_add, Nat.mod_eq_of_lt h]

/-! ### the guard of every command -/

theorem unlessHalted_of_running (s s' : State) (h : s.fatal = 0) : unlessHalted s s' = .next s' := by
  simp [unlessHalted, halted, h]

theorem unlessHalted_of_halted (s s' : State) (h : s.fatal ≠ 0) : unlessHalted s s' = .next (refuse .halted s) := by
  have h' : halted s = true := by simpa [halted] using h
  rw [unlessHalted, if_pos h']

/-- A guarded command answers a next state, and it is one of two. -/
theorem unlessHalted_cases {s s' t : State} (h : unlessHalted s s' = .next t) :
    s.fatal ≠ 0 ∧ t = refuse .halted s ∨ s.fatal = 0 ∧ t = s' := by
  by_cases hf : s.fatal = 0
  · rw [unlessHalted_of_running s s' hf] at h
    exact .inr ⟨hf, by injection h with h; exact h.symm⟩
  · rw [unlessHalted_of_halted s s' hf] at h
    exact .inl ⟨hf, by injection h with h; exact h.symm⟩

/-! ### the duplicate-ack map -/

theorem dupGet_dupSet_same (m : DupMap) (a : Seq) (n : Nat) (hm : DupWf m) : dupGet (dupSet m a n) a = n := by
  induction m with
  | nil => by_cases h : n = 0 <;> simp [dupSet, dupGet, h]
  | cons e m ih =>
    obtain ⟨k, c⟩ := e
    have hk := (List.pairwise_cons.mp hm.1).1
    have hm' : DupWf m := ⟨(List.pairwise_cons.mp hm.1).2, fun e he => hm.2 e (List.mem_cons_of_mem _ he)⟩
    have habs : ∀ m' : DupMap, (∀ x ∈ m'.map Prod.fst, a < x) → dupGet m' a = 0 := by
      intro m' h'
      induction m' with
      | nil => rfl
      | cons e' m' ih' =>
        obtain ⟨k', c'⟩ := e'
        have h1 : a < k' := h' k' (by simp)
        have h2 : k' ≠ a := by rintro rfl; exact absurd h1 (BitVec.lt_irrefl _)
        simp only [dupGet, if_neg h2]
        exact ih' fun x hx => h' x (by simp at hx ⊢; exact .inr hx)
    simp only [dupSet]
    split
    · rename_i hlt
      split
      · rename_i h0
        rw [habs _ (fun x hx => ?_), h0]
        rcases List.mem_cons.mp hx with rfl | hx
        · exact hlt
        · exact BitVec.lt_trans hlt (hk x hx)
      · simp [dupGet]
    · split
      · rename_i heq
        subst heq
        split
        · rename_i h0
          rw [habs _ (fun x hx => hk x hx), h0]
        · simp [dupGet]
      · rename_i hne
        simp only [dupGet, if_neg (Ne.symm hne)]
        exact ih hm'

theorem dupGet_dupSet_other (m : DupMap) {a b : Seq} (n : Nat) (hab : b ≠ a) : dupGet (dupSet m a n) b = dupGet m b := by
  induction m with
  | nil => by_cases h : n = 0 <;> simp [dupSet, dupGet, h, Ne.symm hab]
  | cons e m ih =>
    obtain ⟨k, c⟩ := e
    simp only [dupSet]
    split
    · split
      · rfl
      · simp [dupGet, Ne.symm hab]
    · split
      · rename_i heq
        subst heq
        split
        · simp [dupGet, Ne.symm hab]
        · simp [dupGet, Ne.symm hab]
      · simp only [dupGet, ih]

theorem mem_dupSet {m : DupMap} {a : Seq} {n : Nat} {e : Seq × Nat} (h : e ∈ dupSet m a n) :
    e ∈ m ∨ e = (a, n) ∧ n ≠ 0 := by
  induction m with
  | nil =>
    simp only [dupSet] at h
    split at h
    · simp at h
    · simp at h; exact .inr ⟨h, ‹_›⟩
  | cons e' m ih =>
    obtain ⟨k, c⟩ := e'
    simp only [dupSet] at h
    split at h
    · split at h
      · exact .inl h
      · rcases List.mem_cons.mp h with rfl | h
        · exact .inr ⟨rfl, ‹_›⟩
        · exact .inl h
    · split at h
      · split at h
        · exact .inl (List.mem_cons_of_mem _ h)
        · rcases List.mem_cons.mp h with rfl | h
          · exact .inr ⟨rfl, ‹_›⟩
          · exact .inl (List.mem_cons_of_mem _ h)
      · rcases List.mem_cons.mp h with rfl | h
        · exact .inl (by simp)
        · exact (ih h).imp_left (List.mem_cons_of_mem _)

/-- Setting a count keeps the canonical form. -/
theorem dupSet_wf (m : DupMap) (a : Seq) (n : Nat) (hm : DupWf m) : DupWf (dupSet m a n) := by
  refine ⟨?_, fun e he => ?_⟩
  · induction m with
    | nil => by_cases h : n = 0 <;> simp [dupSet, h]
    | cons e m ih =>
      obtain ⟨k, c⟩ := e
      have hk := (List.pairwise_cons.mp hm.1).1
      have hm' : DupWf m := ⟨(List.pairwise_cons.mp hm.1).2, fun e he => hm.2 e (List.mem_cons_of_mem _ he)⟩
      simp only [dupSet]
      split
      · rename_i hlt
        split
        · exact hm.1
        · refine List.pairwise_cons.mpr ⟨fun x hx => ?_, hm.1⟩
          rcases List.mem_cons.mp hx with rfl | hx
          · exact hlt
          · exact BitVec.lt_trans hlt (hk x hx)
      · split
        · rename_i heq
          subst heq
          split
          · exact hm'.1
          · exact hm.1
        · rename_i hnlt hne
          refine List.pairwise_cons.mpr ⟨fun x hx => ?_, ih hm'⟩
          obtain ⟨e, he, rfl⟩ := List.mem_map.mp hx
          rcases mem_dupSet he with he | ⟨rfl, -⟩
          · exact hk _ (List.mem_map_of_mem he)
          · have := BitVec.not_lt.mp hnlt
            have hne' : k.toNat ≠ a.toNat := fun h => hne (BitVec.eq_of_toNat_eq h.symm)
            rw [BitVec.le_def] at this
            show k.toNat < a.toNat
            omega
  · rcases mem_dupSet he with he | ⟨rfl, hn⟩
    · exact hm.2 e he
    · exact hn

/-- The counts of a canonical map are those of its entries. -/
theorem dupGet_of_mem {m : DupMap} (hm : DupWf m) {e : Seq × Nat} (he : e ∈ m) : dupGet m e.1 = e.2 := by
  induction m with
  | nil => simp at he
  | cons e' m ih =>
    obtain ⟨k, c⟩ := e'
    have hk := (List.pairwise_cons.mp hm.1).1
    have hm' : DupWf m := ⟨(List.pairwise_cons.mp hm.1).2, fun e he => hm.2 e (List.mem_cons_of_mem _ he)⟩
    rcases List.mem_cons.mp he with rfl | he
    · simp [dupGet]
    · have hlt : k < e.1 := hk _ (List.mem_map_of_mem he)
      have hne : k ≠ e.1 := by rintro rfl; exact absurd hlt (BitVec.lt_irrefl _)
      simp only [dupGet, if_neg hne]
      exact ih hm' he

/-- A value with a count other than 0 is listed. -/
theorem mem_of_dupGet {m : DupMap} {a : Seq} (h : dupGet m a ≠ 0) : (a, dupGet m a) ∈ m := by
  induction m with
  | nil => simp [dupGet] at h
  | cons e m ih =>
    obtain ⟨k, c⟩ := e
    simp only [dupGet] at h ⊢
    split
    · rename_i hk; subst hk; simp
    · rename_i hk
      rw [if_neg hk] at h
      exact List.mem_cons_of_mem _ (ih h)

/-- Equal maps are equal data: two canonical lists that give every ack value the same count are the same list. -/
theorem dupMap_ext {m m' : DupMap} (hm : DupWf m) (hm' : DupWf m') (h : ∀ a, dupGet m a = dupGet m' a) : m = m' := by
  have sub : ∀ {x y : DupMap}, DupWf x → DupWf y → (∀ a, dupGet x a = dupGet y a) → ∀ e ∈ x, e ∈ y := by
    intro x y hx hy hxy e he
    have h1 := dupGet_of_mem hx he
    have h2 : dupGet y e.1 ≠ 0 := by rw [← hxy, h1]; exact hx.2 e he
    have h3 := mem_of_dupGet h2
    rwa [← hxy, h1] at h3
  have nodup : ∀ {x : DupMap}, DupWf x → x.Pairwise (fun e e' => e.1 < e'.1) := fun hx => List.pairwise_map.mp hx.1
  have nd : ∀ {x : DupMap}, DupWf x → x.Nodup := fun hx =>
    (nodup hx).imp fun {a b} hlt heq => by subst heq; exact absurd hlt (BitVec.lt_irrefl _)
  have perm : m.Perm m' := (List.perm_ext_iff_of_nodup (nd hm) (nd hm')).mpr fun e =>
    ⟨sub hm hm' h e, sub hm' hm (fun a => (h a).symm) e⟩
  refine perm.eq_of_pairwise (fun a b _ _ hab hba => ?_) (nodup hm) (nodup hm')
  exact absurd (BitVec.lt_trans hab hba) (BitVec.lt_irrefl _)

/-! ### the timer chain -/

/-- Everything `cancel` can do (43_timer_chain.md R151): nothing when no entry is for `q`; else the first such entry
goes, and the timer is disarmed, set for the new head, or left alone. -/
theorem cancel_cases (q : Seq) (now : Time) (s : State) :
    (∀ e ∈ s.chain, e.seq ≠ q) ∧ cancel q now s = s ∨
    ∃ before e after, s.chain = before ++ e :: after ∧ e.seq = q ∧ (∀ e' ∈ before, e'.seq ≠ q) ∧
      (before = [] ∧ after = [] ∧ cancel q now s = disarmTimer { s with chain := [] } ∨
       (∃ head tail, before = [] ∧ after = head :: tail ∧
          cancel q now s = armTimer now (satSub head.expiry now) { s with chain := after }) ∨
       before ≠ [] ∧ cancel q now s = { s with chain := before ++ after }) := by
  cases hf : s.chain.findIdx? (fun e => e.seq == q) with
  | none =>
    refine .inl ⟨fun e he => ?_, by simp [cancel, hf]⟩
    simpa using (List.findIdx?_eq_none_iff.mp hf) e he
  | some i =>
    obtain ⟨hi, hp, hb⟩ := List.findIdx?_eq_some_iff_getElem.mp hf
    have hsplit : s.chain = s.chain.take i ++ s.chain[i] :: s.chain.drop (i + 1) := by
      rw [← List.drop_eq_getElem_cons hi, List.take_append_drop]
    have herase : s.chain.eraseIdx i = s.chain.take i ++ s.chain.drop (i + 1) := List.eraseIdx_eq_take_drop_succ ..
    refine .inr ⟨s.chain.take i, s.chain[i], s.chain.drop (i + 1), hsplit, by simpa using hp, ?_, ?_⟩
    · intro e' he'
      obtain ⟨j, hj, rfl⟩ := List.mem_take_iff_getElem.mp he'
      simpa using hb j (by omega)
    · rcases Nat.eq_zero_or_pos i with rfl | hpos
      · cases hd : s.chain.drop 1 with
        | nil => exact .inl ⟨by simp, by simp, by simp [cancel, hf, herase, hd]⟩
        | cons head tail =>
          refine .inr (.inl ⟨head, tail, by simp, by simp, ?_⟩)
          simp only [cancel, hf, herase]
          simp only [List.take_zero, List.nil_append, Nat.zero_add, hd, if_true]
      · have hne : s.chain.take i ≠ [] := by
          intro h0
          have := congrArg List.length h0
          rw [List.length_take, List.length_nil] at this
          omega
        refine .inr (.inr ⟨hne, ?_⟩)
        simp only [cancel, hf, herase]
        cases ht : s.chain.take i with
        | nil => exact absurd ht hne
        | cons a l => simp [Nat.ne_of_gt hpos]

/-- Everything `rearm` can do (43_timer_chain.md R157). -/
theorem rearm_cases (now : Time) (s : State) :
    s.chain = [] ∧ rearm now s = s ∨
    ∃ head rest, s.chain = head :: rest ∧ rearm now s = armTimer now (satSub head.expiry now) s := by
  cases h : s.chain with
  | nil => exact .inl ⟨rfl, by simp [rearm, h]⟩
  | cons head rest => exact .inr ⟨head, rest, rfl, by simp [rearm, h]⟩

/-- What a window look-up gives (42_send_window.md R145). -/
theorem lookup_some {q : Seq} {s : State} {p : Packet} (h : lookup q s = some p) :
    p ∈ s.window ∧ seqOf s.cfg p = q :=
  ⟨List.mem_of_find?_eq_some h, by simpa using List.find?_some h⟩

theorem lookup_none {q : Seq} {s : State} (h : lookup q s = none) : ∀ p ∈ s.window, seqOf s.cfg p ≠ q := by
  intro p hp
  simpa using (List.find?_eq_none.mp h) p hp

/-! ### the congestion controller -/

@[simp] theorem aimdIncrease_wcap (s : State) : (aimdIncrease s).wcap = increasedCap s.cfg.cc s.wcap := by
  unfold aimdIncrease increasedCap
  split <;> simp_all

@[simp] theorem aimdHalve_wcap (s : State) : (aimdHalve s).wcap = halvedCap s.cfg.cc s.wcap := by
  unfold aimdHalve halvedCap
  split <;> simp_all

@[simp] theorem aimdReset_wcap (s : State) : (aimdReset s).wcap = timeoutCap s.cfg.cc s.wcap := by
  unfold aimdReset timeoutCap
  split <;> simp_all

end Sys2Proof.Machine
end

