-- ==== Sys2Proof/Laws/Window.lean ====
section
/-! SUPPORT. The send window in closed form: first transmissions of a list of packets, and `admit` and the refill loop
as "the first so many are transmitted, the rest waits" (42_send_window.md R140 to R143). -/

namespace Sys2Proof.Machine

/-- First transmission of each packet of a list, in order. -/
def transmitAll (now : Time) (ps : List Packet) (s : State) : State := ps.foldl (fun s p => transmitNew p now s) s

@[simp] theorem transmitAll_nil (now : Time) (s : State) : transmitAll now [] s = s := rfl

@[simp] theorem transmitAll_cons (now : Time) (p : Packet) (ps : List Packet) (s : State) :
    transmitAll now (p :: ps) s = transmitAll now ps (transmitNew p now s) := rfl

variable (now : Time) (ps : List Packet) (s : State)

/-- The fields a first transmission leaves alone. -/
theorem transmitAll_same :
    (transmitAll now ps s).cfg = s.cfg ∧ (transmitAll now ps s).seq = s.seq ∧
    (transmitAll now ps s).curAck = s.curAck ∧ (transmitAll now ps s).wcap = s.wcap ∧
    (transmitAll now ps s).backlog = s.backlog ∧ (transmitAll now ps s).dupcnt = s.dupcnt ∧
    (transmitAll now ps s).expected = s.expected ∧ (transmitAll now ps s).rbuf = s.rbuf ∧
    (transmitAll now ps s).fatal = s.fatal ∧ (transmitAll now ps s).input = s.input := by
  induction ps generalizing s with
  | nil => simp
  | cons p ps ih => simpa using ih (transmitNew p now s)

@[simp] theorem transmitAll_cfg : (transmitAll now ps s).cfg = s.cfg := (transmitAll_same now ps s).1
@[simp] theorem transmitAll_seq : (transmitAll now ps s).seq = s.seq := (transmitAll_same now ps s).2.1
@[simp] theorem transmitAll_curAck : (transmitAll now ps s).curAck = s.curAck := (transmitAll_same now ps s).2.2.1
@[simp] theorem transmitAll_wcap : (transmitAll now ps s).wcap = s.wcap := (transmitAll_same now ps s).2.2.2.1
@[simp] theorem transmitAll_backlog : (transmitAll now ps s).backlog = s.backlog :=
  (transmitAll_same now ps s).2.2.2.2.1
@[simp] theorem transmitAll_dupcnt : (transmitAll now ps s).dupcnt = s.dupcnt :=
  (transmitAll_same now ps s).2.2.2.2.2.1
@[simp] theorem transmitAll_expected : (transmitAll now ps s).expected = s.expected :=
  (transmitAll_same now ps s).2.2.2.2.2.2.1
@[simp] theorem transmitAll_rbuf : (transmitAll now ps s).rbuf = s.rbuf :=
  (transmitAll_same now ps s).2.2.2.2.2.2.2.1
@[simp] theorem transmitAll_fatal : (transmitAll now ps s).fatal = s.fatal :=
  (transmitAll_same now ps s).2.2.2.2.2.2.2.2.1
@[simp] theorem transmitAll_input : (transmitAll now ps s).input = s.input :=
  (transmitAll_same now ps s).2.2.2.2.2.2.2.2.2

@[simp] theorem transmitAll_window : (transmitAll now ps s).window = s.window ++ ps := by
  induction ps generalizing s with
  | nil => simp
  | cons p ps ih => simp [ih]

@[simp] theorem transmitAll_highestSent : (transmitAll now ps s).highestSent = highestOf s.cfg s.highestSent ps := by
  induction ps generalizing s with
  | nil => rfl
  | cons p ps ih => simp [ih, highestOf]

/-- One chain entry per packet, in order, at the tail. -/
theorem transmitAll_chain_seqs :
    (transmitAll now ps s).chain.map ChainEntry.seq = s.chain.map ChainEntry.seq ++ seqs s.cfg ps := by
  induction ps generalizing s with
  | nil => simp [seqs]
  | cons p ps ih => simp [ih, seqs]

/-- The entries there before stay in front. -/
theorem transmitAll_chain_prefix : ∃ new, (transmitAll now ps s).chain = s.chain ++ new := by
  induction ps generalizing s with
  | nil => exact ⟨[], by simp⟩
  | cons p ps ih =>
    obtain ⟨new, h⟩ := ih (transmitNew p now s)
    exact ⟨_, by rw [transmitAll_cons, h, transmitNew_chain, List.append_assoc]⟩

/-- The entries themselves, when `now + TIMEOUT` fits in 64 bits. -/
theorem transmitAll_chain (h : DeadlineFits now s) :
    (transmitAll now ps s).chain = s.chain ++ ps.map (fun p => ⟨seqOf s.cfg p, now + s.cfg.timeout⟩) := by
  induction ps generalizing s with
  | nil => simp
  | cons p ps ih =>
    rw [transmitAll_cons, ih (transmitNew p now s) (by simpa [DeadlineFits] using h)]
    simp [deadline_of_fits now s h]

theorem timerArmed_transmitNew (p : Packet) : timerArmed (transmitNew p now s) = true := by
  simp [timerArmed]

theorem timerArmed_transmitAll : timerArmed (transmitAll now ps s) = (timerArmed s || !ps.isEmpty) := by
  cases ps with
  | nil => simp
  | cons p ps =>
    obtain ⟨new, h⟩ := transmitAll_chain_prefix now ps (transmitNew p now s)
    simp [timerArmed, h]

theorem transmitAll_actions_armed (h : timerArmed s = true) :
    (transmitAll now ps s).actions = s.actions ++ ps.map .toChannel := by
  induction ps generalizing s with
  | nil => simp
  | cons p ps ih => simp [ih _ (timerArmed_transmitNew now s p), h]

theorem transmitAll_actions :
    (transmitAll now ps s).actions = s.actions ++ sendActions s.cfg (timerArmed s) ps := by
  cases ps with
  | nil => simp [sendActions]
  | cons p ps => simp [transmitAll_actions_armed now ps _ (timerArmed_transmitNew now s p), sendActions]

/-- The chain after first transmissions: the entries there before, then one per packet (43_timer_chain.md R150). -/
theorem transmitAll_chain_split : ∃ new, (transmitAll now ps s).chain = s.chain ++ new ∧
    new.map ChainEntry.seq = seqs s.cfg ps ∧
    (DeadlineFits now s → new = ps.map fun p => ⟨seqOf s.cfg p, now + s.cfg.timeout⟩) := by
  obtain ⟨new, h⟩ := transmitAll_chain_prefix now ps s
  have hs := transmitAll_chain_seqs now ps s
  rw [h, List.map_append] at hs
  exact ⟨new, h, List.append_cancel_left hs, fun hf => List.append_cancel_left (h ▸ transmitAll_chain now ps s hf)⟩

/-- No free value is taken where the deadline fits in 64 bits. -/
theorem transmitAll_freeCtr (h : DeadlineFits now s) : (transmitAll now ps s).freeCtr = s.freeCtr := by
  induction ps generalizing s with
  | nil => rfl
  | cons p ps ih =>
    rw [transmitAll_cons, ih (transmitNew p now s) (by simpa [DeadlineFits] using h)]
    rw [transmitNew_freeCtr, nextFree, if_pos h]

/-- The host's timer is set by the first transmission of a packet into an empty chain only. -/
theorem transmitAll_tmr : (transmitAll now ps s).tmr =
    if timerArmed s || ps.isEmpty then s.tmr else some (now.toNat + s.cfg.timeout.toNat) := by
  have armed : ∀ (ps : List Packet) (s : State), timerArmed s = true → (transmitAll now ps s).tmr = s.tmr := by
    intro ps
    induction ps with
    | nil => simp
    | cons p ps ih =>
      intro s h
      rw [transmitAll_cons, ih _ (timerArmed_transmitNew now s p), transmitNew_tmr, if_pos h]
  cases ps with
  | nil => simp
  | cons p ps =>
    rw [transmitAll_cons, armed ps _ (timerArmed_transmitNew now s p), transmitNew_tmr]
    simp

theorem toNat_highestOf (cfg : Cfg) (h : Seq) (ps : List Packet) :
    h.toNat ≤ (highestOf cfg h ps).toNat ∧ (∀ p ∈ ps, (seqOf cfg p).toNat ≤ (highestOf cfg h ps).toNat) ∧
    ∀ b : Nat, h.toNat ≤ b → (∀ p ∈ ps, (seqOf cfg p).toNat ≤ b) → (highestOf cfg h ps).toNat ≤ b := by
  induction ps generalizing h with
  | nil => simp [highestOf]
  | cons p ps ih =>
    obtain ⟨h1, h2, h3⟩ := ih (maxSeq h (seqOf cfg p))
    simp only [highestOf, List.foldl_cons] at h1 h2 h3 ⊢
    rw [toNat_maxSeq] at h1 h3
    refine ⟨by omega, fun q hq => ?_, fun b hb hall => h3 b ?_ fun q hq => hall q (List.mem_cons_of_mem _ hq)⟩
    · rcases List.mem_cons.mp hq with rfl | hq
      · omega
      · exact h2 q hq
    · have := hall p (by simp)
      omega

/-- A first transmission does not read or write the backlog. -/
theorem transmitNew_withBacklog (p : Packet) (b : List Packet) :
    transmitNew p now { s with backlog := b } = { transmitNew p now s with backlog := b } := by
  cases h : s.chain <;> simp [transmitNew, schedule, timerArmed, h, pushDeadline, armTimer, emit, deadline, nextFree]

theorem transmitAll_withBacklog (b : List Packet) :
    transmitAll now ps { s with backlog := b } = { transmitAll now ps s with backlog := b } := by
  induction ps generalizing s with
  | nil => rfl
  | cons p ps ih => rw [transmitAll_cons, transmitNew_withBacklog, ih]; rfl

/-- `admit` of a list (42_send_window.md R140): as many as the window has room for are transmitted, the rest joins the
backlog. -/
theorem admitAll_eq : admitAll now ps s =
    { transmitAll now (ps.take (s.wcap - s.window.length)) s with
      backlog := s.backlog ++ ps.drop (s.wcap - s.window.length) } := by
  induction ps generalizing s with
  | nil => simp [admitAll]
  | cons p ps ih =>
    by_cases h : s.window.length < s.wcap
    · obtain ⟨n, hn⟩ : ∃ n, s.wcap - s.window.length = n + 1 := ⟨s.wcap - s.window.length - 1, by omega⟩
      have hn' : s.wcap - (s.window.length + 1) = n := by omega
      rw [admitAll, admitPacket, if_pos h, ih]
      simp [hn, hn']
    · have h0 : s.wcap - s.window.length = 0 := by omega
      rw [admitAll, admitPacket, if_neg h, ih]
      simp [h0]

/-- The refill loop (42_send_window.md R142, R143): as many as the window has room for are transmitted, the rest
stays. -/
theorem refill_eq : refill now ps s =
    { transmitAll now (ps.take (s.wcap - s.window.length)) s with
      backlog := ps.drop (s.wcap - s.window.length) } := by
  induction ps generalizing s with
  | nil => simp [refill]
  | cons p ps ih =>
    by_cases h : s.window.length < s.wcap
    · obtain ⟨n, hn⟩ : ∃ n, s.wcap - s.window.length = n + 1 := ⟨s.wcap - s.window.length - 1, by omega⟩
      have hn' : s.wcap - (s.window.length + 1) = n := by omega
      rw [refill, if_pos h, ih]
      simp only [transmitNew_withBacklog, transmitAll_withBacklog]
      simp [hn, hn']
    · have h0 : s.wcap - s.window.length = 0 := by omega
      rw [refill, if_neg h]
      simp [h0]

end Sys2Proof.Machine
end

