-- ==== Sys2Proof/Laws/AckProcessor.lean ====
section
/-! SUPPORT. The acknowledgment path in closed form: the micro-ops of the congestion controller, `cancel`, `advance`, and
the counting of an ack (45_ack_processor.md R176 to R179). -/

namespace Sys2Proof.Machine

theorem aimdIncrease_eq (s : State) : aimdIncrease s = { s with wcap := increasedCap s.cfg.cc s.wcap } := by
  cases hc : s.cfg.cc <;> simp [aimdIncrease, hc, increasedCap]

theorem aimdHalve_eq (s : State) : aimdHalve s = { s with wcap := halvedCap s.cfg.cc s.wcap } := by
  cases hc : s.cfg.cc <;> simp [aimdHalve, hc, halvedCap]

theorem aimdReset_eq (s : State) : aimdReset s = { s with wcap := timeoutCap s.cfg.cc s.wcap } := by
  cases hc : s.cfg.cc <;> simp [aimdReset, hc, timeoutCap]

/-- `advance` in closed form (42_send_window.md R142, R143). -/
theorem advance_eq (a : Seq) (now : Time) (s : State) (h : s.curAck < a) : advance a now s =
    { transmitAll now (s.backlog.take (s.wcap - (s.window.filter fun p => decide (a ≤ seqOf s.cfg p)).length))
        { s with window := s.window.filter (fun p => decide (a ≤ seqOf s.cfg p)), curAck := a } with
      backlog := s.backlog.drop (s.wcap - (s.window.filter fun p => decide (a ≤ seqOf s.cfg p)).length) } := by
  simp only [advance, if_pos h, refill_eq]

/-- An ack that is not above `CUR_ACK` advances nothing (R142). -/
theorem advance_of_not_lt (a : Seq) (now : Time) (s : State) (h : ¬ s.curAck < a) : advance a now s = s := by
  simp only [advance, if_neg h]

/-- The window entry a look-up finds, as a list. -/
theorem lookup_toList (q : Seq) (s : State) :
    (lookup q s).toList = (s.window.filter fun p => seqOf s.cfg p == q).take 1 := by
  unfold lookup
  induction s.window with
  | nil => rfl
  | cons x l ih => by_cases h : (seqOf s.cfg x == q) = true <;> simp [h, ih]

/-- `cancel` in closed form (43_timer_chain.md R151): the chain, the actions, the timer, and that nothing else goes with
them. -/
theorem cancel_eq (q : Seq) (now : Time) (s : State) : cancel q now s = { s with
    chain := s.chain.eraseP (fun e => e.seq == q), actions := s.actions ++ cancelActions s.chain q now
    tmr := cancelTimer s.chain q now s.tmr } := by
  rcases cancel_cases q now s with ⟨ha, he⟩ | ⟨b, e, a, hs, hq, hb, hc⟩
  · have hE : s.chain.eraseP (fun e => e.seq == q) = s.chain :=
      List.eraseP_of_forall_not fun e he => by simpa using ha e he
    have h0 : cancelActions s.chain q now = [] ∧ cancelTimer s.chain q now s.tmr = s.tmr := by
      cases hc : s.chain with
      | nil => simp [cancelActions, cancelTimer]
      | cons x l =>
        have := ha x (by simp [hc])
        cases l <;> simp [cancelActions, cancelTimer, this]
    rw [he, hE, h0.1, h0.2, List.append_nil]
  · have hE : s.chain.eraseP (fun e => e.seq == q) = b ++ a := by
      rw [hs, List.eraseP_append_right]
      · simp [hq]
      · intro x hx
        simpa using hb x hx
    rcases hc with ⟨rfl, rfl, h⟩ | ⟨hd, tl, rfl, rfl, h⟩ | ⟨hne, h⟩
    · rw [h, hE, hs]
      simp [cancelActions, cancelTimer, hq, disarmTimer, emit]
    · have hm : now.toNat + (satSub hd.expiry now).toNat = max now.toNat hd.expiry.toNat := by
        rw [toNat_satSub]
        omega
      rw [h, hE, hs]
      simp [cancelActions, cancelTimer, hq, armTimer, emit, hm]
    · have h0 : cancelActions s.chain q now = [] ∧ cancelTimer s.chain q now s.tmr = s.tmr := by
        cases b with
        | nil => exact absurd rfl hne
        | cons x b =>
          have hx := hb x (by simp)
          rw [hs]
          cases b <;> simp [cancelActions, cancelTimer, hx]
      rw [h, hE, h0.1, h0.2, List.append_nil]

/-- The packet a third ack of value `a` resends, if the window holds one (R176, R178). -/
def resentBy (a : Seq) (s : State) : List Packet :=
  if dupGet s.dupcnt a = 2 then (s.window.filter fun p => seqOf s.cfg p == a).take 1 else []

/-- The counts after an ack of value `a` (R176, R177). -/
def countsAfter (a : Seq) (m : DupMap) : DupMap :=
  dupSet m a (if dupGet m a = 2 then 0 else dupGet m a + 1)

theorem dupGet_countsAfter (a b : Seq) (m : DupMap) (hm : DupWf m) : dupGet (countsAfter a m) b =
    if b = a then (if dupGet m a = 2 then 0 else dupGet m a + 1) else dupGet m b := by
  unfold countsAfter
  by_cases h : b = a
  · subst h
    rw [if_pos rfl, dupGet_dupSet_same _ _ _ hm]
  · rw [if_neg h, dupGet_dupSet_other _ _ h]

/-- Everything counting an ack does (R176 to R178). -/
theorem countAck_eq (a : Seq) (now : Time) (s : State) : countAck a now s = { s with
    dupcnt := countsAfter a s.dupcnt
    wcap := if dupGet s.dupcnt a = 2 then halvedCap s.cfg.cc s.wcap else s.wcap
    chain := if resentBy a s = [] then s.chain else s.chain.eraseP fun e => e.seq == a
    actions := s.actions ++ (resentBy a s).map .toChannel
      ++ (if resentBy a s = [] then [] else cancelActions s.chain a now)
    tmr := if resentBy a s = [] then s.tmr else cancelTimer s.chain a now s.tmr } := by
  by_cases h3 : dupGet s.dupcnt a = 2
  · have hr : resentBy a s = (lookup a s).toList := by rw [lookup_toList, resentBy, if_pos h3]
    have h3' : dupGet s.dupcnt a + 1 = Config.dupThreshold := by rw [h3]; rfl
    have hl' : lookup a { s with dupcnt := dupSet s.dupcnt a 0 } = lookup a s := rfl
    rw [countAck, if_pos h3', aimdHalve_eq, fastRetransmit, hl']
    cases hl : lookup a s with
    | none => simp [hr, hl, h3, countsAfter]
    | some p => simp [hr, hl, h3, countsAfter, cancel_eq, emit]
  · have h3' : ¬ dupGet s.dupcnt a + 1 = Config.dupThreshold := by
      intro h
      simp only [Config.dupThreshold] at h
      omega
    rw [countAck, if_neg h3']
    simp [resentBy, countsAfter, h3]

end Sys2Proof.Machine
end

