-- ==== Sys2Proof/Laws/Bytes.lean ====
section
/-! SUPPORT. Byte order (20_memory.md R62, R63): the two directions undo each other; and what writing a field into a
packet buffer leaves at each offset. -/

namespace Sys2Proof

/-- Counting on from a sequence number. -/
theorem seq_succ_add (e : Seq) (n : Nat) : e + 1 + BitVec.ofNat 32 n = e + BitVec.ofNat 32 (n + 1) := by
  have h1 : (1 : Seq).toNat = 1 := rfl
  apply BitVec.eq_of_toNat_eq
  simp only [BitVec.toNat_add, BitVec.toNat_ofNat, h1]
  omega

theorem toNat_seq_add (e : Seq) (n : Nat) (h : e.toNat + n < 2 ^ 32) : (e + BitVec.ofNat 32 n).toNat = e.toNat + n := by
  simp only [BitVec.toNat_add, BitVec.toNat_ofNat]
  omega

theorem toNat_seq_succ (e : Seq) (h : e.toNat + 1 < 2 ^ 32) : (e + 1).toNat = e.toNat + 1 := toNat_seq_add e 1 h

@[simp] theorem length_leBytes (n v : Nat) : (leBytes n v).length = n := by
  induction n generalizing v with
  | zero => rfl
  | succ n ih => simp [leBytes, ih]

@[simp] theorem length_natToBytes (bo : ByteOrder) (n v : Nat) : (natToBytes bo n v).length = n := by
  cases bo <;> simp [natToBytes]

theorem leValue_lt (bs : List Byte) : leValue bs < 256 ^ bs.length := by
  induction bs with
  | nil => simp [leValue]
  | cons b bs ih =>
    have := b.isLt
    simp only [leValue, List.length_cons, Nat.pow_succ]
    omega

theorem bytesToNat_lt (bo : ByteOrder) (bs : List Byte) : bytesToNat bo bs < 256 ^ bs.length := by
  cases bo
  · exact leValue_lt bs
  · simpa [bytesToNat] using leValue_lt bs.reverse

theorem leValue_leBytes (n v : Nat) : leValue (leBytes n v) = v % 256 ^ n := by
  induction n generalizing v with
  | zero => simp [leBytes, leValue, Nat.mod_one]
  | succ n ih =>
    simp only [leBytes, leValue, ih, BitVec.toNat_ofNat, Nat.pow_succ]
    rw [Nat.mul_comm (256 ^ n) 256]
    exact (Nat.mod_mul (a := 256) (b := 256 ^ n) (x := v)).symm

/-- Writing a value and reading it back (R63), for a value that fits. -/
theorem bytesToNat_natToBytes (bo : ByteOrder) {n v : Nat} (h : v < 256 ^ n) :
    bytesToNat bo (natToBytes bo n v) = v := by
  cases bo <;> simp [bytesToNat, natToBytes, leValue_leBytes, Nat.mod_eq_of_lt h]

theorem leBytes_leValue (bs : List Byte) : leBytes bs.length (leValue bs) = bs := by
  induction bs with
  | nil => rfl
  | cons b bs ih =>
    have hb := b.isLt
    have h1 : (b.toNat + 256 * leValue bs) / 256 = leValue bs := by omega
    simp only [List.length_cons, leBytes, leValue, h1, ih, List.cons.injEq, and_true]
    apply BitVec.eq_of_toNat_eq
    simp only [BitVec.toNat_ofNat]
    omega

/-- Reading bytes as a value and writing it back. -/
theorem natToBytes_bytesToNat (bo : ByteOrder) (bs : List Byte) :
    natToBytes bo bs.length (bytesToNat bo bs) = bs := by
  cases bo
  · exact leBytes_leValue bs
  · have := leBytes_leValue bs.reverse
    rw [List.length_reverse] at this
    simp [natToBytes, bytesToNat, this]

@[simp] theorem length_slice (bs : List Byte) (o n : Nat) : (slice bs o n).length = min n (bs.length - o) := by
  simp [slice]

theorem getField_lt (bo : ByteOrder) (bs : List Byte) (o n : Nat) : getField bo bs o n < 256 ^ n := by
  refine Nat.lt_of_lt_of_le (bytesToNat_lt bo _) ?_
  exact Nat.pow_le_pow_right (by decide) (by simp [slice])

/-- A slice that lies in the left part of an append. -/
theorem slice_append_left (a b : List Byte) {o n : Nat} (h : o + n ≤ a.length) : slice (a ++ b) o n = slice a o n := by
  unfold slice
  rw [List.drop_append_of_le_length (by omega), List.take_append_of_le_length (by rw [List.length_drop]; omega)]

/-- A slice that lies in the right part of an append. -/
theorem slice_append_right (a b : List Byte) {o n : Nat} (h : a.length ≤ o) :
    slice (a ++ b) o n = slice b (o - a.length) n := by
  unfold slice
  rw [List.drop_append, List.drop_eq_nil_of_le h, List.nil_append]

/-- The slice that is exactly the middle part. -/
theorem slice_middle (a b c : List Byte) {o n : Nat} (ho : a.length = o) (hn : b.length = n) :
    slice (a ++ b ++ c) o n = b := by
  subst ho hn
  simp [slice]

namespace Machine

@[simp] theorem length_putBytes (p : Packet) (o : Nat) (bs : List Byte) (h : o + bs.length ≤ p.length) :
    (putBytes p o bs).length = p.length := by
  simp [putBytes]
  omega

/-- The bytes written are the bytes there afterwards (20_memory.md R63). -/
theorem slice_putBytes (p : Packet) (o : Nat) (bs : List Byte) (h : o + bs.length ≤ p.length) :
    slice (putBytes p o bs) o bs.length = bs := by
  unfold putBytes
  exact slice_middle _ _ _ (by simp; omega) rfl

/-- No other byte changes (20_memory.md R63). -/
theorem getElem?_putBytes (p : Packet) (o : Nat) (bs : List Byte) (h : o + bs.length ≤ p.length) (j : Nat)
    (hj : j < o ∨ o + bs.length ≤ j) : (putBytes p o bs)[j]? = p[j]? := by
  unfold putBytes
  rcases hj with hj | hj
  · rw [List.append_assoc, List.getElem?_append_left (by simp; omega), List.getElem?_take_of_lt hj]
  · rw [List.getElem?_append_right (by simp; omega), List.getElem?_drop]
    congr 1
    simp
    omega

/-- A field that does not meet the bytes written reads as before. -/
theorem slice_putBytes_other (p : Packet) (o : Nat) (bs : List Byte) (h : o + bs.length ≤ p.length) {o' n : Nat}
    (hd : o' + n ≤ o ∨ o + bs.length ≤ o') : slice (putBytes p o bs) o' n = slice p o' n := by
  apply List.ext_getElem?
  intro j
  by_cases hj : j < n
  · simp only [slice, List.getElem?_take_of_lt hj, List.getElem?_drop]
    exact getElem?_putBytes p o bs h _ (by omega)
  · rw [List.getElem?_eq_none (by simp; omega), List.getElem?_eq_none (by simp; omega)]

/-- Writing over bytes already written: the last writing stays. -/
theorem putBytes_putBytes (p : Packet) (o : Nat) (bs cs : List Byte) (h : o + bs.length ≤ p.length)
    (hl : cs.length = bs.length) : putBytes (putBytes p o bs) o cs = putBytes p o cs := by
  have ho : (p.take o).length = o := by simp; omega
  simp only [putBytes, hl]
  have h1 : (p.take o ++ bs ++ p.drop (o + bs.length)).take o = p.take o := by
    rw [List.append_assoc, List.take_append_of_le_length (by omega), List.take_of_length_le (by omega)]
  have h2 : (p.take o ++ bs ++ p.drop (o + bs.length)).drop (o + bs.length) = p.drop (o + bs.length) := by
    rw [List.drop_append, List.drop_eq_nil_of_le (by rw [List.length_append]; omega)]
    simp only [List.nil_append, List.length_append, ho, Nat.sub_self, List.drop_zero]
  rw [h1, h2]

/-- Writing back the bytes that are there changes nothing. -/
theorem putBytes_slice (p : Packet) (o n : Nat) (h : o + n ≤ p.length) : putBytes p o (slice p o n) = p := by
  have hl : (slice p o n).length = n := by rw [length_slice]; omega
  unfold putBytes
  rw [hl, slice, ← List.drop_drop, List.append_assoc, List.take_append_drop, List.take_append_drop]

end Machine

end Sys2Proof
end

