-- ==== Sys2Proof/Laws/Decode.lean ====
section
/-! SUPPORT. The decoder said once: which byte selects which command and format (30_encoding.md R88, R89), and what a
descriptor must be to decode. -/

namespace Sys2Proof

/-- The format of each command (R88). -/
def formatOf : Opcode → Format
  | .csum => .b
  | .encode => .e
  | .validate => .q
  | .seglen => .l
  | .sndInit => .z
  | .sndFinal => .z
  | .sndMsg => .m
  | .sndPkt => .p
  | .sndTimer => .t
  | .rcvInit => .z
  | .rcvFinal => .z
  | .rcvPkt => .q

/-- No two rows of the table share a byte 0. -/
theorem opcodeTable_unambiguous : (opcodeTable.map OpcodeRow.byte).Pairwise (· ≠ ·) := by decide

/-- The byte of a command selects its row. -/
theorem rowOf_byte (op : Opcode) : ∃ r, rowOf op.byte = some r ∧ r.op = op ∧ r.fmt = formatOf op := by
  cases op <;> exact ⟨_, rfl, rfl, rfl⟩

/-- A row found is the row of its command. -/
theorem rowOf_some {b : Byte} {r : OpcodeRow} (h : rowOf b = some r) : b = r.op.byte ∧ r.fmt = formatOf r.op := by
  have hb : r.byte = b := by simpa using List.find?_some h
  have hm := List.mem_of_find?_eq_some h
  have all : ∀ r ∈ opcodeTable, r.byte = r.op.byte ∧ r.fmt = formatOf r.op := by decide
  exact ⟨hb ▸ (all r hm).1, (all r hm).2⟩

/-- The byte values R88 lists. -/
theorem opcodeTable_bytes : opcodeTable.map OpcodeRow.byte =
    [0x01, 0x02, 0x03, 0x04, 0x10, 0x11, 0x12, 0x13, 0x14, 0x20, 0x21, 0x23] := rfl

/-- No row is found exactly for the byte values R88 does not list (R90). -/
theorem rowOf_none_iff (b : Byte) :
    rowOf b = none ↔ b ∉ ([0x01, 0x02, 0x03, 0x04, 0x10, 0x11, 0x12, 0x13, 0x14, 0x20, 0x21, 0x23] : List Byte) := by
  rw [rowOf, List.find?_eq_none, ← opcodeTable_bytes]
  simp only [List.mem_map, not_exists, not_and, beq_iff_eq]

/-- Decoding a descriptor that starts with the byte of a command: the length decides. -/
theorem decode_byte (cfg : Cfg) (op : Opcode) (body : List Byte) : decode cfg (op.byte :: body) =
    if (op.byte :: body).length = (formatOf op).totalLength cfg (op.byte :: body)
    then .ok (operandsOf cfg (op.byte :: body) op) else .error .badFormat := by
  obtain ⟨r, h1, h2, h3⟩ := rowOf_byte op
  simp only [decode, h1, h2, h3]

/-- Everything an accepted descriptor is. -/
theorem decode_ok {cfg : Cfg} {d : List Byte} {i : Instr} (h : decode cfg d = .ok i) :
    ∃ op body, d = op.byte :: body ∧ d.length = (formatOf op).totalLength cfg d ∧ i = operandsOf cfg d op := by
  cases d with
  | nil => simp [decode] at h
  | cons b body =>
    cases hr : rowOf b with
    | none => simp [decode, hr] at h
    | some r =>
      obtain ⟨hb, hf⟩ := rowOf_some hr
      simp only [decode, hr] at h
      split at h
      · rename_i hl
        exact ⟨r.op, body, by rw [hb], by rw [← hf]; exact hl, by injection h with h; exact h.symm⟩
      · cases h

/-- Reading back a field that was written in the middle of a byte string. -/
theorem getField_middle (bo : ByteOrder) (a c : List Byte) {o n v : Nat} (ho : a.length = o) (hv : v < 256 ^ n) :
    getField bo (a ++ natToBytes bo n v ++ c) o n = v := by
  rw [getField, slice_middle a _ c ho (by simp), bytesToNat_natToBytes bo hv]

/-- Writing back a field that was read. -/
theorem natToBytes_getField (bo : ByteOrder) (d : List Byte) {o n : Nat} (h : o + n ≤ d.length) :
    natToBytes bo n (getField bo d o n) = slice d o n := by
  have hl : (slice d o n).length = n := by rw [length_slice]; omega
  have := natToBytes_bytesToNat bo (slice d o n)
  rwa [hl] at this

end Sys2Proof
end

