-- ==== Sys2Proof/Laws/Packet.lean ====
section
/-! SUPPORT. The wire image of an encoded packet (30_encoding.md R80, 40_codec.md R113) and the fields it gives back. -/

namespace Sys2Proof.Machine

/-- Writing over exactly the middle part. -/
theorem putBytes_middle (a b b' c : List Byte) {o : Nat} (ho : a.length = o) (hl : b'.length = b.length) :
    putBytes (a ++ b ++ c) o b' = a ++ b' ++ c := by
  subst ho
  simp [putBytes, hl]

/-- The bytes 0 to 8: length, sequence number, ack number. -/
def headBytes (cfg : Cfg) (len : Nat) (seq ack : Seq) : List Byte :=
  natToBytes cfg.byteOrder 1 (len % 256) ++ natToBytes cfg.byteOrder 4 seq.toNat ++ natToBytes cfg.byteOrder 4 ack.toNat

@[simp] theorem length_headBytes (cfg : Cfg) (len : Nat) (seq ack : Seq) : (headBytes cfg len seq ack).length = 9 := by
  simp [headBytes]

/-- The packet image around the two bytes `field` of the checksum field. -/
def packetImage (cfg : Cfg) (payload : Message) (seq ack : Seq) (field : List Byte) : Packet :=
  headBytes cfg payload.length seq ack ++ field ++ (payload ++ List.replicate (cfg.pktSize - 11 - payload.length) 0)

/-- The checksum the encoder stores: over the image with a zero field (40_codec.md R112, R113). -/
def imageChecksum (cfg : Cfg) (payload : Message) (seq ack : Seq) : Word16 :=
  checksum16 cfg.byteOrder (packetImage cfg payload seq ack [0, 0])

theorem length_packetImage (cfg : Cfg) (payload : Message) (seq ack : Seq) (field : List Byte) (hf : field.length = 2)
    (h : payload.length + 11 ≤ cfg.pktSize) : (packetImage cfg payload seq ack field).length = cfg.pktSize := by
  simp [packetImage, hf]
  omega

/-- Byte for byte, the layout of R80: length, sequence, ack, checksum, payload, zero padding. -/
theorem encodePacket_layout (cfg : Cfg) (payload : Message) (seq ack : Seq) (h : payload.length + 11 ≤ cfg.pktSize) :
    encodePacket cfg payload seq ack
      = packetImage cfg payload seq ack (natToBytes cfg.byteOrder 2 (imageChecksum cfg payload seq ack).toNat) := by
  let z : Nat → List Byte := fun n => List.replicate n 0
  let rest := cfg.pktSize - 11 - payload.length
  let A := natToBytes cfg.byteOrder 1 (payload.length % 256)
  let B := natToBytes cfg.byteOrder 4 seq.toNat
  let C := natToBytes cfg.byteOrder 4 ack.toNat
  have e0 : List.replicate cfg.pktSize (0 : Byte) = [] ++ z 1 ++ (z 4 ++ z 4 ++ z 2 ++ z payload.length ++ z rest) := by
    simp only [z, List.nil_append, List.replicate_append_replicate]
    congr 1
    omega
  have e1 : put8 cfg.byteOrder (List.replicate cfg.pktSize (0 : Byte)) 0 (BitVec.ofNat 8 payload.length)
      = A ++ z 4 ++ (z 4 ++ z 2 ++ z payload.length ++ z rest) := by
    rw [e0, put8, putBytes_middle [] (z 1) _ _ (o := 0) rfl (by simp [z])]
    simp [A]
  have e2 : put32 cfg.byteOrder (A ++ z 4 ++ (z 4 ++ z 2 ++ z payload.length ++ z rest)) 1 seq
      = (A ++ B) ++ z 4 ++ (z 2 ++ z payload.length ++ z rest) := by
    rw [put32, putBytes_middle _ _ _ _ (by simp [A]) (by simp [z])]
    simp [B]
  have e3 : put32 cfg.byteOrder ((A ++ B) ++ z 4 ++ (z 2 ++ z payload.length ++ z rest)) 5 ack
      = (A ++ B ++ C) ++ z 2 ++ (z payload.length ++ z rest) := by
    rw [put32, putBytes_middle _ _ _ _ (by simp [A, B]) (by simp [z])]
    simp [C]
  have e4 : put16 cfg.byteOrder ((A ++ B ++ C) ++ z 2 ++ (z payload.length ++ z rest)) 9 0
      = (A ++ B ++ C ++ [0, 0]) ++ z payload.length ++ z rest := by
    rw [put16, putBytes_middle _ _ _ _ (by simp [A, B, C]) (by simp [z])]
    cases hb : cfg.byteOrder <;> simp [natToBytes, leBytes]
  have e5 : putBytes ((A ++ B ++ C ++ [0, 0]) ++ z payload.length ++ z rest) Config.hdrSize payload
      = packetImage cfg payload seq ack [0, 0] := by
    rw [putBytes_middle _ _ _ _ (by simp [A, B, C, Config.hdrSize]) (by simp [z])]
    simp [packetImage, headBytes, A, B, C, z, rest]
  unfold encodePacket
  simp only [e1, e2, e3, e4, e5]
  rw [put16, packetImage, putBytes_middle _ _ _ _ (by simp) (by simp)]
  rfl

variable (cfg : Cfg) (payload : Message) (seq ack : Seq)

theorem length_encodePacket (h : payload.length + 11 ≤ cfg.pktSize) :
    (encodePacket cfg payload seq ack).length = cfg.pktSize := by
  rw [encodePacket_layout cfg payload seq ack h, length_packetImage cfg payload seq ack _ (by simp) h]

/-- The fields of a packet image, whatever its checksum field holds. -/
theorem lenOf_packetImage (field : List Byte) : (lenOf cfg (packetImage cfg payload seq ack field)).toNat = payload.length % 256 := by
  have h : slice (packetImage cfg payload seq ack field) 0 1 = natToBytes cfg.byteOrder 1 (payload.length % 256) := by
    simp only [packetImage, headBytes, List.append_assoc]
    rw [slice_append_left _ _ (by simp)]
    simp [slice]
  simp only [lenOf, get8, getField, h, BitVec.toNat_ofNat]
  rw [bytesToNat_natToBytes _ (by omega)]
  omega

theorem seqOf_packetImage (field : List Byte) : seqOf cfg (packetImage cfg payload seq ack field) = seq := by
  have h : slice (packetImage cfg payload seq ack field) 1 4 = natToBytes cfg.byteOrder 4 seq.toNat := by
    simp only [packetImage, headBytes, List.append_assoc]
    rw [slice_append_right _ _ (by simp), slice_append_left _ _ (by simp)]
    simp [slice]
  simp only [seqOf, get32, getField, h]
  rw [bytesToNat_natToBytes _ (by have := seq.isLt; omega)]
  simp

theorem ackOf_packetImage (field : List Byte) : ackOf cfg (packetImage cfg payload seq ack field) = ack := by
  have h : slice (packetImage cfg payload seq ack field) 5 4 = natToBytes cfg.byteOrder 4 ack.toNat := by
    simp only [packetImage, headBytes, List.append_assoc]
    rw [slice_append_right _ _ (by simp), slice_append_right _ _ (by simp), slice_append_left _ _ (by simp)]
    simp [slice]
  simp only [ackOf, get32, getField, h]
  rw [bytesToNat_natToBytes _ (by have := ack.isLt; omega)]
  simp

theorem csumOf_packetImage (v : Word16) :
    csumOf cfg (packetImage cfg payload seq ack (natToBytes cfg.byteOrder 2 v.toNat)) = v := by
  have h : slice (packetImage cfg payload seq ack (natToBytes cfg.byteOrder 2 v.toNat)) 9 2
      = natToBytes cfg.byteOrder 2 v.toNat := slice_middle _ _ _ (by simp) (by simp)
  simp only [csumOf, get16, getField, h]
  rw [bytesToNat_natToBytes _ (by have := v.isLt; omega)]
  simp

theorem slice_packetImage_payload (field : List Byte) (hf : field.length = 2) :
    slice (packetImage cfg payload seq ack field) 11 payload.length = payload := by
  rw [packetImage, slice_append_right _ _ (by simp [hf]), slice_append_left _ _ (by simp [hf])]
  simp [slice, hf]

/-- Zeroing the checksum field of an image gives the image with a zero field (40_codec.md R116). -/
theorem putBytes_packetImage (field field' : List Byte) (hf : field.length = 2) (hf' : field'.length = 2) :
    putBytes (packetImage cfg payload seq ack field) 9 field' = packetImage cfg payload seq ack field' := by
  rw [packetImage, putBytes_middle _ _ _ _ (by simp) (by simp [hf, hf'])]
  rfl

variable (h : payload.length + 11 ≤ cfg.pktSize)
include h

theorem seqOf_encodePacket : seqOf cfg (encodePacket cfg payload seq ack) = seq := by
  rw [encodePacket_layout cfg payload seq ack h, seqOf_packetImage]

theorem ackOf_encodePacket : ackOf cfg (encodePacket cfg payload seq ack) = ack := by
  rw [encodePacket_layout cfg payload seq ack h, ackOf_packetImage]

theorem lenOf_encodePacket (hl : payload.length < 256) :
    (lenOf cfg (encodePacket cfg payload seq ack)).toNat = payload.length := by
  rw [encodePacket_layout cfg payload seq ack h, lenOf_packetImage, Nat.mod_eq_of_lt hl]

theorem payloadOf_encodePacket (hl : payload.length < 256) :
    payloadOf cfg (encodePacket cfg payload seq ack) = payload := by
  rw [payloadOf, lenOf_encodePacket cfg payload seq ack h hl, encodePacket_layout cfg payload seq ack h]
  exact slice_packetImage_payload cfg payload seq ack _ (by simp)

end Sys2Proof.Machine
end

