-- ==== Sys2Proof/Laws/PerInstr.lean ====
section
/-! SUPPORT. Per command: the descriptor the encoder writes has exactly the length its own format computes from it
(30_encoding.md R85, R87, R91). -/

namespace Sys2Proof.Laws.Framed

/-- The descriptor of a well-formed command is framed as its format says. -/
def Statement (i : Instr) : Prop :=
  ∀ cfg, i.wf cfg = true → (Sys2Proof.encode cfg i).length = (formatOf i.opcode).totalLength cfg (Sys2Proof.encode cfg i)

theorem csum (data : Message) : Statement (.csum data) := by
  intro cfg h
  have hl : data.length < 256 ^ 2 := by simpa [Instr.wf] using h
  have h1 : getField cfg.byteOrder (Sys2Proof.encode cfg (.csum data)) 1 2 = data.length :=
    getField_middle cfg.byteOrder [Opcode.csum.byte] data rfl hl
  simp only [Instr.opcode, formatOf, Format.totalLength, h1]
  simp [Sys2Proof.encode, operandBytes]
  omega

theorem encode (seq ack : Seq) (payload : Message) : Statement (.encode seq ack payload) := by
  intro cfg h
  have hl : payload.length < 256 ^ 1 := by simpa [Instr.wf] using h
  have h1 : getField cfg.byteOrder (Sys2Proof.encode cfg (.encode seq ack payload)) 9 1 = payload.length := by
    have := getField_middle cfg.byteOrder
      (Opcode.encode.byte :: (natToBytes cfg.byteOrder 4 seq.toNat ++ natToBytes cfg.byteOrder 4 ack.toNat)) payload
      (o := 9) (n := 1) (by simp) hl
    simpa [Sys2Proof.encode, Instr.opcode, operandBytes] using this
  simp only [Instr.opcode, formatOf, Format.totalLength, h1]
  simp [Sys2Proof.encode, operandBytes]
  omega

theorem validate (pkt : Packet) : Statement (.validate pkt) := by
  intro cfg h
  have hl : pkt.length = cfg.pktSize := by simpa [Instr.wf, Packet.wf] using h
  simp [Sys2Proof.encode, Instr.opcode, operandBytes, formatOf, Format.totalLength, hl]
  omega

theorem seglen (remaining : BitVec 32) : Statement (.seglen remaining) := by
  intro cfg _
  simp [Sys2Proof.encode, Instr.opcode, operandBytes, formatOf, Format.totalLength]

theorem sndInit : Statement .sndInit := fun _ _ => rfl

theorem sndFinal : Statement .sndFinal := fun _ _ => rfl

theorem sndMsg (now : Time) (data : Message) : Statement (.sndMsg now data) := by
  intro cfg h
  have hl : data.length < 256 ^ 4 := by simpa [Instr.wf] using h
  have h1 : getField cfg.byteOrder (Sys2Proof.encode cfg (.sndMsg now data)) 9 4 = data.length := by
    have := getField_middle cfg.byteOrder (Opcode.sndMsg.byte :: natToBytes cfg.byteOrder 8 now.toNat) data
      (o := 9) (n := 4) (by simp) hl
    simpa [Sys2Proof.encode, Instr.opcode, operandBytes] using this
  simp only [Instr.opcode, formatOf, Format.totalLength, h1]
  simp [Sys2Proof.encode, operandBytes]
  omega

theorem sndPkt (now : Time) (pkt : Packet) : Statement (.sndPkt now pkt) := by
  intro cfg h
  have hl : pkt.length = cfg.pktSize := by simpa [Instr.wf, Packet.wf] using h
  simp [Sys2Proof.encode, Instr.opcode, operandBytes, formatOf, Format.totalLength, hl]
  omega

theorem sndTimer (now : Time) : Statement (.sndTimer now) := by
  intro cfg _
  simp [Sys2Proof.encode, Instr.opcode, operandBytes, formatOf, Format.totalLength]

theorem rcvInit : Statement .rcvInit := fun _ _ => rfl

theorem rcvFinal : Statement .rcvFinal := fun _ _ => rfl

theorem rcvPkt (pkt : Packet) : Statement (.rcvPkt pkt) := by
  intro cfg h
  have hl : pkt.length = cfg.pktSize := by simpa [Instr.wf, Packet.wf] using h
  simp [Sys2Proof.encode, Instr.opcode, operandBytes, formatOf, Format.totalLength, hl]
  omega

end Sys2Proof.Laws.Framed
end

