-- ==== Sys2Proof/Laws/Reorder.lean ====
section
/-! SUPPORT. The reorder buffer in closed form: the drain delivers the leading run (46_reorder_buffer.md R190), and
`rx_insert` puts a new packet between the lower and the higher ones (R188). -/

namespace Sys2Proof.Machine

/-- The drain loop delivers exactly the leading run. -/
theorem drainFrom_eq (ps : List Packet) (s : State) : drainFrom ps s =
    { s with
      rbuf := ps.drop (runLength s.cfg s.expected ps)
      expected := s.expected + BitVec.ofNat 32 (runLength s.cfg s.expected ps)
      actions := s.actions ++ (ps.take (runLength s.cfg s.expected ps)).map fun p => .toApp (payloadOf s.cfg p) } := by
  induction ps generalizing s with
  | nil => simp [drainFrom, runLength]
  | cons p ps ih =>
    by_cases h : seqOf s.cfg p = s.expected
    · rw [drainFrom, if_pos h, ih]
      have hb : ∀ n, s.expected + 1#32 + BitVec.ofNat 32 n = s.expected + BitVec.ofNat 32 (n + 1) := seq_succ_add s.expected
      simp [runLength, h, deliver, emit, hb]
    · rw [drainFrom, if_neg h]
      simp [runLength, h]

theorem rxDrain_eq (s : State) : rxDrain s =
    { s with
      rbuf := s.rbuf.drop (runLength s.cfg s.expected s.rbuf)
      expected := s.expected + BitVec.ofNat 32 (runLength s.cfg s.expected s.rbuf)
      actions := s.actions ++
        (s.rbuf.take (runLength s.cfg s.expected s.rbuf)).map fun p => .toApp (payloadOf s.cfg p) } :=
  drainFrom_eq s.rbuf s

/-- A drain that finds nothing changes nothing. -/
theorem rxDrain_of_ahead (s : State) (h : ∀ p ∈ s.rbuf, seqOf s.cfg p ≠ s.expected) : rxDrain s = s := by
  have h0 : runLength s.cfg s.expected s.rbuf = 0 := by
    cases hr : s.rbuf with
    | nil => rfl
    | cons p ps => rw [runLength, if_neg (h p (by simp [hr]))]
  rw [rxDrain_eq, h0]
  simp

/-- The packets of the leading run, and where it ends. -/
theorem runLength_spec (cfg : Cfg) (e : Seq) (ps : List Packet) :
    runLength cfg e ps ≤ ps.length ∧
    (∀ k (hk : k < ps.length), k < runLength cfg e ps → seqOf cfg ps[k] = e + BitVec.ofNat 32 k) ∧
    ∀ hm : runLength cfg e ps < ps.length, seqOf cfg ps[runLength cfg e ps] ≠ e + BitVec.ofNat 32 (runLength cfg e ps) := by
  induction ps generalizing e with
  | nil => simp [runLength]
  | cons p ps ih =>
    have hb : ∀ n, e + 1#32 + BitVec.ofNat 32 n = e + BitVec.ofNat 32 (n + 1) := seq_succ_add e
    by_cases h : seqOf cfg p = e
    · obtain ⟨h1, h2, h3⟩ := ih (e + 1)
      simp only [runLength, if_pos h]
      refine ⟨by simpa using h1, fun k hk hk' => ?_, fun hm => ?_⟩
      · cases k with
        | zero => simpa using h
        | succ k => simpa [hb] using h2 k (by simpa using hk) (by omega)
      · simpa [hb] using h3 (by simpa using hm)
    · simp [runLength, h]

/-- What `rx_insert` does: a packet already buffered changes nothing, a new one stands between the lower and the
higher ones. -/
theorem rxInsert_cases (pkt : Packet) (s : State) (hr : (seqs s.cfg s.rbuf).Pairwise (· < ·)) :
    seqOf s.cfg pkt ∈ seqs s.cfg s.rbuf ∧ rxInsert pkt s = s ∨
    seqOf s.cfg pkt ∉ seqs s.cfg s.rbuf ∧ ∃ lower higher, s.rbuf = lower ++ higher ∧
      (∀ p ∈ lower, seqOf s.cfg p < seqOf s.cfg pkt) ∧ (∀ p ∈ higher, seqOf s.cfg pkt < seqOf s.cfg p) ∧
      rxInsert pkt s = { s with rbuf := lower ++ [pkt] ++ higher } := by
  by_cases hm : seqOf s.cfg pkt ∈ seqs s.cfg s.rbuf
  · refine .inl ⟨hm, ?_⟩
    have : (s.rbuf.any fun r => seqOf s.cfg r == seqOf s.cfg pkt) = true := by
      obtain ⟨r, hr, he⟩ := List.mem_map.mp hm
      exact List.any_eq_true.mpr ⟨r, hr, by simpa using he⟩
    simp [rxInsert, this]
  · have hany : ¬ (s.rbuf.any fun r => seqOf s.cfg r == seqOf s.cfg pkt) = true := by
      intro h
      obtain ⟨r, hr, he⟩ := List.any_eq_true.mp h
      exact hm (List.mem_map.mpr ⟨r, hr, by simpa using he⟩)
    -- the lower packets are a leading part, as long as they are many
    have key : ∀ (l : List Packet), (seqs s.cfg l).Pairwise (· < ·) → seqOf s.cfg pkt ∉ seqs s.cfg l →
        (∀ p ∈ l.take (l.countP fun r => decide (seqOf s.cfg r < seqOf s.cfg pkt)), seqOf s.cfg p < seqOf s.cfg pkt) ∧
        (∀ p ∈ l.drop (l.countP fun r => decide (seqOf s.cfg r < seqOf s.cfg pkt)), seqOf s.cfg pkt < seqOf s.cfg p) := by
      intro l
      induction l with
      | nil => simp
      | cons r l ih =>
        intro hp hnm
        have hp' := List.pairwise_cons.mp hp
        simp only [seqs, List.map_cons, List.mem_cons, not_or] at hnm
        by_cases hlt : seqOf s.cfg r < seqOf s.cfg pkt
        · obtain ⟨h1, h2⟩ := ih hp'.2 hnm.2
          simp only [List.countP_cons, hlt, decide_true, if_true]
          refine ⟨fun p hp => ?_, fun p hp => ?_⟩
          · rcases List.mem_cons.mp (by simpa using hp) with rfl | hp
            · exact hlt
            · exact h1 p hp
          · exact h2 p (by simpa using hp)
        · have hgt : ∀ p ∈ r :: l, seqOf s.cfg pkt < seqOf s.cfg p := by
            have hr : seqOf s.cfg pkt < seqOf s.cfg r := by
              rw [BitVec.lt_def] at hlt ⊢
              have : (seqOf s.cfg pkt).toNat ≠ (seqOf s.cfg r).toNat := fun h => hnm.1 (BitVec.eq_of_toNat_eq h)
              omega
            intro p hp
            rcases List.mem_cons.mp hp with rfl | hp
            · exact hr
            · exact BitVec.lt_trans hr (hp'.1 _ (List.mem_map_of_mem hp))
          have h0 : (r :: l).countP (fun r => decide (seqOf s.cfg r < seqOf s.cfg pkt)) = 0 := by
            rw [List.countP_eq_zero]
            intro p hp
            have := hgt p hp
            simp only [decide_eq_true_eq]
            rw [BitVec.lt_def] at this ⊢
            omega
          rw [h0]
          exact ⟨by simp, by simpa using hgt⟩
    obtain ⟨h1, h2⟩ := key s.rbuf hr hm
    exact .inr ⟨hm, _, _, (List.take_append_drop _ _).symm, h1, h2, by rw [rxInsert, if_neg hany]⟩

end Sys2Proof.Machine
end

