-- ==== Sys2Proof/Laws/Segmenter.lean ====
section
/-! SUPPORT. The Segmenter in closed form (41_segmenter.md R130 to R133): the packets of `split` are the packets of the
message, one for each `MAX_PAYLOAD` bytes begun. -/

namespace Sys2Proof.Machine

theorem Cfg.maxPayload_bounds {cfg : Cfg} (h : cfg.WF) : 1 ≤ cfg.maxPayload ∧ cfg.maxPayload ≤ 255 ∧
    cfg.maxPayload + 11 = cfg.pktSize := by
  obtain ⟨h1, h2, -⟩ := h
  simp only [Cfg.maxPayload, Config.hdrSize]
  omega

/-- The 8-bit result is exact (R130). -/
theorem toNat_seglen {cfg : Cfg} (h : cfg.WF) (n : Nat) : (seglen cfg n).toNat = min n cfg.maxPayload := by
  have := Cfg.maxPayload_bounds h
  simp only [seglen, BitVec.toNat_ofNat]
  exact Nat.mod_eq_of_lt (by omega)

theorem packetCount_zero (cfg : Cfg) (h : cfg.WF) : packetCount cfg 0 = 0 := by
  have := Cfg.maxPayload_bounds h
  simp only [packetCount, Nat.zero_add]
  exact Nat.div_eq_of_lt (by omega)

theorem packetCount_succ (cfg : Cfg) (h : cfg.WF) {n : Nat} (hn : 0 < n) :
    packetCount cfg n = packetCount cfg (n - min n cfg.maxPayload) + 1 := by
  have hM := Cfg.maxPayload_bounds h
  unfold packetCount
  rcases Nat.le_total n cfg.maxPayload with hle | hle
  · rw [Nat.min_eq_left hle, Nat.sub_self, Nat.zero_add, Nat.div_eq_of_lt (a := cfg.maxPayload - 1) (by omega)]
    exact Nat.div_eq_of_lt_le (by omega) (by omega)
  · rw [Nat.min_eq_right hle]
    rw [show n + (cfg.maxPayload - 1) = n - cfg.maxPayload + (cfg.maxPayload - 1) + cfg.maxPayload by omega]
    exact Nat.add_div_right _ (by omega)

theorem splitFrom_eq {cfg : Cfg} (h : cfg.WF) (fuel : Nat) (seq : Seq) (msg : Message) (hf : msg.length ≤ fuel) :
    splitFrom cfg fuel seq msg = messagePackets cfg seq msg := by
  have hM := Cfg.maxPayload_bounds h
  induction fuel generalizing seq msg with
  | zero =>
    have : msg = [] := List.length_eq_zero_iff.mp (by omega)
    subst this
    simp [splitFrom, messagePackets, packetCount_zero cfg h]
  | succ fuel ih =>
    by_cases hm : msg = []
    · subst hm
      simp [splitFrom, messagePackets, packetCount_zero cfg h]
    · have hpos : 0 < msg.length := List.length_pos_iff.mpr hm
      rw [splitFrom, if_neg hm]
      simp only [toNat_seglen h]
      rw [ih (seq + 1) _ (by rw [List.length_drop]; omega)]
      simp only [messagePackets, List.length_drop]
      rw [packetCount_succ cfg h hpos, List.range_succ_eq_map, List.map_cons, List.map_map]
      have hhead : encodePacket cfg (msg.take (min msg.length cfg.maxPayload)) (seq + 1) 1 = messagePacket cfg seq msg 0 := by
        simp only [messagePacket, slice, Nat.zero_mul, List.drop_zero, Nat.zero_add]
        rw [Nat.min_comm, ← List.take_take, List.take_length]
        rfl
      refine congrArg₂ List.cons hhead (List.map_congr_left fun i _ => ?_)
      simp only [Function.comp, messagePacket, slice, List.drop_drop, Nat.succ_eq_add_one]
      rw [seq_succ_add]
      congr 2
      rcases Nat.le_total cfg.maxPayload msg.length with hle | hle
      · rw [Nat.min_eq_right hle, Nat.add_mul, Nat.one_mul, Nat.add_comm]
      · rw [Nat.min_eq_left hle, List.drop_eq_nil_of_le (by omega), List.drop_eq_nil_of_le (by rw [Nat.add_mul]; omega)]

/-- `split` yields the packets of the message (R131, R133). -/
theorem split_eq {cfg : Cfg} (h : cfg.WF) (seq : Seq) (msg : Message) : split cfg seq msg = messagePackets cfg seq msg :=
  splitFrom_eq h _ _ _ (Nat.le_refl _)

@[simp] theorem length_messagePackets (cfg : Cfg) (seq : Seq) (msg : Message) :
    (messagePackets cfg seq msg).length = packetCount cfg msg.length := by
  simp [messagePackets]

/-- A packet of the message: its size, and the number, ack and payload it carries. -/
theorem messagePacket_fields {cfg : Cfg} (h : cfg.WF) (seq : Seq) (msg : Message) (i : Nat) :
    (messagePacket cfg seq msg i).length = cfg.pktSize ∧
    seqOf cfg (messagePacket cfg seq msg i) = seq + BitVec.ofNat 32 (i + 1) ∧
    ackOf cfg (messagePacket cfg seq msg i) = 1 ∧
    payloadOf cfg (messagePacket cfg seq msg i) = slice msg (i * cfg.maxPayload) cfg.maxPayload := by
  have hM := Cfg.maxPayload_bounds h
  have hl : (slice msg (i * cfg.maxPayload) cfg.maxPayload).length + 11 ≤ cfg.pktSize := by
    rw [length_slice]
    omega
  exact ⟨length_encodePacket cfg _ _ _ hl, seqOf_encodePacket cfg _ _ _ hl, ackOf_encodePacket cfg _ _ _ hl,
    payloadOf_encodePacket cfg _ _ _ hl (by rw [length_slice]; omega)⟩

end Sys2Proof.Machine
end

