-- ==== Sys2Proof/Machine/Text.lean ====
section
/-! DEFINITION. The textual syntax of commands and actions (30_encoding.md R96): the mnemonic, then `name=value`
operands separated by commas in the operand order of the format. Numbers are printed in decimal and byte strings as
`h"..."`; R96 allows other spellings of the same values (log 17). No rule of the machine depends on it. -/

namespace Sys2Proof.Machine

/-- Two hexadecimal digits. -/
def hexByte (b : Byte) : String :=
  String.ofList [Nat.digitChar (b.toNat / 16), Nat.digitChar (b.toNat % 16)]

/-- A byte string as `h"..."`. -/
def hexText (bs : List Byte) : String := "h\"" ++ String.join (bs.map hexByte) ++ "\""

/-- The mnemonic of a command (R88). -/
def mnemonicText : Opcode → String
  | .csum => "CSUM"
  | .encode => "ENCODE"
  | .validate => "VALIDATE"
  | .seglen => "SEGLEN"
  | .sndInit => "SND_INIT"
  | .sndFinal => "SND_FINAL"
  | .sndMsg => "SND_MSG"
  | .sndPkt => "SND_PKT"
  | .sndTimer => "SND_TIMER"
  | .rcvInit => "RCV_INIT"
  | .rcvFinal => "RCV_FINAL"
  | .rcvPkt => "RCV_PKT"

/-- The operands of a command, `name=value` each; `len` and `plen` are never written (R96). -/
def operandTexts : Instr → List String
  | .csum data => ["data=" ++ hexText data]
  | .encode seq ack payload =>
    ["seq=" ++ toString seq.toNat, "ack=" ++ toString ack.toNat, "payload=" ++ hexText payload]
  | .validate pkt => ["pkt=" ++ hexText pkt]
  | .seglen remaining => ["remaining=" ++ toString remaining.toNat]
  | .sndInit => []
  | .sndFinal => []
  | .sndMsg now data => ["now=" ++ toString now.toNat, "data=" ++ hexText data]
  | .sndPkt now pkt => ["now=" ++ toString now.toNat, "pkt=" ++ hexText pkt]
  | .sndTimer now => ["now=" ++ toString now.toNat]
  | .rcvInit => []
  | .rcvFinal => []
  | .rcvPkt pkt => ["pkt=" ++ hexText pkt]

/-- A name and its operands as one line. -/
def lineText (name : String) (operands : List String) : String :=
  if operands = [] then name else name ++ " " ++ ", ".intercalate operands

/-- A command in the syntax of R96. -/
def commandText (i : Instr) : String := lineText (mnemonicText i.opcode) (operandTexts i)

/-- An action in the syntax of R96. -/
def actionText : Action → String
  | .toChannel pkt => lineText "TO_CHANNEL" ["pkt=" ++ hexText pkt]
  | .toApp data => lineText "TO_APP" ["data=" ++ hexText data]
  | .timerArm d => lineText "TIMER_ARM" ["d=" ++ toString d.toNat]
  | .timerDisarm => lineText "TIMER_DISARM" []
  | .fatal code => lineText "FATAL" ["code=" ++ toString code.code.toNat]
  | .err reason => lineText "ERR" ["reason=" ++ toString reason.code.toNat]
  | .result16 v => lineText "RESULT16" ["v=" ++ toString v.toNat]
  | .resultPkt pkt => lineText "RESULT_PKT" ["pkt=" ++ hexText pkt]

end Sys2Proof.Machine
end

