-- ==== Sys2Proof/Tests/Slice0.lean ====
section
/-! SUPPORT. The model's own tests: well-formedness refuses what a descriptor cannot say, descriptors written out from
the spec decode, single steps give what 95_test_vectors.md gives, and the hypotheses of every obligation can be met. Each
expected value is the spec's; the vector or rule is named beside it. -/

namespace Sys2Proof.Tests

open Sys2Proof.Machine

/-! ### Helpers -/

/-- The conventions of 95_test_vectors.md. -/
def cfg16 : Cfg := { pktSize := 16, timeout := 30, cc := .aimd 2 10, byteOrder := .le }

/-- The smallest legal packet size. -/
def cfg12 : Cfg := { cfg16 with pktSize := 12 }

/-- The largest legal packet size. -/
def cfg266 : Cfg := { cfg16 with pktSize := 266 }

def start : State := State.ofCfg cfg16

def stopped : State := { start with fatal := 1 }

def presented (d : List Byte) (s : State) : State := { s with input := [.command d] }

/-- The descriptors of the actions one descriptor is answered with. -/
def answers (d : List Byte) (s : State) : Option (List (List Byte)) :=
  match step (presented d s) with
  | .next t => some ((t.actions.drop s.actions.length).map (encodeAction s.cfg))
  | .fault _ => none
  | .refused _ => none

/-- A view of the state one descriptor leads to. -/
def leaves {α : Type} (view : State → α) (d : List Byte) (s : State) : Option α :=
  match step (presented d s) with
  | .next t => some (view t)
  | .fault _ => none
  | .refused _ => none

/-- `p1`, `p2`, `p3` of Program 2. -/
def p1 : Packet := [0x05, 1, 0, 0, 0, 1, 0, 0, 0, 0x78, 0x3a, 0x41, 0x41, 0x41, 0x41, 0x41]
def p2 : Packet := [0x05, 2, 0, 0, 0, 1, 0, 0, 0, 0x76, 0x36, 0x42, 0x42, 0x42, 0x42, 0x42]
def p3 : Packet := [0x05, 3, 0, 0, 0, 1, 0, 0, 0, 0x74, 0x32, 0x43, 0x43, 0x43, 0x43, 0x43]

/-- `A2` and `A4` of Program 2: the acks with values 2 and 4. -/
def a2 : Packet := [0, 0, 0, 0, 0, 2, 0, 0, 0, 0xff, 0xfd, 0, 0, 0, 0, 0]
def a4 : Packet := [0, 0, 0, 0, 0, 4, 0, 0, 0, 0xff, 0xfb, 0, 0, 0, 0, 0]

/-- The state after step 1 of Program 2. -/
def sending : State :=
  { start with
    seq := 3, highestSent := 2, window := [p1, p2], backlog := [p3], chain := [⟨1, 30⟩, ⟨2, 30⟩], tmr := some 30 }

/-- The state after step 6 of Program 2: two acks of value 2 have been counted, packet 3 is buffered. -/
def beforeThird : State :=
  { start with
    seq := 3, curAck := 2, highestSent := 3, wcap := 8, window := [p2, p3], chain := [⟨1, 30⟩, ⟨2, 30⟩, ⟨3, 35⟩]
    dupcnt := [(2, 2)], tmr := some 30, expected := 2, rbuf := [p3] }

/-- A state of the mode `Fixed(2)`: window full, one packet waiting. -/
def fixedSending : State :=
  { sending with cfg := { cfg16 with cc := .fixed 2 } }

/-! ### Well-formedness: each check refuses an ill-formed term -/

theorem test_wf_csum_length (data : Message) :
    (data.length = 65536 → Instr.wf cfg16 (.csum data) = false) ∧
    (data.length = 65535 → Instr.wf cfg16 (.csum data) = true) :=
  ⟨fun h => by simp [Instr.wf, h], fun h => by simp [Instr.wf, h]⟩

theorem test_wf_encode_length (data : Message) :
    (data.length = 256 → Instr.wf cfg16 (.encode 1 1 data) = false) ∧
    (data.length = 255 → Instr.wf cfg16 (.encode 1 1 data) = true) :=
  ⟨fun h => by simp [Instr.wf, h], fun h => by simp [Instr.wf, h]⟩

theorem test_wf_sndMsg_length (data : Message) :
    (data.length = 4294967296 → Instr.wf cfg16 (.sndMsg 0 data) = false) ∧
    (data.length = 4294967295 → Instr.wf cfg16 (.sndMsg 0 data) = true) :=
  ⟨fun h => by simp [Instr.wf, h], fun h => by simp [Instr.wf, h]⟩

theorem test_wf_validate_wrong_size : Instr.wf cfg16 (.validate (List.replicate 15 0)) = false := by decide

theorem test_wf_sndPkt_wrong_size : Instr.wf cfg16 (.sndPkt 0 (List.replicate 17 0)) = false := by decide

theorem test_wf_rcvPkt_wrong_size : Instr.wf cfg16 (.rcvPkt []) = false := by decide

theorem test_wf_packet_right_size : Instr.wf cfg16 (.rcvPkt p1) = true := by decide

/-! ### Decoding: one descriptor per command, written out from 30_encoding.md R85, R86, R88 -/

theorem test_decode_csum : decode cfg16 [0x01, 0x03, 0x00, 0x01, 0x02, 0x03] = .ok (.csum [1, 2, 3]) := rfl

theorem test_decode_encode : decode cfg16
    [0x02, 0x04, 0x03, 0x02, 0x01, 0x01, 0, 0, 0, 0x02, 0x68, 0x69] = .ok (.encode 0x01020304 1 [0x68, 0x69]) := rfl

theorem test_decode_validate : decode cfg16 (0x03 :: p1) = .ok (.validate p1) := rfl

theorem test_decode_seglen : decode cfg16 [0x04, 0x2c, 0x01, 0x00, 0x00] = .ok (.seglen 300) := rfl

theorem test_decode_sndInit : decode cfg16 [0x10] = .ok .sndInit := rfl

theorem test_decode_sndFinal : decode cfg16 [0x11] = .ok .sndFinal := rfl

theorem test_decode_sndMsg : decode cfg16
    [0x12, 0x06, 0, 0, 0, 0, 0, 0, 0, 0x01, 0, 0, 0, 0x78] = .ok (.sndMsg 6 [0x78]) := rfl

theorem test_decode_sndPkt : decode cfg16 ([0x13, 0x21, 0, 0, 0, 0, 0, 0, 0] ++ a2) = .ok (.sndPkt 33 a2) := rfl

theorem test_decode_sndTimer : decode cfg16 [0x14, 0x1e, 0, 0, 0, 0, 0, 0, 0] = .ok (.sndTimer 30) := rfl

theorem test_decode_rcvInit : decode cfg16 [0x20] = .ok .rcvInit := rfl

theorem test_decode_rcvFinal : decode cfg16 [0x21] = .ok .rcvFinal := rfl

theorem test_decode_rcvPkt : decode cfg16 (0x23 :: p1) = .ok (.rcvPkt p1) := rfl

/-- The same field with `BYTE_ORDER = BE` (R84). -/
theorem test_decode_be : decode { cfg16 with byteOrder := .be } [0x04, 0x00, 0x00, 0x01, 0x2c] = .ok (.seglen 300) := rfl

/-- V-E1 to V-E3. -/
theorem test_decode_illegal : ∀ d ∈ [[0x22], [0x00], [0x05], [0x15], [0x24], [0x7f], [0x81], [0xff], []],
    decode cfg16 d = .error .illegalOpcode := by decide

/-- V-E4 to V-E7. -/
theorem test_decode_badFormat : ∀ d ∈ [[0x14, 0x1e, 0, 0], [0x10, 0x00], 0x23 :: List.replicate 15 0,
    [0x12, 0, 0, 0, 0, 0, 0, 0, 0, 5, 0, 0, 0, 0x41, 0x42]], decode cfg16 d = .error .badFormat := by decide

/-- spec/opcode_table.json, column "match", with every operand bit 0. -/
theorem test_table_words :
    decodeTableWord 8 0x01 = some (.csum []) ∧ decodeTableWord 8 0x02 = some (.encode 0 0 []) ∧
    decodeTableWord 8 0x04 = some (.seglen 0) ∧ decodeTableWord 8 0x10 = some .sndInit ∧
    decodeTableWord 8 0x11 = some .sndFinal ∧ decodeTableWord 8 0x12 = some (.sndMsg 0 []) ∧
    decodeTableWord 8 0x14 = some (.sndTimer 0) ∧ decodeTableWord 8 0x20 = some .rcvInit ∧
    decodeTableWord 8 0x21 = some .rcvFinal ∧ decodeTableWord 8 0x22 = none := by decide

/-- The three rows with a packet operand: `PKT_SIZE` bytes, here zeros. -/
theorem test_table_words_packet :
    decodeTableWord 8 0x03 = some (.validate (List.replicate 100 0)) ∧
    decodeTableWord 8 0x13 = some (.sndPkt 0 (List.replicate 100 0)) ∧
    decodeTableWord 8 0x23 = some (.rcvPkt (List.replicate 100 0)) := by decide

/-- A word with operand bits: bytes 1 to 4 are bits 39..8. -/
theorem test_table_word_operands : decodeTableWord 40 0x000000012c04 = some (.seglen 300) := by decide

/-- R88, column "mnemonic", of every row. -/
theorem test_mnemonics : opcodeTable.map OpcodeRow.mnemonic =
    ["CSUM", "ENCODE", "VALIDATE", "SEGLEN", "SND_INIT", "SND_FINAL", "SND_MSG", "SND_PKT", "SND_TIMER", "RCV_INIT",
      "RCV_FINAL", "RCV_PKT"] := rfl

/-- The first step after reset runs the word's command: `SND_TIMER 0` with an empty chain (43_timer_chain.md R154). -/
theorem test_withFetchWord : step (State.reset.withFetchWord 8 0x14) =
    .next { State.reset with fatal := 1, actions := [.fatal .timerEmpty] } := rfl

/-! ### One step each: 95_test_vectors.md -/

/-- V-C5. -/
theorem test_csum : answers [0x01, 0x03, 0x00, 0x01, 0x02, 0x03] start = some [[0x87, 0xfb, 0xfd]] := by decide

/-- V-C15: two folds. -/
theorem test_csum_two_folds :
    answers [0x01, 0x06, 0x00, 0xff, 0xff, 0xff, 0xff, 0x01, 0x00] start = some [[0x87, 0xfe, 0xff]] := by decide

/-- V-C39. -/
theorem test_encode : answers [0x02, 1, 0, 0, 0, 1, 0, 0, 0, 5, 0x41, 0x42, 0x43, 0x44, 0x45] start =
    some [[0x88, 0x05, 1, 0, 0, 0, 1, 0, 0, 0, 0x74, 0x34, 0x41, 0x42, 0x43, 0x44, 0x45]] := by decide

/-- V-C40. -/
theorem test_encode_too_long : answers [0x02, 1, 0, 0, 0, 1, 0, 0, 0, 6, 0x41, 0x42, 0x43, 0x44, 0x45, 0x46] start =
    some [[0x86, 0x03]] := by decide

/-- V-C41 with the packet of V-C20. -/
theorem test_validate : answers
    [0x03, 0x05, 1, 0, 0, 0, 1, 0, 0, 0, 0x74, 0x34, 0x41, 0x42, 0x43, 0x44, 0x45] start = some [[0x87, 1, 0]] := by
  decide

/-- V-C34: the length test alone rejects. -/
theorem test_validate_length : answers
    [0x03, 0x06, 2, 0, 0, 0, 1, 0, 0, 0, 0x7f, 0x82, 0x7a, 0x7a, 0, 0, 0] start = some [[0x87, 0, 0]] := by decide

/-- Program 5, step 2. -/
theorem test_seglen : answers [0x04, 0x0c, 0, 0, 0] start = some [[0x87, 5, 0]] := by decide

/-- V-S2: 0xFFFFFFFF remaining. -/
theorem test_seglen_largest : answers [0x04, 0xff, 0xff, 0xff, 0xff] { start with cfg := { cfg16 with pktSize := 100 } } =
    some [[0x87, 89, 0]] := by decide

/-- V-L2. -/
theorem test_sndInit : leaves id [0x10] sending = some { start with actions := [.timerDisarm] } := by decide

/-- V-L3. -/
theorem test_sndFinal : leaves id [0x11] sending = some { start with actions := [.timerDisarm] } := by decide

/-- Program 2, step 1. -/
theorem test_sndMsg : leaves (fun t => { t with actions := [] })
    [0x12, 0, 0, 0, 0, 0, 0, 0, 0, 15, 0, 0, 0, 0x41, 0x41, 0x41, 0x41, 0x41, 0x42, 0x42, 0x42, 0x42, 0x42,
      0x43, 0x43, 0x43, 0x43, 0x43] start = some sending := by decide

/-- V-S8. -/
theorem test_sndMsg_exhausted : answers [0x12, 0, 0, 0, 0, 0, 0, 0, 0, 6, 0, 0, 0, 1, 2, 3, 4, 5, 6]
    { start with seq := 0xFFFFFFFD } = some [[0x86, 0x04]] := by decide

/-- Program 2, step 7: the fast retransmit, its deadline cancelled, `WCAP` 8 to 4 to 8. -/
theorem test_sndPkt_third : leaves id ([0x13, 0x0c, 0, 0, 0, 0, 0, 0, 0] ++ a2) beforeThird =
    some { beforeThird with dupcnt := [], chain := [⟨1, 30⟩, ⟨3, 35⟩], actions := [.toChannel p2] } := by decide

/-- Program 2, step 3: evict, refill, raise `WCAP`. -/
theorem test_sndPkt_advance : leaves id ([0x13, 0x05, 0, 0, 0, 0, 0, 0, 0] ++ a2) sending =
    some { sending with
      curAck := 2, window := [p2, p3], backlog := [], chain := [⟨1, 30⟩, ⟨2, 30⟩, ⟨3, 35⟩], highestSent := 3, wcap := 4
      dupcnt := [(2, 1)], actions := [.toChannel p3] } := by decide

/-- 43_timer_chain.md R153, R155, R157: the live head is sent again and goes to the tail; the next head is due at once. -/
theorem test_sndTimer_live : leaves id [0x14, 30, 0, 0, 0, 0, 0, 0, 0] { sending with wcap := 8 } =
    some { sending with chain := [⟨2, 30⟩, ⟨1, 60⟩], actions := [.toChannel p1, .timerArm 0] } := by decide

/-- 43_timer_chain.md R156, the example. -/
theorem test_sndTimer_stale : leaves id [0x14, 30, 0, 0, 0, 0, 0, 0, 0]
    { start with curAck := 4, chain := [⟨1, 30⟩, ⟨3, 35⟩], tmr := some 30 } =
    some { start with curAck := 4, chain := [⟨3, 35⟩], tmr := some 35, actions := [.timerArm 5] } := by decide

/-- V-L4. -/
theorem test_rcvInit : leaves id [0x20] { sending with expected := 7, rbuf := [p3] } = some sending := by decide

/-- V-L4. -/
theorem test_rcvFinal : leaves id [0x21] { sending with expected := 7, rbuf := [p3] } = some sending := by decide

/-- Program 2, step 8: delivery, drain, one ack after all deliveries. -/
theorem test_rcvPkt_drain : leaves id (0x23 :: p2) { start with expected := 2, rbuf := [p3] } =
    some { start with
      expected := 4
      actions := [.toApp [0x42, 0x42, 0x42, 0x42, 0x42], .toApp [0x43, 0x43, 0x43, 0x43, 0x43], .toChannel a4] } := by
  decide

/-- V-R6: sequence number 0xFFFFFFFF is never buffered. -/
theorem test_rcvPkt_last : leaves id
    [0x23, 0x02, 0xff, 0xff, 0xff, 0xff, 1, 0, 0, 0, 0x83, 0x84, 0x7a, 0x7a, 0, 0, 0] { start with expected := 2 } =
    some { start with expected := 2, actions := [.toChannel a2] } := by decide

/-- V-E8 to V-E11: while `FATAL` is 1; the opcode check comes first. -/
theorem test_halted :
    answers [0x12, 6, 0, 0, 0, 0, 0, 0, 0, 1, 0, 0, 0, 0x78] stopped = some [[0x86, 5]] ∧
    answers [0x22] stopped = some [[0x86, 1]] ∧ answers [0x10] stopped = some [[0x86, 5]] := by decide

/-- Program 4, step 1, and hardware reset (70_reset_and_hazards.md R240). -/
theorem test_fatal_and_reset : answers [0x14, 5, 0, 0, 0, 0, 0, 0, 0] start = some [[0x85, 1]] ∧
    step { sending with fatal := 1, input := [.reset] } = .next start := ⟨by decide, rfl⟩

/-- The two packet anchors for `BYTE_ORDER = BE` (95_test_vectors.md 2.1). -/
theorem test_encodePacket_be :
    encodePacket { cfg16 with byteOrder := .be } [0x41, 0x42, 0x43, 0x44, 0x45] 1 1 =
      [0x05, 0, 0, 0, 1, 0, 0, 0, 1, 0x72, 0x36, 0x41, 0x42, 0x43, 0x44, 0x45] ∧
    encodePacket { cfg16 with byteOrder := .be } [] 0 2 =
      [0, 0, 0, 0, 0, 0, 0, 0, 2, 0xfd, 0xff, 0, 0, 0, 0, 0] := by decide

/-- R96's examples of a command and an action. -/
theorem test_text : commandText (.sndMsg 0 [0x48, 0x49]) = "SND_MSG now=0, data=h\"4849\"" ∧
    actionText (.timerArm 30) = "TIMER_ARM d=30" ∧ commandText .sndInit = "SND_INIT" := by decide

/-! ### The hypotheses of the obligations can be met

One theorem per obligation that has hypotheses, named after it: concrete operands and states that meet all of them, at a
boundary for each clause. -/

theorem witness_DecodeInvertsEncode : Instr.wf cfg16 (.encode 0xFFFFFFFF 0 [1, 2, 3, 4, 5, 6]) = true ∧
    Instr.wf cfg12 (.rcvPkt (List.replicate 12 0xFF)) = true ∧ Instr.wf cfg16 (.sndMsg 0xFFFFFFFFFFFFFFFF []) = true := by
  decide

theorem witness_EncodeInvertsDecode :
    decode cfg16 [0x02, 0xff, 0xff, 0xff, 0xff, 0, 0, 0, 0, 0] = .ok (.encode 0xFFFFFFFF 0 []) := rfl

theorem witness_UnlistedOpcodeIsRefused :
    (∃ s : State, s.input = .command [0x22, 0x00] :: [] ∧ ∀ b, ([0x22, 0x00] : List Byte).head? = some b →
      b ∉ ([0x01, 0x02, 0x03, 0x04, 0x10, 0x11, 0x12, 0x13, 0x14, 0x20, 0x21, 0x23] : List Byte)) ∧
    ∃ s : State, s.input = .command [] :: [] ∧ ∀ b, ([] : List Byte).head? = some b →
      b ∉ ([0x01, 0x02, 0x03, 0x04, 0x10, 0x11, 0x12, 0x13, 0x14, 0x20, 0x21, 0x23] : List Byte) := by
  refine ⟨⟨presented [0x22, 0x00] start, rfl, ?_⟩, ⟨presented [] start, rfl, by simp⟩⟩
  intro b h
  cases h
  decide

theorem witness_WrongLengthIsRefused :
    ((presented [0x10, 0x00] start).input = .command [0x10, 0x00] :: [] ∧ requiredLength cfg16 [0x10, 0x00] = some 1 ∧
      ([0x10, 0x00] : List Byte).length ≠ 1) ∧
    requiredLength cfg16 [0x14, 0x1e, 0, 0] = some 9 ∧
    start.fatal = 0 ∧ ([1, 2, 3, 4, 5, 6] : Message).length < 256 ∧
    start.cfg.maxPayload < ([1, 2, 3, 4, 5, 6] : Message).length := by decide

theorem witness_ActionDescriptorLayouts : ([1, 2, 3] : Message).length < 2 ^ 32 := by decide

theorem witness_StepRunsDecodedCommand :
    (let d : List Byte := [0x14, 0, 0, 0, 0, 0, 0, 0, 0]
     (presented d start).input = .command d :: [] ∧ decode cfg16 d = .ok (.sndTimer 0)) ∧
    (presented [0x10] start).input = .command [0x10] :: [] ∧ decode cfg16 [0x10] = .ok .sndInit ∧
    { start with input := [.reset] }.input = .reset :: [] ∧ start.input = [] := ⟨⟨rfl, rfl⟩, rfl, rfl, rfl, rfl⟩

/-- The checksum field of the smallest packet, and the last offset of each width. -/
theorem witness_AccessorsWeighBytes : 9 + 2 ≤ (p1.take 12).length ∧ 11 + 1 ≤ (p1.take 12).length ∧
    10 + 2 ≤ (p1.take 12).length ∧ 8 + 4 ≤ (p1.take 12).length := by decide

theorem witness_AccessorsReadBackAndFrame : 15 + 1 ≤ p1.length ∧ 14 + 2 ≤ p1.length ∧ 12 + 4 ≤ p1.length ∧ 0 + 4 ≤ p1.length := by
  decide

theorem witness_ChecksumIgnoresWordOrder :
    ([] : List Byte).length % 2 = 0 ∧ ([0x01, 0x02] : List Byte).length % 2 = 0 := by decide

/-- The largest payload of the smallest packet; the empty payload; no payload of the largest packet. -/
theorem witness_EncodedPacketValidatesAndReadsBack :
    cfg12.WF ∧ ([0x5a] : Message).length ≤ cfg12.maxPayload ∧ cfg266.WF ∧ ([] : Message).length ≤ cfg266.maxPayload := by
  decide

theorem witness_EncodedPacketLayout :
    cfg16.WF ∧ ([1, 2, 3] : Message).length ≤ cfg16.maxPayload ∧ 11 + ([1, 2, 3] : Message).length ≤ 15 ∧
    15 < cfg16.pktSize := by decide

theorem witness_SingleBitFlipIsDetected :
    cfg12.WF ∧ ([0x5a] : Message).length ≤ cfg12.maxPayload ∧ 11 < cfg12.pktSize ∧ 7 < 8 := by decide

/-- The direct commands and the lifecycle commands: a running and a halted engine. -/
theorem witness_CsumAnswersChecksum : start.fatal = 0 ∧ stopped.fatal ≠ 0 := by decide

theorem witness_EncodeAnswersPacket : start.fatal = 0 ∧ stopped.fatal ≠ 0 ∧
    ([1, 2, 3, 4, 5] : Message).length ≤ start.cfg.maxPayload ∧
    start.cfg.maxPayload < ([1, 2, 3, 4, 5, 6] : Message).length := by decide

/-- V-C20, V-C34 (the length byte alone), V-C31 (the checksum alone). -/
theorem witness_ValidateAnswersVerdict :
    start.fatal = 0 ∧ stopped.fatal ≠ 0 ∧ (lenOf cfg16 p1).toNat ≤ cfg16.maxPayload ∧
    checksum16 .le (p1.take 9 ++ [0, 0] ++ p1.drop 11) = csumOf cfg16 p1 ∧
    cfg16.maxPayload < (lenOf cfg16 [0x06, 2, 0, 0, 0, 1, 0, 0, 0, 0x7f, 0x82, 0x7a, 0x7a, 0, 0, 0]).toNat ∧
    checksum16 .le ((p1.set 12 0x61).take 9 ++ [0, 0] ++ (p1.set 12 0x61).drop 11) ≠ csumOf cfg16 (p1.set 12 0x61) := by
  decide

theorem witness_SegLenAnswersMinimum : cfg16.WF ∧ start.fatal = 0 ∧ stopped.fatal ≠ 0 := by decide

theorem witness_SenderLifecycleResetsHalf : sending.fatal = 0 ∧ sending.chain ≠ [] ∧ start.chain = [] ∧
    sending.cfg.cc = .aimd 2 10 ∧ fixedSending.cfg.cc = .fixed 2 ∧ stopped.fatal ≠ 0 := by decide

theorem witness_ReceiverLifecycleResetsHalf : beforeThird.fatal = 0 ∧ stopped.fatal ≠ 0 := by decide

theorem witness_HaltedUntilReset : stopped.fatal ≠ 0 ∧
    (presented [0x10] stopped).input = .command [0x10] :: [] ∧
    step (presented [0x10] stopped) = .next { stopped with actions := [.err .halted] } ∧
    { stopped with input := [.reset] }.input = .reset :: [] := ⟨by decide, rfl, rfl, rfl⟩

theorem witness_HardwareResetRestoresAll : { sending with input := [.reset] }.input = .reset :: [] ∧
    sending.cfg.cc = .aimd 2 10 ∧ fixedSending.cfg.cc = .fixed 2 ∧ stopped.fatal ≠ 0 ∧
    step { stopped with input := [.reset] } = .next start ∧ start.fatal = 0 ∧
    State.reset.cfg.cc = .aimd 2 10 := ⟨rfl, rfl, rfl, by decide, rfl, rfl, rfl⟩

/-- A message that ends exactly at the last number, and one packet count below. -/
theorem witness_SplitNumbersSizesReassembles : cfg16.WF ∧
    (0xFFFFFFFC : Seq).toNat + packetCount cfg16 ([1, 2, 3, 4, 5, 6] : Message).length ≤ Config.lastSeq := by decide

theorem witness_SndMsgSendsThenBacklogs : start.cfg.WF ∧ start.fatal = 0 ∧
    start.seq.toNat + packetCount start.cfg ([1, 2, 3, 4, 5, 6] : Message).length ≤ Config.lastSeq ∧
    DeadlineFits 0 start := by decide

theorem witness_SndMsgRefusedWhenNumbersRunOut : start.fatal = 0 ∧
    0xFFFFFFFE < { start with seq := 0xFFFFFFFD }.seq.toNat
      + packetCount start.cfg ([1, 2, 3, 4, 5, 6] : Message).length := by decide

/-- The last clock reading whose deadline fits; an empty and a non-empty chain. -/
theorem witness_ScheduleAppendsAtTail : (0xFFFFFFFFFFFFFFE1 : Time).toNat + start.cfg.timeout.toNat < 2 ^ 64 ∧
    start.chain = [] ∧ sending.chain ≠ [] := by decide

/-- A number no entry has; the only entry; the head of two; the second of two. -/
theorem witness_CancelRemovesFirstMatch :
    (∀ e ∈ sending.chain, e.seq ≠ 7) ∧
    ({ start with chain := [⟨7, 90⟩] }.chain = [] ++ ⟨7, 90⟩ :: []) ∧
    (sending.chain = [] ++ ⟨1, 30⟩ :: [⟨2, 30⟩]) ∧
    (sending.chain = [⟨1, 30⟩] ++ ⟨2, 30⟩ :: [] ∧ ∀ e' ∈ [(⟨1, 30⟩ : ChainEntry)], e'.seq ≠ 2) := by decide

theorem witness_SndTimerOnEmptyChainIsFatal : start.fatal = 0 ∧ start.chain = [] := by decide

/-- A chain of two and a chain of one. -/
theorem witness_SndTimerRetransmitsLiveEntry : sending.fatal = 0 ∧ sending.chain = ⟨1, 30⟩ :: [⟨2, 30⟩] ∧
    sending.curAck ≤ 1 ∧ sending.window.find? (fun p => seqOf sending.cfg p == 1) = some p1 ∧
    { sending with chain := [⟨1, 30⟩] }.chain = ⟨1, 30⟩ :: [] ∧ (30 : Time).toNat + cfg16.timeout.toNat < 2 ^ 64 := by
  decide

theorem witness_SndTimerLookupMissIsFatal : start.fatal = 0 ∧ { start with chain := [⟨1, 30⟩] }.chain = ⟨1, 30⟩ :: [] ∧
    start.curAck ≤ 1 ∧ ∀ p ∈ start.window, seqOf start.cfg p ≠ 1 := by decide

/-- V-W7 and R156: a stale entry alone, and before another. -/
theorem witness_SndTimerDiscardsStaleEntry : beforeThird.fatal = 0 ∧
    beforeThird.chain = ⟨1, 30⟩ :: [⟨2, 30⟩, ⟨3, 35⟩] ∧ (1 : Seq) < beforeThird.curAck ∧
    { beforeThird with chain := [⟨1, 30⟩] }.chain = ⟨1, 30⟩ :: [] := by decide

/-- An entry removed by a fast retransmit, by the timer, and by `SND_INIT`. -/
theorem witness_ChainEntriesLeaveLazily :
    (∃ t, exec (.sndPkt 12 a2) beforeThird = .next t ∧ ⟨2, 30⟩ ∈ beforeThird.chain ∧ ⟨2, 30⟩ ∉ t.chain) ∧
    (∃ t, exec (.sndTimer 30) beforeThird = .next t ∧ ⟨1, 30⟩ ∈ beforeThird.chain ∧ ⟨1, 30⟩ ∉ t.chain) ∧
    ∃ t, exec .sndInit beforeThird = .next t ∧ ⟨3, 35⟩ ∈ beforeThird.chain ∧ ⟨3, 35⟩ ∉ t.chain :=
  ⟨⟨_, rfl, by decide, by decide⟩, ⟨_, rfl, by decide, by decide⟩, ⟨_, rfl, by decide, by decide⟩⟩

theorem deadlinesOk_sending : DeadlinesOk 5 sending := ⟨by decide, by decide⟩

theorem witness_DeadlinesStayOrdered :
    DeadlinesOk 5 sending ∧ ClockOk 5 (.sndPkt 5 a2) sending ∧ ∃ t, exec (.sndPkt 5 a2) sending = .next t :=
  ⟨deadlinesOk_sending, by intro now h; cases h; decide, _, rfl⟩

theorem engineInv_sending : EngineInv sending where
  cfgOk := by decide
  sizes := ⟨by decide, by decide, by decide⟩
  sequencing := ⟨by decide, by decide, by decide, by decide, by decide, by decide, by decide⟩
  chainOk := ⟨by decide, by decide, by decide⟩
  capacity := ⟨by decide, (by intro c h; cases h), by decide⟩
  receiver := ⟨by decide, by decide, by decide, by decide⟩
  dup := ⟨by decide, by decide⟩
  latch := ⟨by decide, by decide⟩

theorem engineInv_beforeThird : EngineInv beforeThird where
  cfgOk := by decide
  sizes := ⟨by decide, by decide, by decide⟩
  sequencing := ⟨by decide, by decide, by decide, by decide, by decide, by decide, by decide⟩
  chainOk := ⟨by decide, by decide, by decide⟩
  capacity := ⟨by decide, (by intro c h; cases h), by decide⟩
  receiver := ⟨by decide, by decide, by decide, by decide⟩
  dup := ⟨by decide, by decide⟩
  latch := ⟨by decide, by decide⟩

theorem engineInv_fixedSending : EngineInv fixedSending where
  cfgOk := by decide
  sizes := ⟨by decide, by decide, by decide⟩
  sequencing := ⟨by decide, by decide, by decide, by decide, by decide, by decide, by decide⟩
  chainOk := ⟨by decide, by decide, by decide⟩
  capacity := ⟨by decide, (by intro c h; cases h; rfl), by decide⟩
  receiver := ⟨by decide, by decide, by decide, by decide⟩
  dup := ⟨by decide, by decide⟩
  latch := ⟨by decide, by decide⟩

/-- What a port event keeps of the invariant: it reads neither the pending input nor the actions. -/
theorem engineInv_presented {s : State} (h : EngineInv s) (input : List PortEvent) : EngineInv { s with input := input } :=
  ⟨h.cfgOk, ⟨h.sizes.1, h.sizes.2, h.sizes.3⟩,
    ⟨h.sequencing.1, h.sequencing.2, h.sequencing.3, h.sequencing.4, h.sequencing.5, h.sequencing.6, h.sequencing.7⟩,
    ⟨h.chainOk.1, h.chainOk.2, h.chainOk.3⟩, ⟨h.capacity.1, h.capacity.2, h.capacity.3⟩,
    ⟨h.receiver.1, h.receiver.2, h.receiver.3, h.receiver.4⟩, ⟨h.dup.1, h.dup.2⟩, ⟨h.latch.1, h.latch.2⟩⟩

/-- `SND_TIMER 30`, the descriptor of Program 1, step 3. -/
def fire30 : List Byte := [0x14, 0x1e, 0, 0, 0, 0, 0, 0, 0]

theorem witness_TimerServesEarliestDeadline :
    EngineInv (presented fire30 sending) ∧ TimerServesHead 0 (presented fire30 sending) ∧
    (∀ d rest i, (presented fire30 sending).input = .command d :: rest → decode cfg16 d = .ok i →
      ClockOk 0 i (presented fire30 sending)) ∧ ∃ t, step (presented fire30 sending) = .next t := by
  refine ⟨engineInv_presented engineInv_sending _, ?_, ?_, _, rfl⟩
  · intro e rest h
    cases h
    exact ⟨30, rfl, by decide, by decide⟩
  · intro d rest i h hd now hn
    cases h
    cases hd
    cases hn
    decide

theorem witness_AimdUpdatesCapacityOnly : start.cfg.cc = .aimd 2 10 ∧ fixedSending.cfg.cc = .fixed 2 := ⟨rfl, rfl⟩

/-- A corrupt ack, and one packet more than `HIGHEST_SENT + 1`. -/
theorem witness_SndPktDropsCorruptAndInvalid : sending.fatal = 0 ∧ validate cfg16 (a2.set 5 3) = false ∧
    sending.highestSent.toNat + 1 < (ackOf cfg16 a4).toNat := by decide

/-- The third ack of a value, an advancing ack, and `HIGHEST_SENT + 1`. -/
theorem witness_SndPktProcessesAcceptedAck :
    (beforeThird.fatal = 0 ∧ validate cfg16 a2 = true ∧ (ackOf cfg16 a2).toNat ≤ beforeThird.highestSent.toNat + 1 ∧
      DupWf beforeThird.dupcnt ∧ dupGet beforeThird.dupcnt (ackOf cfg16 a2) = 2) ∧
    (ackOf cfg16 a4).toNat ≤ beforeThird.highestSent.toNat + 1 ∧ validate cfg16 a4 = true ∧
    beforeThird.curAck < ackOf cfg16 a4 ∧ DeadlineFits 12 beforeThird := by decide

theorem witness_FastRetransmitLeavesNoDeadline : EngineInv beforeThird ∧ beforeThird.fatal = 0 ∧
    validate cfg16 a2 = true ∧ (ackOf cfg16 a2).toNat ≤ beforeThird.highestSent.toNat + 1 ∧
    dupGet beforeThird.dupcnt (ackOf cfg16 a2) = 2 ∧ p2 ∈ beforeThird.window ∧ seqOf cfg16 p2 = ackOf cfg16 a2 ∧
    ∃ t, exec (.sndPkt 12 a2) beforeThird = .next t :=
  ⟨engineInv_beforeThird, by decide, by decide, by decide, by decide, by decide, by decide, _, rfl⟩

theorem witness_RcvPktAcksUnlessCorrupt : start.fatal = 0 ∧ validate cfg16 (p1.set 12 0x61) = false ∧
    validate cfg16 p1 = true ∧ stopped.fatal ≠ 0 := by decide

theorem witness_RcvPktInOrderDeliversRun : beforeThird.fatal = 0 ∧ validate cfg16 p2 = true ∧
    seqOf cfg16 p2 = beforeThird.expected ∧ beforeThird.expected ≠ 0xFFFFFFFF := by decide

theorem receiverOk_start : ReceiverOk start := ⟨by decide, by decide, by decide, by decide⟩

theorem witness_RcvPktAheadIsBuffered : start.fatal = 0 ∧ ReceiverOk start ∧ validate cfg16 p3 = true ∧
    start.expected < seqOf cfg16 p3 ∧ seqOf cfg16 p3 ≠ 0xFFFFFFFF ∧ seqOf cfg16 p3 ∉ seqs cfg16 start.rbuf :=
  ⟨by decide, receiverOk_start, by decide, by decide, by decide, by decide⟩

/-- A stale packet, a buffered one, and the number 0xFFFFFFFF (V-R6). -/
theorem witness_RcvPktSkippedIsAcked : beforeThird.fatal = 0 ∧ ReceiverOk beforeThird ∧
    (validate cfg16 p1 = true ∧ seqOf cfg16 p1 < beforeThird.expected) ∧
    (validate cfg16 p3 = true ∧ seqOf cfg16 p3 ∈ seqs cfg16 beforeThird.rbuf) ∧
    let last : Packet := [0x02, 0xff, 0xff, 0xff, 0xff, 1, 0, 0, 0, 0x83, 0x84, 0x7a, 0x7a, 0, 0, 0]
    validate cfg16 last = true ∧ seqOf cfg16 last = 0xFFFFFFFF :=
  ⟨by decide, engineInv_beforeThird.receiver, by decide, by decide, by decide⟩

/-- Three packets that arrive backwards, with a repetition, a corrupt packet and a stale one (`A2`, numbered 0). -/
theorem witness_ArrivalOrderDoesNotMatter :
    let ps := [p1, p2, p3]
    let arrivals := [p3, p2, p3, p1.set 12 0x61, a2, p1]
    start.fatal = 0 ∧ start.rbuf = [] ∧ 1 ≤ start.expected.toNat ∧ start.expected.toNat + ps.length ≤ 0xFFFFFFFF ∧
    (∀ i (h : i < ps.length), validate cfg16 ps[i] = true ∧ (seqOf cfg16 ps[i]).toNat = start.expected.toNat + i) ∧
    (∀ p ∈ arrivals, p ∈ ps ∨ validate cfg16 p = false ∨ (seqOf cfg16 p).toNat < start.expected.toNat) ∧
    ∀ p ∈ ps, p ∈ arrivals := by
  decide

/-- The message of Program 2. -/
theorem witness_MessageSurvivesTheChannel :
    let data : Message := [0x41, 0x41, 0x41, 0x41, 0x41, 0x42, 0x42, 0x42, 0x42, 0x42, 0x43, 0x43, 0x43, 0x43, 0x43]
    let arrivals := [p3, p1.set 12 0x61, p2, p3, p1]
    cfg16.WF ∧ start.rbuf = [] ∧ start.fatal = 0 ∧ start.expected.toNat = start.seq.toNat + 1 ∧
    start.seq.toNat + packetCount cfg16 data.length ≤ Config.lastSeq ∧
    (∀ p ∈ arrivals, p ∈ split cfg16 start.seq data ∨ validate cfg16 p = false) ∧
    ∀ p ∈ split cfg16 start.seq data, p ∈ arrivals := by
  decide

theorem witness_ResetMeetsEngineInv : cfg12.WF ∧ cfg266.WF ∧ fixedSending.cfg.WF := by decide

theorem witness_EveryStepKeepsEngineInv :
    EngineInv (presented fire30 sending) ∧ ∃ t, step (presented fire30 sending) = .next t :=
  ⟨engineInv_presented engineInv_sending _, _, rfl⟩

/-- A packet waits behind a full window; the next command resends the oldest packet. -/
theorem witness_OrderHoldsWithoutBypass :
    (EngineInv (presented fire30 sending) ∧ OrderOk (presented fire30 sending) ∧
      (∀ d rest i, (presented fire30 sending).input = .command d :: rest → decode cfg16 d = .ok i →
        NoBypass i (presented fire30 sending)) ∧ ∃ t, step (presented fire30 sending) = .next t) ∧
    (presented fire30 fixedSending).cfg.cc = .fixed 2 ∧ EngineInv (presented fire30 fixedSending) ∧
    OrderOk (presented fire30 fixedSending) ∧ FullOk (presented fire30 fixedSending) ∧
    ∃ t, step (presented fire30 fixedSending) = .next t :=
  ⟨⟨engineInv_presented engineInv_sending _, ⟨by decide, by decide, by decide⟩,
      fun _ _ _ _ _ _ _ _ => .inr (by decide), _, rfl⟩,
    rfl, engineInv_presented engineInv_fixedSending _, ⟨by decide, by decide, by decide⟩, fun _ => by decide, _, rfl⟩

theorem witness_CountersNeverDecrease : EngineInv beforeThird ∧
    (∃ t, exec (.sndPkt 12 a4) beforeThird = .next t) ∧ ∃ t, exec (.rcvPkt p2) beforeThird = .next t :=
  ⟨engineInv_beforeThird, ⟨_, rfl⟩, _, rfl⟩

theorem witness_WellBehavedHostNeverHalts :
    EngineInv (presented fire30 sending) ∧ (presented fire30 sending).fatal = 0 ∧
    (∀ d rest i, (presented fire30 sending).input = .command d :: rest → decode cfg16 d = .ok i →
      FiringOk i (presented fire30 sending)) ∧ ∃ t, step (presented fire30 sending) = .next t := by
  refine ⟨engineInv_presented engineInv_sending _, rfl, ?_, _, rfl⟩
  intro d rest i h hd now hn
  cases h
  cases hd
  cases hn
  exact ⟨30, rfl, by decide⟩

/-- After V-W5 in small: packet 3 was sent past the waiting packet 2, and the ack 4 covers both. -/
def bypassed : State :=
  { start with
    seq := 3, highestSent := 3, window := [p1, p3], backlog := [p2], chain := [⟨1, 30⟩, ⟨3, 30⟩], tmr := some 30 }

theorem engineInv_bypassed : EngineInv bypassed where
  cfgOk := by decide
  sizes := ⟨by decide, by decide, by decide⟩
  sequencing := ⟨by decide, by decide, by decide, by decide, by decide, by decide, by decide⟩
  chainOk := ⟨by decide, by decide, by decide⟩
  capacity := ⟨by decide, (by intro c h; cases h), by decide⟩
  receiver := ⟨by decide, by decide, by decide, by decide⟩
  dup := ⟨by decide, by decide⟩
  latch := ⟨by decide, by decide⟩

/-- `SND_PKT` of the ack 4. -/
def ack4 : List Byte := [0x13, 5, 0, 0, 0, 0, 0, 0, 0] ++ a4

theorem witness_AckedPacketsEnterWindowOnlyFromBacklog :
    EngineInv (presented ack4 bypassed) ∧ ∃ t, step (presented ack4 bypassed) = .next t ∧ p2 ∈ t.window ∧
      seqOf t.cfg p2 < t.curAck :=
  ⟨engineInv_presented engineInv_bypassed _, _, rfl, by decide, by decide⟩

theorem witness_CommandsWriteOnlyTheirColumns : (∃ t, exec (.sndTimer 30) sending = .next t) ∧
    (∃ t, exec (.rcvPkt p1) sending = .next t) ∧ ∃ t, exec (.csum []) sending = .next t := ⟨⟨_, rfl⟩, ⟨_, rfl⟩, _, rfl⟩

/-- The same sender with two different receivers; the same receiver with two different senders. -/
theorem witness_HalvesDoNotInteract :
    let s' := { sending with expected := 9, actions := [.timerDisarm] }
    (s'.cfg = sending.cfg ∧ s'.fatal = sending.fatal ∧ halfOf (.sndTimer 30) = .sender ∧ SameSender sending s' ∧
      (∃ t, exec (.sndTimer 30) sending = .next t) ∧ ∃ t', exec (.sndTimer 30) s' = .next t') ∧
    start.cfg = sending.cfg ∧ start.fatal = sending.fatal ∧ halfOf (.rcvPkt p1) = .receiver ∧
    SameReceiver sending start ∧ (∃ t, exec (.rcvPkt p1) sending = .next t) ∧ ∃ t', exec (.rcvPkt p1) start = .next t' :=
  ⟨⟨rfl, rfl, rfl, ⟨rfl, rfl, rfl, rfl, rfl, rfl, rfl, rfl, rfl, rfl⟩, ⟨_, rfl⟩, _, rfl⟩,
    rfl, rfl, rfl, ⟨rfl, rfl⟩, ⟨_, rfl⟩, _, rfl⟩

end Sys2Proof.Tests
end

section
/-! PROOFS. The step by the head of the port queue (00_scope.md R10, 20_memory.md R71): one equation per case, and the
obligation about it assembled from them. -/

namespace Sys2Proof.Machine

/-! ### What the host does as it issues a command -/

@[simp] theorem issue_sndTimer (now : Time) (s : State) : issue (.sndTimer now) s = { s with tmr := none } := rfl

/-- Issuing any other command leaves the host's timer as it is (10_state.md R44). -/
theorem issue_of_ne_sndTimer {i : Instr} (h : ∀ now, i ≠ .sndTimer now) (s : State) : issue i s = s := by
  cases i with
  | sndTimer now => exact absurd rfl (h now)
  | _ => rfl

/-! ### One equation per event -/

theorem runDescriptor_of_ok {d : List Byte} {s : State} {i : Instr} (h : decode s.cfg d = .ok i) :
    runDescriptor d s = exec i (issue i s) := by
  simp only [runDescriptor, h]

theorem step_of_idle {s : State} (h : s.input = []) : step s = .next s := by
  simp only [step, h]

theorem step_of_reset {s : State} {rest : List PortEvent} (h : s.input = .reset :: rest) :
    step s = .next (hardwareReset { s with input := rest }) := by
  simp only [step, h]

theorem step_of_command {s : State} {d : List Byte} {rest : List PortEvent} (h : s.input = .command d :: rest) :
    step s = runDescriptor d { s with input := rest } := by
  simp only [step, h]

/-- Taking the event off the queue leaves the configuration, so the descriptor decodes as before the step. -/
theorem step_of_decoded {s : State} {d : List Byte} {rest : List PortEvent} {i : Instr}
    (hin : s.input = .command d :: rest) (hdec : decode s.cfg d = .ok i) :
    step s = exec i (issue i { s with input := rest }) := by
  rw [step_of_command hin]
  exact runDescriptor_of_ok hdec

/-- Settles O7, from the equation of a step per event; only for `SND_TIMER` does issuing the command change the state. -/
theorem stepRunsDecodedCommand : Obligations.StepRunsDecodedCommand := by
  intro s rest
  refine ⟨fun d i hin hdec => ⟨?timer, ?other⟩, step_of_reset, step_of_idle⟩
  case timer =>
    rintro now rfl
    rw [step_of_decoded hin hdec, issue_sndTimer]
  case other =>
    intro hne
    rw [step_of_decoded hin hdec, issue_of_ne_sndTimer hne]

end Sys2Proof.Machine
end

section
/-! PROOFS. What a command can do, said once: one guarded effect per command (60_exceptions.md R216), the kinds of
effect a command can have, and the four kinds of step. The proofs about all commands split along these. -/

namespace Sys2Proof.Machine

/-- What a running engine makes of a command (30_encoding.md R88). -/
def effect (i : Instr) (s : State) : State :=
  match i with
  | .csum data => emit (.result16 (checksum16 s.cfg.byteOrder data)) s
  | .encode seq ack payload =>
    if s.cfg.maxPayload < payload.length then refuse .payloadTooLong s
    else emit (.resultPkt (encodePacket s.cfg payload seq ack)) s
  | .validate pkt => emit (.result16 (if validate s.cfg pkt then 1 else 0)) s
  | .seglen remaining => emit (.result16 ((seglen s.cfg remaining.toNat).setWidth 16)) s
  | .sndInit => resetSender s
  | .sndFinal => resetSender s
  | .sndMsg now data =>
    if Config.lastSeq < s.seq.toNat + packetCount s.cfg data.length then refuse .seqExhausted s
    else sendMessage now data s
  | .sndPkt now pkt =>
    if validate s.cfg pkt then
      if ackInRange (ackOf s.cfg pkt) s then acceptAck (ackOf s.cfg pkt) now s else drop s
    else drop s
  | .sndTimer now => onFire now s
  | .rcvInit => resetReceiver s
  | .rcvFinal => resetReceiver s
  | .rcvPkt pkt => if validate s.cfg pkt then emitAck (rxDrain (rxPlace pkt s)) else drop s

theorem exec_eq_unlessHalted (i : Instr) (s : State) : exec i s = unlessHalted s (effect i s) := by
  cases i <;> rfl

/-- A codec command answers with one action and changes nothing else (30_encoding.md R88, column "half"). -/
theorem effect_of_codec {i : Instr} (hi : halfOf i = .none) (s : State) : ∃ a, effect i s = emit a s := by
  cases i with
  | csum data => exact ⟨_, rfl⟩
  | encode seq ack payload =>
    simp only [effect]
    split
    · exact ⟨_, rfl⟩
    · exact ⟨_, rfl⟩
  | validate pkt => exact ⟨_, rfl⟩
  | seglen remaining => exact ⟨_, rfl⟩
  | _ => cases hi

/-- The kinds of effect a command can have: it only answers (a codec command, a drop, a refusal), or it is one of the
accepted commands of a half, on a running engine. -/
inductive Behaves (s : State) : Instr → State → Prop
  | quiet {i : Instr} (new : List Action) (htimer : ∀ now, i = .sndTimer now → s.fatal ≠ 0) :
    Behaves s i { s with actions := s.actions ++ new }
  | sndInit (hrun : s.fatal = 0) : Behaves s .sndInit (resetSender s)
  | sndFinal (hrun : s.fatal = 0) : Behaves s .sndFinal (resetSender s)
  | sndMsg (now : Time) (data : Message) (hrun : s.fatal = 0)
    (hroom : s.seq.toNat + packetCount s.cfg data.length ≤ Config.lastSeq) :
    Behaves s (.sndMsg now data) (sendMessage now data s)
  | sndPkt (now : Time) (pkt : Packet) (hrun : s.fatal = 0)
    (hack : (ackOf s.cfg pkt).toNat ≤ s.highestSent.toNat + 1) :
    Behaves s (.sndPkt now pkt) (acceptAck (ackOf s.cfg pkt) now s)
  | sndTimer (now : Time) (hrun : s.fatal = 0) : Behaves s (.sndTimer now) (onFire now s)
  | rcvInit (hrun : s.fatal = 0) : Behaves s .rcvInit (resetReceiver s)
  | rcvFinal (hrun : s.fatal = 0) : Behaves s .rcvFinal (resetReceiver s)
  | rcvPkt (pkt : Packet) (hrun : s.fatal = 0) : Behaves s (.rcvPkt pkt) (emitAck (rxDrain (rxPlace pkt s)))

/-- A command that leaves no trace at all. -/
theorem Behaves.dropped {i : Instr} {s : State} (htimer : ∀ now, i = .sndTimer now → s.fatal ≠ 0) : Behaves s i s := by
  simpa using Behaves.quiet (s := s) [] htimer

/-- A command answered by one action only. -/
theorem Behaves.answered {i : Instr} {s : State} (a : Action) (htimer : ∀ now, i = .sndTimer now → s.fatal ≠ 0) :
    Behaves s i (emit a s) :=
  .quiet [a] htimer

theorem effect_behaves (i : Instr) {s : State} (hrun : s.fatal = 0) : Behaves s i (effect i s) := by
  cases i with
  | sndInit => exact .sndInit hrun
  | sndFinal => exact .sndFinal hrun
  | rcvInit => exact .rcvInit hrun
  | rcvFinal => exact .rcvFinal hrun
  | sndTimer now => exact .sndTimer now hrun
  | sndMsg now data =>
    simp only [effect]
    split
    · exact .answered _ nofun
    · exact .sndMsg now data hrun (Nat.le_of_not_lt ‹_›)
  | sndPkt now pkt =>
    simp only [effect]
    split
    · split
      · exact .sndPkt now pkt hrun (by simpa [ackInRange] using ‹ackInRange _ s = true›)
      · exact .dropped nofun
    · exact .dropped nofun
  | rcvPkt pkt =>
    simp only [effect]
    split
    · exact .rcvPkt pkt hrun
    · exact .dropped nofun
  | csum data => exact .answered _ nofun
  | encode seq ack payload =>
    obtain ⟨a, ha⟩ := effect_of_codec (i := .encode seq ack payload) rfl s
    exact ha ▸ .answered a nofun
  | validate pkt => exact .answered _ nofun
  | seglen remaining => exact .answered _ nofun

/-- Everything a command can do. -/
theorem exec_behaves {i : Instr} {s t : State} (h : exec i s = .next t) : Behaves s i t := by
  rw [exec_eq_unlessHalted] at h
  obtain ⟨hhalt, rfl⟩ | ⟨hrun, rfl⟩ := unlessHalted_cases h
  · exact .answered _ fun _ _ => hhalt
  · exact effect_behaves i hrun

/-- Everything a step can do (00_scope.md R10; 60_exceptions.md R217, R221): idle, hardware reset, a malformed
descriptor refused, or a decoded command run. -/
theorem step_cases {s t : State} (h : step s = .next t) :
    s.input = [] ∧ t = s ∨
    (∃ rest, s.input = .reset :: rest ∧ t = hardwareReset { s with input := rest }) ∨
    (∃ d rest r, s.input = .command d :: rest ∧ decode s.cfg d = .error r ∧ t = refuse r { s with input := rest }) ∨
    ∃ d rest i, s.input = .command d :: rest ∧ decode s.cfg d = .ok i ∧
      exec i (issue i { s with input := rest }) = .next t := by
  match hin : s.input with
  | [] =>
    rw [step_of_idle hin] at h
    injection h with h
    exact .inl ⟨rfl, h.symm⟩
  | .reset :: rest =>
    rw [step_of_reset hin] at h
    injection h with h
    exact .inr (.inl ⟨rest, rfl, h.symm⟩)
  | .command d :: rest =>
    cases hdec : decode s.cfg d with
    | error r =>
      simp only [step_of_command hin, runDescriptor, hdec] at h
      injection h with h
      exact .inr (.inr (.inl ⟨d, rest, r, rfl, hdec, h.symm⟩))
    | ok i => exact .inr (.inr (.inr ⟨d, rest, i, rfl, hdec, step_of_decoded hin hdec ▸ h⟩))

/-- Every step has a next state (60_exceptions.md R222). -/
theorem step_next (s : State) : ∃ t, step s = .next t := by
  match hin : s.input with
  | [] => exact ⟨_, step_of_idle hin⟩
  | .reset :: rest => exact ⟨_, step_of_reset hin⟩
  | .command d :: rest =>
    cases hdec : decode s.cfg d with
    | error r => exact ⟨_, by simp only [step_of_command hin, runDescriptor, hdec]; rfl⟩
    | ok i => exact ⟨_, (step_of_decoded hin hdec).trans (exec_eq_unlessHalted i _)⟩

/-- A decoded command is one a descriptor can express (30_encoding.md R85, R86). -/
theorem decode_wf {cfg : Cfg} {d : List Byte} {i : Instr} (h : decode cfg d = .ok i) : i.wf cfg = true := by
  obtain ⟨op, body, -, hlen, rfl⟩ := decode_ok h
  have h1 := getField_lt cfg.byteOrder d 1 2
  have h2 := getField_lt cfg.byteOrder d 9 1
  have h4 := getField_lt cfg.byteOrder d 9 4
  cases op <;> simp [formatOf, Format.totalLength, operandsOf, Instr.wf, Packet.wf] at hlen ⊢ <;> omega

end Sys2Proof.Machine
end

section
/-! PROOFS. The two halves of the engine (10_state.md R47): every operation of one half is the same operation whatever
stands in the other half and in the past actions; what each command leaves unchanged follows. -/

namespace Sys2Proof.Machine

/-! ### Closed forms -/

/-- The actions `rearm` emits (43_timer_chain.md R157). -/
def rearmActions (now : Time) : List ChainEntry → List Action
  | [] => []
  | head :: _ => [.timerArm (satSub head.expiry now)]

/-- The deadline `rearm` leaves the host's timer with (43_timer_chain.md R157; 10_state.md R44). -/
def rearmTimer (now : Time) (tmr : Option Nat) : List ChainEntry → Option Nat
  | [] => tmr
  | head :: _ => some (max now.toNat head.expiry.toNat)

theorem rearm_eq (now : Time) (s : State) : rearm now s = { s with
    actions := s.actions ++ rearmActions now s.chain, tmr := rearmTimer now s.tmr s.chain } := by
  obtain ⟨h, he⟩ | ⟨head, rest, h, he⟩ := rearm_cases now s
  · simp only [he, h, rearmActions, rearmTimer, List.append_nil]
    rw [← h]
  · have hmax : now.toNat + (satSub head.expiry now).toNat = max now.toNat head.expiry.toNat := by
      rw [toNat_satSub]
      omega
    simp [he, h, rearmActions, rearmTimer, armTimer, emit, hmax]

/-- The timeout path of `WCAP` with the packet sent again and its entry at the tail (43_timer_chain.md R155). -/
theorem retransmit_eq (p : Packet) (q : Seq) (now : Time) (s : State) : retransmit p q now s = { s with
    actions := s.actions ++ [.toChannel p], chain := s.chain ++ [⟨q, deadline now s⟩], freeCtr := nextFree now s
    wcap := timeoutCap s.cfg.cc s.wcap } := by
  simp [retransmit, aimdReset_eq, pushDeadline, emit, deadline, nextFree]

/-- Everything a firing can do (43_timer_chain.md R153 to R156). -/
theorem onFire_cases (now : Time) (s : State) :
    s.chain = [] ∧ onFire now s = fatalStop .timerEmpty s ∨
    ∃ e rest, s.chain = e :: rest ∧
      (s.curAck ≤ e.seq ∧ (∀ p ∈ s.window, seqOf s.cfg p ≠ e.seq) ∧
          onFire now s = fatalStop .lookupMiss { s with chain := rest } ∨
       (∃ p ∈ s.window, seqOf s.cfg p = e.seq ∧ s.curAck ≤ e.seq ∧
          onFire now s = rearm now (retransmit p e.seq now { s with chain := rest })) ∨
       e.seq < s.curAck ∧ onFire now s = rearm now { s with chain := rest }) := by
  cases hc : s.chain with
  | nil => exact .inl ⟨rfl, by simp only [onFire, hc]⟩
  | cons e rest =>
    refine .inr ⟨e, rest, rfl, ?_⟩
    have hfire : onFire now s = fireEntry e.seq now { s with chain := rest } := by simp only [onFire, hc]
    by_cases hlive : s.curAck ≤ e.seq
    · cases hl : lookup e.seq { s with chain := rest } with
      | none => exact .inl ⟨hlive, lookup_none hl, by simp [hfire, fireEntry, hlive, hl]⟩
      | some p =>
        obtain ⟨hp, hq⟩ := lookup_some hl
        exact .inr (.inl ⟨p, hp, hq, hlive, by simp [hfire, fireEntry, hlive, hl]⟩)
    · exact .inr (.inr ⟨BitVec.not_le.mp hlive, by simp [hfire, fireEntry, hlive]⟩)

/-- An accepted message: `SEQ` moves on, the packets there is room for are sent, the rest waits (41_segmenter.md R136;
42_send_window.md R140). -/
theorem sendMessage_eq (now : Time) (data : Message) (s : State) : sendMessage now data s =
    { transmitAll now ((split s.cfg s.seq data).take (s.wcap - s.window.length))
        { s with seq := s.seq + BitVec.ofNat 32 (split s.cfg s.seq data).length } with
      backlog := s.backlog ++ (split s.cfg s.seq data).drop (s.wcap - s.window.length) } := by
  simp only [sendMessage, admitAll_eq]

/-! ### The sender half beside another receiver -/

/-- The sender half of `s` beside the receiver half, the pending input and the past actions of `r`; the actions of `s`
follow those of `r`. -/
def besideReceiver (r s : State) : State :=
  { s with expected := r.expected, rbuf := r.rbuf, input := r.input, actions := r.actions ++ s.actions }

@[simp] theorem besideReceiver_cfg (r s : State) : (besideReceiver r s).cfg = s.cfg := rfl
@[simp] theorem besideReceiver_seq (r s : State) : (besideReceiver r s).seq = s.seq := rfl

variable (r s : State) (now : Time)

theorem emit_besideReceiver (a : Action) : emit a (besideReceiver r s) = besideReceiver r (emit a s) := by
  simp [emit, besideReceiver]

theorem transmitNew_besideReceiver (p : Packet) :
    transmitNew p now (besideReceiver r s) = besideReceiver r (transmitNew p now s) := by
  cases h : s.chain <;>
    simp [transmitNew, schedule, timerArmed, h, pushDeadline, armTimer, emit, deadline, nextFree, besideReceiver]

theorem transmitAll_besideReceiver (ps : List Packet) :
    transmitAll now ps (besideReceiver r s) = besideReceiver r (transmitAll now ps s) := by
  induction ps generalizing s with
  | nil => rfl
  | cons p ps ih => rw [transmitAll_cons, transmitNew_besideReceiver, ih, transmitAll_cons]

theorem sendMessage_besideReceiver (data : Message) :
    sendMessage now data (besideReceiver r s) = besideReceiver r (sendMessage now data s) := by
  have h := transmitAll_besideReceiver r { s with seq := s.seq + BitVec.ofNat 32 (split s.cfg s.seq data).length } now
    ((split s.cfg s.seq data).take (s.wcap - s.window.length))
  rw [sendMessage_eq, sendMessage_eq]
  exact congrArg (fun u : State =>
    { u with backlog := s.backlog ++ (split s.cfg s.seq data).drop (s.wcap - s.window.length) }) h

theorem countAck_besideReceiver (a : Seq) :
    countAck a now (besideReceiver r s) = besideReceiver r (countAck a now s) := by
  have hr : resentBy a (besideReceiver r s) = resentBy a s := rfl
  rw [countAck_eq, countAck_eq, hr]
  simp only [besideReceiver, List.append_assoc]
  rfl

theorem advance_besideReceiver (a : Seq) :
    advance a now (besideReceiver r s) = besideReceiver r (advance a now s) := by
  by_cases h : s.curAck < a
  · let kept := s.window.filter fun p => decide (a ≤ seqOf s.cfg p)
    have ht := transmitAll_besideReceiver r { s with window := kept, curAck := a } now
      (s.backlog.take (s.wcap - kept.length))
    rw [advance_eq a now s h, advance_eq a now (besideReceiver r s) h]
    exact congrArg (fun u : State => { u with backlog := s.backlog.drop (s.wcap - kept.length) }) ht
  · rw [advance_of_not_lt a now s h, advance_of_not_lt a now (besideReceiver r s) h]

theorem acceptAck_besideReceiver (a : Seq) :
    acceptAck a now (besideReceiver r s) = besideReceiver r (acceptAck a now s) := by
  rw [acceptAck, countAck_besideReceiver, advance_besideReceiver, aimdIncrease_eq, acceptAck, aimdIncrease_eq]
  rfl

theorem fatalStop_besideReceiver (c : FatalCode) :
    fatalStop c (besideReceiver r s) = besideReceiver r (fatalStop c s) :=
  emit_besideReceiver r { s with fatal := if s.fatal = 0 then c.code else s.fatal } (.fatal c)

theorem fireEntry_besideReceiver (q : Seq) :
    fireEntry q now (besideReceiver r s) = besideReceiver r (fireEntry q now s) := by
  have hl : lookup q (besideReceiver r s) = lookup q s := rfl
  have hc : (besideReceiver r s).curAck = s.curAck := rfl
  rw [fireEntry, fireEntry, hl, hc]
  split
  · split
    · exact fatalStop_besideReceiver r s _
    · simp [rearm_eq, retransmit_eq, besideReceiver, deadline, nextFree]
  · simp [rearm_eq, besideReceiver]

theorem onFire_besideReceiver : onFire now (besideReceiver r s) = besideReceiver r (onFire now s) := by
  have hc : (besideReceiver r s).chain = s.chain := rfl
  rw [onFire, onFire, hc]
  split
  · exact fatalStop_besideReceiver r s _
  · exact fireEntry_besideReceiver r { s with chain := _ } now _

theorem resetSender_besideReceiver : resetSender (besideReceiver r s) = besideReceiver r (resetSender s) := by
  cases h : s.chain <;> simp [resetSender, timerArmed, h, disarmTimer, emit, besideReceiver]

/-- No sender command reads or writes the receiver half. -/
theorem effect_besideReceiver {i : Instr} (hi : halfOf i = .sender) :
    effect i (besideReceiver r s) = besideReceiver r (effect i s) := by
  cases i with
  | sndInit => exact resetSender_besideReceiver r s
  | sndFinal => exact resetSender_besideReceiver r s
  | sndTimer now => exact onFire_besideReceiver r s now
  | sndMsg now data =>
    simp only [effect, besideReceiver_cfg, besideReceiver_seq, apply_ite (besideReceiver r)]
    rw [sendMessage_besideReceiver, refuse, emit_besideReceiver]
    rfl
  | sndPkt now pkt =>
    have hr : ackInRange (ackOf s.cfg pkt) (besideReceiver r s) = ackInRange (ackOf s.cfg pkt) s := rfl
    simp only [effect, besideReceiver_cfg, hr, apply_ite (besideReceiver r), acceptAck_besideReceiver, drop_eq]
  | _ => cases hi

/-! ### The receiver half beside another sender -/

/-- The receiver half of `s` beside the sender half, the timer, the pending input and the past actions of `r`; the
actions of `s` follow those of `r`. -/
def besideSender (r s : State) : State :=
  { r with
    cfg := s.cfg, fatal := s.fatal, expected := s.expected, rbuf := s.rbuf, actions := r.actions ++ s.actions }

@[simp] theorem besideSender_cfg : (besideSender r s).cfg = s.cfg := rfl
@[simp] theorem besideSender_expected : (besideSender r s).expected = s.expected := rfl

theorem emit_besideSender (a : Action) : emit a (besideSender r s) = besideSender r (emit a s) := by
  simp [emit, besideSender]

theorem rxInsert_besideSender (pkt : Packet) : rxInsert pkt (besideSender r s) = besideSender r (rxInsert pkt s) := by
  simp only [rxInsert, apply_ite (besideSender r)]
  rfl

theorem deliver_besideSender (pkt : Packet) : deliver pkt (besideSender r s) = besideSender r (deliver pkt s) := by
  simp [deliver, emit, besideSender]

theorem rxPlace_besideSender (pkt : Packet) : rxPlace pkt (besideSender r s) = besideSender r (rxPlace pkt s) := by
  simp only [rxPlace, besideSender_cfg, besideSender_expected, deliver_besideSender, rxInsert_besideSender,
    apply_ite (besideSender r)]

theorem rxDrain_besideSender : rxDrain (besideSender r s) = besideSender r (rxDrain s) := by
  rw [rxDrain_eq, rxDrain_eq]
  simp [besideSender]

/-- No receiver command reads or writes the sender half. -/
theorem effect_besideSender {i : Instr} (hi : halfOf i = .receiver) :
    effect i (besideSender r s) = besideSender r (effect i s) := by
  cases i with
  | rcvInit => rfl
  | rcvFinal => rfl
  | rcvPkt pkt =>
    simp only [effect, besideSender_cfg, rxPlace_besideSender, rxDrain_besideSender, emitAck, besideSender_expected,
      emit_besideSender, drop_eq, apply_ite (besideSender r)]
  | _ => cases hi

end Sys2Proof.Machine
end

section
/-! PROOFS. What each command leaves unchanged, and that the halves do not interact (10_state.md R27, R47). -/

namespace Sys2Proof.Machine

/-! ### A command run beside another half -/

/-- The same command on the same half beside another one: the guard of every command reads `FATAL` only. -/
theorem exec_of_effect {i : Instr} {u v : State} (beside : State → State) (hfatal : (beside u).fatal = u.fatal)
    (hemit : ∀ a s, emit a (beside s) = beside (emit a s)) (heff : effect i (beside u) = beside (effect i u))
    (h : exec i u = .next v) : exec i (beside u) = .next (beside v) := by
  rw [exec_eq_unlessHalted] at h ⊢
  obtain ⟨hhalt, rfl⟩ | ⟨hrun, rfl⟩ := unlessHalted_cases h
  · rw [unlessHalted_of_halted _ _ (by rwa [hfatal]), refuse, hemit, refuse]
  · rw [unlessHalted_of_running _ _ (by rwa [hfatal]), heff]

theorem exec_next (i : Instr) (s : State) : ∃ t, exec i s = .next t := ⟨_, exec_eq_unlessHalted i s⟩

/-- What a sender command makes of a sender half alone, `u`, is what it makes of it beside any receiver half. -/
theorem exec_sender_alone {i : Instr} (hi : halfOf i = .sender) (s : State) :
    ∃ u, ∀ s' t', s'.cfg = s.cfg → s'.fatal = s.fatal → SameSender s s' → exec i s' = .next t' →
      t' = besideReceiver s' u := by
  obtain ⟨u, hu⟩ := exec_next i { s with actions := [] }
  refine ⟨u, fun s' t' hcfg hfatal hsame h => ?_⟩
  have hs' : s' = besideReceiver s' { s with actions := [] } := by
    obtain ⟨h1, h2, h3, h4, h5, h6, h7, h8, h9, h10⟩ := hsame
    simp only [besideReceiver, List.append_nil, ← hcfg, ← hfatal, ← h1, ← h2, ← h3, ← h4, ← h5, ← h6, ← h7, ← h8,
      ← h9, ← h10]
  have hrun := exec_of_effect (besideReceiver s') rfl (fun a u => emit_besideReceiver s' u a)
    (effect_besideReceiver s' _ hi) hu
  rw [← hs', h] at hrun
  injection hrun

/-- What a receiver command makes of a receiver half alone is what it makes of it beside any sender half. -/
theorem exec_receiver_alone {i : Instr} (hi : halfOf i = .receiver) (s : State) :
    ∃ u, ∀ s' t', s'.cfg = s.cfg → s'.fatal = s.fatal → SameReceiver s s' → exec i s' = .next t' →
      t' = besideSender s' u := by
  obtain ⟨u, hu⟩ := exec_next i { s with actions := [] }
  refine ⟨u, fun s' t' hcfg hfatal hsame h => ?_⟩
  have hs' : s' = besideSender s' { s with actions := [] } := by
    obtain ⟨h1, h2⟩ := hsame
    simp only [besideSender, List.append_nil, ← hcfg, ← hfatal, ← h1, ← h2]
  have hrun := exec_of_effect (besideSender s') rfl (fun a u => emit_besideSender s' u a)
    (effect_besideSender s' _ hi) hu
  rw [← hs', h] at hrun
  injection hrun

/-- A codec command answers the same action in any two states with the same configuration and the same `FATAL`. -/
theorem exec_codec {i : Instr} (hi : halfOf i = .none) (s : State) :
    ∃ a, ∀ s' t', s'.cfg = s.cfg → s'.fatal = s.fatal → exec i s' = .next t' → t' = emit a s' := by
  have heff : ∃ a, ∀ s', s'.cfg = s.cfg → effect i s' = emit a s' := by
    cases i with
    | csum data => exact ⟨_, fun s' h => by rw [effect, h]⟩
    | encode seq ack payload =>
      by_cases hl : s.cfg.maxPayload < payload.length
      · exact ⟨_, fun s' h => by rw [effect, h, if_pos hl, refuse]⟩
      · exact ⟨_, fun s' h => by rw [effect, h, if_neg hl]⟩
    | validate pkt => exact ⟨_, fun s' h => by rw [effect, h]⟩
    | seglen remaining => exact ⟨_, fun s' h => by rw [effect, h]⟩
    | _ => cases hi
  obtain ⟨a, ha⟩ := heff
  by_cases hf : s.fatal = 0
  · refine ⟨a, fun s' t' hcfg hfatal h => ?_⟩
    rw [exec_eq_unlessHalted, unlessHalted_of_running _ _ (hfatal.trans hf), ha s' hcfg] at h
    injection h with h
    exact h.symm
  · refine ⟨.err .halted, fun s' t' hcfg hfatal h => ?_⟩
    rw [exec_eq_unlessHalted, unlessHalted_of_halted _ _ (by rwa [hfatal])] at h
    injection h with h
    exact h.symm

theorem SameSender.refl (s : State) : SameSender s s := ⟨rfl, rfl, rfl, rfl, rfl, rfl, rfl, rfl, rfl, rfl⟩

theorem SameReceiver.refl (s : State) : SameReceiver s s := ⟨rfl, rfl⟩

theorem SameSender.withPort (s : State) (input : List PortEvent) (actions : List Action) :
    SameSender s { s with input := input, actions := actions } :=
  ⟨rfl, rfl, rfl, rfl, rfl, rfl, rfl, rfl, rfl, rfl⟩

theorem sameReceiver_besideReceiver (r u : State) : SameReceiver r (besideReceiver r u) := ⟨rfl, rfl⟩

theorem sameSender_besideReceiver (r r' u : State) : SameSender (besideReceiver r u) (besideReceiver r' u) :=
  ⟨rfl, rfl, rfl, rfl, rfl, rfl, rfl, rfl, rfl, rfl⟩

theorem sameSender_besideSender (r u : State) : SameSender r (besideSender r u) :=
  ⟨rfl, rfl, rfl, rfl, rfl, rfl, rfl, rfl, rfl, rfl⟩

theorem sameReceiver_besideSender (r r' u : State) : SameReceiver (besideSender r u) (besideSender r' u) := ⟨rfl, rfl⟩

/-- Settles O53: either run is the run of the command's own half alone, set beside the other half. -/
theorem halvesDoNotInteract : Obligations.HalvesDoNotInteract := by
  intro i s s' t t' hcfg hfatal hsnd hrcv h h'
  cases hi : halfOf i with
  | none =>
    obtain ⟨a, ha⟩ := exec_codec hi s
    obtain rfl := ha s t rfl rfl h
    obtain rfl := ha s' t' hcfg hfatal h'
    exact ⟨nofun, nofun, hfatal, [a], rfl, rfl⟩
  | sender =>
    obtain ⟨u, hu⟩ := exec_sender_alone hi s
    obtain rfl := hu s t rfl rfl (.refl s) h
    obtain rfl := hu s' t' hcfg hfatal (hsnd hi) h'
    exact ⟨fun _ => ⟨sameSender_besideReceiver s s' u, sameReceiver_besideReceiver s' u⟩, nofun, rfl,
      u.actions, rfl, rfl⟩
  | receiver =>
    obtain ⟨u, hu⟩ := exec_receiver_alone hi s
    obtain rfl := hu s t rfl rfl (.refl s) h
    obtain rfl := hu s' t' hcfg hfatal (hrcv hi) h'
    exact ⟨nofun, fun _ => ⟨sameReceiver_besideSender s s' u, sameSender_besideSender s' u⟩, rfl, u.actions, rfl, rfl⟩

/-! ### The fields the operations of a command leave alone -/

section OwnFields
variable (a : Seq) (now : Time) (s : State)

@[simp] theorem countAck_cfg : (countAck a now s).cfg = s.cfg := by rw [countAck_eq]
@[simp] theorem countAck_seq : (countAck a now s).seq = s.seq := by rw [countAck_eq]
@[simp] theorem countAck_curAck : (countAck a now s).curAck = s.curAck := by rw [countAck_eq]
@[simp] theorem countAck_highestSent : (countAck a now s).highestSent = s.highestSent := by rw [countAck_eq]
@[simp] theorem countAck_window : (countAck a now s).window = s.window := by rw [countAck_eq]
@[simp] theorem countAck_backlog : (countAck a now s).backlog = s.backlog := by rw [countAck_eq]
@[simp] theorem countAck_rbuf : (countAck a now s).rbuf = s.rbuf := by rw [countAck_eq]
@[simp] theorem countAck_expected : (countAck a now s).expected = s.expected := by rw [countAck_eq]
@[simp] theorem countAck_fatal : (countAck a now s).fatal = s.fatal := by rw [countAck_eq]

/-- The fields an `advance` leaves alone. -/
theorem advance_same : (advance a now s).cfg = s.cfg ∧ (advance a now s).seq = s.seq ∧
    (advance a now s).fatal = s.fatal ∧ (advance a now s).wcap = s.wcap := by
  by_cases h : s.curAck < a
  · simp [advance_eq a now s h]
  · simp [advance_of_not_lt a now s h]

@[simp] theorem acceptAck_cfg : (acceptAck a now s).cfg = s.cfg := by
  simp [acceptAck, (advance_same a now _).1]

@[simp] theorem acceptAck_seq : (acceptAck a now s).seq = s.seq := by
  simp [acceptAck, (advance_same a now _).2.1]

@[simp] theorem acceptAck_fatal : (acceptAck a now s).fatal = s.fatal := by
  simp [acceptAck, (advance_same a now _).2.2.1]

/-- The fields a firing leaves alone (43_timer_chain.md R153, R155). -/
theorem onFire_same : (onFire now s).cfg = s.cfg ∧ (onFire now s).seq = s.seq ∧ (onFire now s).curAck = s.curAck ∧
    (onFire now s).highestSent = s.highestSent ∧ (onFire now s).window = s.window ∧
    (onFire now s).backlog = s.backlog ∧ (onFire now s).dupcnt = s.dupcnt := by
  obtain ⟨-, h⟩ | ⟨e, rest, -, ⟨-, -, h⟩ | ⟨p, -, -, -, h⟩ | ⟨-, h⟩⟩ := onFire_cases now s
  · simp [h]
  · simp [h]
  · simp [h, rearm_eq, retransmit_eq]
  · simp [h, rearm_eq]

/-- The fields an accepted message leaves alone (41_segmenter.md R136). -/
theorem sendMessage_same (data : Message) : (sendMessage now data s).cfg = s.cfg ∧
    (sendMessage now data s).fatal = s.fatal ∧ (sendMessage now data s).curAck = s.curAck ∧
    (sendMessage now data s).wcap = s.wcap ∧ (sendMessage now data s).dupcnt = s.dupcnt := by
  simp [sendMessage_eq]

/-- Where a valid data packet goes (46_reorder_buffer.md R185, R187 to R189, R192). -/
theorem rxPlace_cases (pkt : Packet) : rxPlace pkt s = s ∨
    (seqOf s.cfg pkt = s.expected ∧ seqOf s.cfg pkt ≠ 0xFFFFFFFF ∧ rxPlace pkt s = deliver pkt s) ∨
    s.expected < seqOf s.cfg pkt ∧ seqOf s.cfg pkt ≠ 0xFFFFFFFF ∧ rxPlace pkt s = rxInsert pkt s := by
  by_cases hlast : seqOf s.cfg pkt = 0xFFFFFFFF
  · exact .inl (by simp only [rxPlace, if_pos hlast])
  · by_cases hnow : seqOf s.cfg pkt = s.expected
    · exact .inr (.inl ⟨hnow, hlast, by simp only [rxPlace, if_neg hlast, if_pos hnow]⟩)
    · by_cases hahead : s.expected < seqOf s.cfg pkt
      · exact .inr (.inr ⟨hahead, hlast, by simp only [rxPlace, if_neg hlast, if_neg hnow, if_pos hahead]⟩)
      · exact .inl (by simp only [rxPlace, if_neg hlast, if_neg hnow, if_neg hahead])

theorem rxInsert_same (pkt : Packet) : (rxInsert pkt s).cfg = s.cfg ∧ (rxInsert pkt s).fatal = s.fatal := by
  simp only [rxInsert]
  split
  · exact ⟨rfl, rfl⟩
  · exact ⟨rfl, rfl⟩

/-- No part of `RCV_PKT` writes the configuration or `FATAL` (46_reorder_buffer.md R185). -/
theorem rxPlace_same (pkt : Packet) : (rxPlace pkt s).cfg = s.cfg ∧ (rxPlace pkt s).fatal = s.fatal := by
  obtain h | ⟨-, -, h⟩ | ⟨-, -, h⟩ := rxPlace_cases s pkt
  · rw [h]
    exact ⟨rfl, rfl⟩
  · rw [h]
    exact ⟨rfl, rfl⟩
  · rw [h]
    exact rxInsert_same s pkt

@[simp] theorem rxDrain_cfg : (rxDrain s).cfg = s.cfg := by rw [rxDrain_eq]
@[simp] theorem rxDrain_fatal : (rxDrain s).fatal = s.fatal := by rw [rxDrain_eq]

end OwnFields

/-! ### The obligation -/

/-- No command writes the configuration (10_state.md R27). -/
theorem exec_cfg {i : Instr} {s t : State} (h : exec i s = .next t) : t.cfg = s.cfg := by
  cases exec_behaves h with
  | quiet | rcvInit | rcvFinal => rfl
  | sndInit | sndFinal => exact resetSender_cfg s
  | sndMsg now data => exact (sendMessage_same now s data).1
  | sndPkt now pkt => exact acceptAck_cfg _ now s
  | sndTimer now => exact (onFire_same now s).1
  | rcvPkt pkt => exact (rxDrain_cfg _).trans (rxPlace_same s pkt).1

/-- Only `SND_TIMER` writes `FATAL` (10_state.md R47). -/
theorem exec_fatal {i : Instr} {s t : State} (h : exec i s = .next t) (hi : ∀ now, i ≠ .sndTimer now) :
    t.fatal = s.fatal := by
  cases exec_behaves h with
  | quiet | rcvInit | rcvFinal => rfl
  | sndInit | sndFinal => exact resetSender_fatal s
  | sndMsg now data => exact (sendMessage_same now s data).2.1
  | sndPkt now pkt => exact acceptAck_fatal _ now s
  | sndTimer now => exact absurd rfl (hi now)
  | rcvPkt pkt => exact (rxDrain_fatal _).trans (rxPlace_same s pkt).2

/-- What stands beside a command's own half, and the past actions, stay. -/
theorem exec_beside {i : Instr} {s t : State} (h : exec i s = .next t) :
    t.input = s.input ∧ (∃ new, t.actions = s.actions ++ new) ∧
    (halfOf i = .none → t = { s with actions := t.actions }) ∧
    (halfOf i = .sender → SameReceiver s t) ∧ (halfOf i = .receiver → SameSender s t) := by
  cases hi : halfOf i with
  | none =>
    obtain ⟨a, ha⟩ := exec_codec hi s
    obtain rfl := ha s t rfl rfl h
    exact ⟨rfl, ⟨[a], rfl⟩, fun _ => rfl, nofun, nofun⟩
  | sender =>
    obtain ⟨u, hu⟩ := exec_sender_alone hi s
    obtain rfl := hu s t rfl rfl (.refl s) h
    exact ⟨rfl, ⟨u.actions, rfl⟩, nofun, fun _ => sameReceiver_besideReceiver s u, nofun⟩
  | receiver =>
    obtain ⟨u, hu⟩ := exec_receiver_alone hi s
    obtain rfl := hu s t rfl rfl (.refl s) h
    exact ⟨rfl, ⟨u.actions, rfl⟩, nofun, nofun, fun _ => sameSender_besideSender s u⟩

/-- Settles O52: what stands beside a command's own half stays, and each sender command keeps the fields outside its
column. -/
theorem commandsWriteOnlyTheirColumns : Obligations.CommandsWriteOnlyTheirColumns := by
  intro i s t h
  obtain ⟨hinput, hactions, hcodec, hsnd, hrcv⟩ := exec_beside h
  refine ⟨exec_cfg h, hinput, hactions, hcodec, hsnd, hrcv, exec_fatal h, ?msg, ?pkt, ?timer⟩
  case msg =>
    rintro now data rfl
    cases exec_behaves h with
    | quiet => exact ⟨rfl, rfl, rfl⟩
    | sndMsg =>
      obtain ⟨-, -, hkept⟩ := sendMessage_same now s data
      exact hkept
  case pkt =>
    rintro now pkt rfl
    cases exec_behaves h with
    | quiet => rfl
    | sndPkt => exact acceptAck_seq _ now s
  case timer =>
    rintro now rfl
    cases exec_behaves h with
    | quiet => exact ⟨rfl, rfl, rfl, rfl, rfl, rfl⟩
    | sndTimer =>
      obtain ⟨-, hkept⟩ := onFire_same now s
      exact hkept

end Sys2Proof.Machine
end

section
/-! PROOFS. The sender half of the engine's invariant (10_state.md R36 to R39): each part reads its own fields only, and
each operation keeps it. A message is first queued behind the backlog and then sent from there, and a refill sends from
the front of the backlog, so one operation, `sendWaiting`, covers both (42_send_window.md R140, R142). -/

namespace Sys2Proof.Machine

/-! ### Sequence numbers of lists -/

@[simp] theorem seqs_nil (cfg : Cfg) : seqs cfg [] = [] := rfl

@[simp] theorem seqs_append (cfg : Cfg) (ps qs : List Packet) : seqs cfg (ps ++ qs) = seqs cfg ps ++ seqs cfg qs :=
  List.map_append

theorem mem_seqs {cfg : Cfg} {ps : List Packet} {q : Seq} : q ∈ seqs cfg ps ↔ ∃ p ∈ ps, seqOf cfg p = q := List.mem_map

theorem seqOf_mem_seqs {cfg : Cfg} {ps : List Packet} {p : Packet} (h : p ∈ ps) : seqOf cfg p ∈ seqs cfg ps :=
  List.mem_map_of_mem h

theorem sublist_seqs {cfg : Cfg} {ps qs : List Packet} (h : ps.Sublist qs) : (seqs cfg ps).Sublist (seqs cfg qs) :=
  h.map _

/-- The chain invariants speak of the numbers of the entries only. -/
theorem chainOk_iff (s : State) : ChainOk s ↔ (s.chain.map ChainEntry.seq).Nodup ∧
    ∀ q ∈ s.chain.map ChainEntry.seq, q.toNat ≤ s.highestSent.toNat ∧ q ∉ seqs s.cfg s.backlog ∧
      (s.curAck ≤ q → q ∈ seqs s.cfg s.window) := by
  refine ⟨fun ⟨honce, hsent, hlive⟩ => ⟨honce, ?_⟩, fun ⟨honce, hall⟩ => ⟨honce, fun e he => ?_, fun e he hack => ?_⟩⟩
  · intro q hq
    obtain ⟨e, he, rfl⟩ := List.mem_map.mp hq
    exact ⟨(hsent e he).1, (hsent e he).2, fun hack => mem_seqs.mpr (hlive e he hack)⟩
  · obtain ⟨h1, h2, -⟩ := hall _ (List.mem_map_of_mem he)
    exact ⟨h1, h2⟩
  · obtain ⟨-, -, h3⟩ := hall _ (List.mem_map_of_mem he)
    exact mem_seqs.mp (h3 hack)

/-! ### Each part of the invariant reads its own fields only -/

section Congr
variable {s t : State}

theorem SizesOk.congr (h : SizesOk s) (hcfg : t.cfg = s.cfg) (hwindow : t.window = s.window)
    (hbacklog : t.backlog = s.backlog) (hrbuf : t.rbuf = s.rbuf) : SizesOk t := by
  obtain ⟨h1, h2, h3⟩ := h
  constructor <;> simpa only [hcfg, hwindow, hbacklog, hrbuf]

theorem SequencingOk.congr (h : SequencingOk s) (hcfg : t.cfg = s.cfg) (hwindow : t.window = s.window)
    (hbacklog : t.backlog = s.backlog) (hseq : t.seq = s.seq) (hack : t.curAck = s.curAck)
    (hsent : t.highestSent = s.highestSent) : SequencingOk t := by
  obtain ⟨h1, h2, h3, h4, h5, h6, h7⟩ := h
  constructor <;> simpa only [hcfg, hwindow, hbacklog, hseq, hack, hsent]

/-- Entries may be dropped and reordered. -/
theorem ChainOk.congr (h : ChainOk s) (hcfg : t.cfg = s.cfg)
    (hchain : (t.chain.map ChainEntry.seq).Subperm (s.chain.map ChainEntry.seq))
    (hwindow : t.window = s.window) (hbacklog : t.backlog = s.backlog) (hack : t.curAck = s.curAck)
    (hsent : t.highestSent = s.highestSent) : ChainOk t := by
  rw [chainOk_iff] at h ⊢
  obtain ⟨honce, hall⟩ := h
  rw [hcfg, hwindow, hbacklog, hack, hsent]
  obtain ⟨l, hperm, hsub⟩ := hchain
  exact ⟨(hperm.nodup_iff).mp (honce.sublist hsub), fun q hq => hall q (hsub.subset (hperm.mem_iff.mpr hq))⟩

/-- A capacity within its bounds, which mode `Fixed` leaves alone. -/
theorem CapacityOk.congr (h : CapacityOk s) (hcfg : t.cfg = s.cfg) (hwindow : t.window.length ≤ s.window.length)
    (hcap : 1 ≤ t.wcap ∧ t.wcap ≤ s.cfg.cc.bound) (hfixed : ∀ c, s.cfg.cc = .fixed c → t.wcap = s.wcap) :
    CapacityOk t where
  cap := by rwa [hcfg]
  fixedCap c hc := by
    rw [hcfg] at hc
    rw [hfixed c hc, h.fixedCap c hc]
  windowBound := by
    rw [hcfg]
    exact hwindow.trans h.windowBound

theorem ReceiverOk.congr (h : ReceiverOk s) (hcfg : t.cfg = s.cfg) (hexpected : t.expected = s.expected)
    (hrbuf : t.rbuf = s.rbuf) : ReceiverOk t := by
  obtain ⟨h1, h2, h3, h4⟩ := h
  constructor <;> simpa only [hcfg, hexpected, hrbuf]

theorem DupOk.congr (h : DupOk s) (hdup : t.dupcnt = s.dupcnt) : DupOk t := by
  obtain ⟨h1, h2⟩ := h
  constructor
  · rwa [hdup]
  · rwa [hdup]

theorem LatchOk.congr (h : LatchOk s) (hfatal : t.fatal = s.fatal) (htmr : t.tmr = s.tmr) (hchain : t.chain = s.chain) :
    LatchOk t := by
  obtain ⟨h1, h2⟩ := h
  constructor
  · rwa [timerArmed, htmr, hchain]
  · rwa [hfatal, hchain]

end Congr

/-- The whole invariant, when the sender half and the receiver half stay. -/
theorem EngineInv.of_sameSender {s t : State} (h : EngineInv s) (hcfg : t.cfg = s.cfg) (hfatal : t.fatal = s.fatal)
    (hsame : SameSender s t) (hreceiver : ReceiverOk t) (hrbuf : ∀ p ∈ t.rbuf, p.length = s.cfg.pktSize) :
    EngineInv t where
  cfgOk := hcfg ▸ h.cfgOk
  sizes := by
    obtain ⟨hw, hb, -⟩ := h.sizes
    constructor
    · rwa [hcfg, hsame.window]
    · rwa [hcfg, hsame.backlog]
    · rwa [hcfg]
  sequencing :=
    h.sequencing.congr hcfg hsame.window hsame.backlog hsame.seq hsame.curAck hsame.highestSent
  chainOk := h.chainOk.congr hcfg (by rw [hsame.chain]) hsame.window hsame.backlog hsame.curAck hsame.highestSent
  capacity := h.capacity.congr hcfg (by rw [hsame.window]) (hsame.wcap ▸ h.capacity.cap) fun _ _ => hsame.wcap
  receiver := hreceiver
  dup := h.dup.congr hsame.dupcnt
  latch := h.latch.congr hfatal hsame.tmr hsame.chain

/-- The invariant reads neither the pending input nor the past actions. -/
theorem EngineInv.withPort {s : State} (h : EngineInv s) (input : List PortEvent) (actions : List Action) :
    EngineInv { s with input := input, actions := actions } :=
  h.of_sameSender rfl rfl (SameSender.withPort s input actions) (h.receiver.congr rfl rfl rfl) h.sizes.rbuf

/-! ### The operations on the window -/

/-- Everything below the ack leaves the window, which now starts at the ack (42_send_window.md R142). -/
def evict (a : Seq) (s : State) : State :=
  { s with window := s.window.filter (fun p => decide (a ≤ seqOf s.cfg p)), curAck := a }

/-- The packets of a message behind the backlog, with `SEQ` moved on (41_segmenter.md R136). -/
def enqueue (ps : List Packet) (s : State) : State :=
  { s with seq := s.seq + BitVec.ofNat 32 ps.length, backlog := s.backlog ++ ps }

/-- First transmissions out of the backlog `before ++ sent ++ after` (42_send_window.md R141). -/
def sendWaiting (now : Time) (before sent after : List Packet) (s : State) : State :=
  { transmitAll now sent s with backlog := before ++ after }

theorem mem_evict {a : Seq} {s : State} {p : Packet} :
    p ∈ (evict a s).window ↔ p ∈ s.window ∧ a ≤ seqOf s.cfg p := by
  simp [evict]

theorem advance_eq_sendWaiting (a : Seq) (now : Time) (s : State) (h : s.curAck < a) : advance a now s =
    sendWaiting now [] (s.backlog.take (s.wcap - (evict a s).window.length))
      (s.backlog.drop (s.wcap - (evict a s).window.length)) (evict a s) :=
  advance_eq a now s h

theorem sendMessage_eq_sendWaiting (now : Time) (data : Message) (s : State) : sendMessage now data s =
    sendWaiting now s.backlog ((split s.cfg s.seq data).take (s.wcap - s.window.length))
      ((split s.cfg s.seq data).drop (s.wcap - s.window.length)) (enqueue (split s.cfg s.seq data) s) := by
  rw [sendMessage_eq, sendWaiting, enqueue]
  have h := transmitAll_withBacklog now ((split s.cfg s.seq data).take (s.wcap - s.window.length))
    { s with seq := s.seq + BitVec.ofNat 32 (split s.cfg s.seq data).length } (s.backlog ++ split s.cfg s.seq data)
  rw [h]

section Fields
variable (now : Time) (before sent after : List Packet) (s : State)

@[simp] theorem sendWaiting_cfg : (sendWaiting now before sent after s).cfg = s.cfg := transmitAll_cfg now sent s
@[simp] theorem sendWaiting_seq : (sendWaiting now before sent after s).seq = s.seq := transmitAll_seq now sent s
@[simp] theorem sendWaiting_curAck : (sendWaiting now before sent after s).curAck = s.curAck :=
  transmitAll_curAck now sent s
@[simp] theorem sendWaiting_highestSent : (sendWaiting now before sent after s).highestSent =
    highestOf s.cfg s.highestSent sent := transmitAll_highestSent now sent s
@[simp] theorem sendWaiting_wcap : (sendWaiting now before sent after s).wcap = s.wcap := transmitAll_wcap now sent s
@[simp] theorem sendWaiting_window : (sendWaiting now before sent after s).window = s.window ++ sent :=
  transmitAll_window now sent s
@[simp] theorem sendWaiting_backlog : (sendWaiting now before sent after s).backlog = before ++ after := rfl
@[simp] theorem sendWaiting_chain_seqs : (sendWaiting now before sent after s).chain.map ChainEntry.seq =
    s.chain.map ChainEntry.seq ++ seqs s.cfg sent := transmitAll_chain_seqs now sent s
@[simp] theorem sendWaiting_dupcnt : (sendWaiting now before sent after s).dupcnt = s.dupcnt :=
  transmitAll_dupcnt now sent s
@[simp] theorem sendWaiting_expected : (sendWaiting now before sent after s).expected = s.expected :=
  transmitAll_expected now sent s
@[simp] theorem sendWaiting_rbuf : (sendWaiting now before sent after s).rbuf = s.rbuf := transmitAll_rbuf now sent s
@[simp] theorem sendWaiting_fatal : (sendWaiting now before sent after s).fatal = s.fatal :=
  transmitAll_fatal now sent s

/-- First transmissions arm the timer if it is not armed (43_timer_chain.md R150). -/
theorem sendWaiting_tmr : (sendWaiting now before sent after s).tmr =
    if timerArmed s || sent.isEmpty then s.tmr else some (now.toNat + s.cfg.timeout.toNat) := transmitAll_tmr now sent s

theorem timerArmed_sendWaiting : timerArmed (sendWaiting now before sent after s) = (timerArmed s || !sent.isEmpty) :=
  timerArmed_transmitAll now sent s

end Fields

/-! ### Sending from the backlog keeps the invariant -/

section SendWaiting
variable {now : Time} {before sent after : List Packet} {s : State} (hback : s.backlog = before ++ (sent ++ after))
include hback

theorem SequencingOk.sendWaiting (h : SequencingOk s) : SequencingOk (sendWaiting now before sent after s) := by
  obtain ⟨hdistinct, hwindow, hmade, hbacklog, hrising, hbound, hack⟩ := h
  obtain ⟨hge, hsent, hle⟩ := toNat_highestOf s.cfg s.highestSent sent
  rw [hback] at hdistinct hbacklog hrising
  have hkept : (before ++ after).Sublist (before ++ (sent ++ after)) :=
    (List.sublist_append_right sent after).append_left before
  constructor <;> simp only [sendWaiting_cfg, sendWaiting_seq, sendWaiting_curAck, sendWaiting_highestSent,
    sendWaiting_window, sendWaiting_backlog]
  case distinct =>
    have hperm : (s.window ++ sent ++ (before ++ after)).Perm (s.window ++ (before ++ (sent ++ after))) := by
      rw [List.append_assoc]
      exact (List.perm_append_comm_assoc sent before after).append_left s.window
    exact ((hperm.map _).nodup_iff).mpr hdistinct
  case windowSent =>
    intro p hp
    obtain hp | hp := List.mem_append.mp hp
    · exact ⟨(hwindow p hp).1, (hwindow p hp).2.trans hge⟩
    · exact ⟨(hbacklog p (by simp [hp])).1, hsent p hp⟩
  case sentMade => exact hle _ hmade fun p hp => (hbacklog p (by simp [hp])).2
  case backlogMade => exact fun p hp => hbacklog p (hkept.subset hp)
  case backlogRising => exact hrising.sublist (sublist_seqs hkept)
  case seqBound => exact hbound
  case ackRange => exact ⟨hack.1, by omega⟩

theorem ChainOk.sendWaiting (h : ChainOk s) (hseq : SequencingOk s) :
    ChainOk (sendWaiting now before sent after s) := by
  obtain ⟨hge, hsent, -⟩ := toNat_highestOf s.cfg s.highestSent sent
  have hdistinct := hseq.distinct
  rw [hback] at hdistinct
  rw [chainOk_iff, hback] at h
  obtain ⟨honce, hall⟩ := h
  rw [chainOk_iff]
  simp only [sendWaiting_chain_seqs, sendWaiting_cfg, sendWaiting_curAck, sendWaiting_highestSent,
    sendWaiting_window, sendWaiting_backlog, seqs_append, List.nodup_append, List.mem_append] at hdistinct hall ⊢
  obtain ⟨-, ⟨-, ⟨hnodup, -, hafter⟩, hbefore⟩, -⟩ := hdistinct
  refine ⟨⟨honce, hnodup, ?_⟩, ?_⟩
  · rintro q hq _ hq' rfl
    exact (hall q hq).2.1 (.inr (.inl hq'))
  · rintro q (hq | hq)
    · obtain ⟨h1, h2, h3⟩ := hall q hq
      exact ⟨h1.trans hge, fun hm => h2 (hm.imp_right .inr), fun hack => .inl (h3 hack)⟩
    · obtain ⟨p, hp, rfl⟩ := mem_seqs.mp hq
      refine ⟨hsent p hp, ?_, fun _ => .inr hq⟩
      rintro (hm | hm)
      · exact hbefore _ hm _ (.inl hq) rfl
      · exact hafter _ hq _ hm rfl

/-- Sending no more packets than the window has room for keeps the invariant (10_state.md R37). -/
theorem EngineInv.sendWaiting (h : EngineInv s) (hrun : s.fatal = 0) (hroom : sent.length ≤ s.wcap - s.window.length) :
    EngineInv (sendWaiting now before sent after s) where
  cfgOk := by simpa using h.cfgOk
  sizes := by
    obtain ⟨hw, hb, hr⟩ := h.sizes
    rw [hback] at hb
    constructor <;> simp only [sendWaiting_cfg, sendWaiting_window, sendWaiting_backlog, sendWaiting_rbuf]
    case window =>
      intro p hp
      obtain hp | hp := List.mem_append.mp hp
      · exact hw p hp
      · exact hb p (by simp [hp])
    case backlog =>
      intro p hp
      obtain hp | hp := List.mem_append.mp hp
      · exact hb p (by simp [hp])
      · exact hb p (by simp [hp])
    case rbuf => exact hr
  sequencing := h.sequencing.sendWaiting hback
  chainOk := h.chainOk.sendWaiting hback h.sequencing
  capacity := by
    obtain ⟨hcap, hfixed, hbound⟩ := h.capacity
    constructor <;> simp only [sendWaiting_cfg, sendWaiting_wcap, sendWaiting_window]
    case cap => exact hcap
    case fixedCap => exact hfixed
    case windowBound =>
      rw [List.length_append]
      omega
  receiver := h.receiver.congr (by simp) (by simp) (by simp)
  dup := h.dup.congr (by simp)
  latch := by
    constructor
    case armed =>
      rw [timerArmed_sendWaiting, sendWaiting_tmr]
      cases harmed : timerArmed s with
      | true => simp [h.latch.armed, harmed]
      | false => cases sent <;> simp [h.latch.armed, harmed]
    case latch => exact .inl (by simpa using hrun)

end SendWaiting

/-! ### Queueing a message keeps the invariant -/

/-- Packets numbered on from `SEQ`, within the numbers there are (41_segmenter.md R131, R132). -/
structure Fresh (s : State) (ps : List Packet) : Prop where
  sizes : ∀ p ∈ ps, p.length = s.cfg.pktSize
  above : ∀ p ∈ ps, s.seq.toNat < (seqOf s.cfg p).toNat
  upTo : ∀ p ∈ ps, (seqOf s.cfg p).toNat ≤ s.seq.toNat + ps.length
  rising : (seqs s.cfg ps).Pairwise (· < ·)
  room : s.seq.toNat + ps.length ≤ Config.lastSeq

/-- The packets of an accepted message are fresh (41_segmenter.md R133, R136). -/
theorem fresh_split {s : State} {data : Message} (hcfg : s.cfg.WF)
    (hroom : s.seq.toNat + packetCount s.cfg data.length ≤ Config.lastSeq) : Fresh s (split s.cfg s.seq data) := by
  have hlast : Config.lastSeq = 0xFFFFFFFE := rfl
  have hnum : ∀ i < packetCount s.cfg data.length,
      (seqOf s.cfg (messagePacket s.cfg s.seq data i)).toNat = s.seq.toNat + (i + 1) := by
    intro i hi
    rw [(messagePacket_fields hcfg s.seq data i).2.1, toNat_seq_add _ _ (by omega)]
  rw [split_eq hcfg]
  constructor
  case sizes =>
    intro p hp
    obtain ⟨i, -, rfl⟩ := List.mem_map.mp hp
    exact (messagePacket_fields hcfg s.seq data i).1
  case above =>
    intro p hp
    obtain ⟨i, hi, rfl⟩ := List.mem_map.mp hp
    rw [hnum i (List.mem_range.mp hi)]
    omega
  case upTo =>
    intro p hp
    obtain ⟨i, hi, rfl⟩ := List.mem_map.mp hp
    rw [hnum i (List.mem_range.mp hi), length_messagePackets]
    have := List.mem_range.mp hi
    omega
  case rising =>
    simp only [seqs, messagePackets, List.pairwise_map]
    refine List.pairwise_lt_range.imp_of_mem fun {i j} hi hj hij => ?_
    rw [BitVec.lt_def, hnum i (List.mem_range.mp hi), hnum j (List.mem_range.mp hj)]
    omega
  case room => rwa [length_messagePackets]

/-- No number in use is above `SEQ` (10_state.md R36). -/
theorem SequencingOk.le_seq {s : State} (h : SequencingOk s) :
    ∀ q ∈ seqs s.cfg (s.window ++ s.backlog), q.toNat ≤ s.seq.toNat := by
  intro q hq
  obtain ⟨p, hp, rfl⟩ := mem_seqs.mp hq
  obtain hp | hp := List.mem_append.mp hp
  · exact (h.windowSent p hp).2.trans h.sentMade
  · exact (h.backlogMade p hp).2

section Enqueue
variable {s : State} {ps : List Packet} (hfresh : Fresh s ps)
include hfresh

theorem toNat_seq_enqueue : (enqueue ps s).seq.toNat = s.seq.toNat + ps.length := by
  have hlast : Config.lastSeq = 0xFFFFFFFE := rfl
  have := hfresh.room
  exact toNat_seq_add _ _ (by omega)

/-- The new numbers are above all numbers in use. -/
theorem lt_fresh (h : SequencingOk s) {q q' : Seq} (hq : q ∈ seqs s.cfg (s.window ++ s.backlog))
    (hq' : q' ∈ seqs s.cfg ps) : q < q' := by
  obtain ⟨p, hp, rfl⟩ := mem_seqs.mp hq'
  exact Nat.lt_of_le_of_lt (h.le_seq q hq) (hfresh.above p hp)

theorem SequencingOk.enqueue (h : SequencingOk s) : SequencingOk (enqueue ps s) := by
  have hseq := toNat_seq_enqueue hfresh
  constructor
  case distinct =>
    show (seqs s.cfg (s.window ++ (s.backlog ++ ps))).Nodup
    rw [← List.append_assoc, seqs_append, List.nodup_append]
    refine ⟨h.distinct, hfresh.rising.imp BitVec.ne_of_lt, fun q hq q' hq' => BitVec.ne_of_lt ?_⟩
    exact lt_fresh hfresh h hq hq'
  case windowSent => exact h.windowSent
  case sentMade =>
    rw [hseq]
    exact h.sentMade.trans (Nat.le_add_right _ _)
  case backlogMade =>
    intro p hp
    rw [hseq]
    obtain hp | hp := List.mem_append.mp hp
    · exact ⟨(h.backlogMade p hp).1, (h.backlogMade p hp).2.trans (Nat.le_add_right _ _)⟩
    · exact ⟨Nat.lt_of_le_of_lt (Nat.zero_le _) (hfresh.above p hp), hfresh.upTo p hp⟩
  case backlogRising =>
    show (seqs s.cfg (s.backlog ++ ps)).Pairwise (· < ·)
    rw [seqs_append, List.pairwise_append]
    refine ⟨h.backlogRising, hfresh.rising, fun q hq q' hq' => lt_fresh hfresh h ?_ hq'⟩
    rw [seqs_append]
    exact List.mem_append_right _ hq
  case seqBound => exact hseq ▸ hfresh.room
  case ackRange => exact h.ackRange

theorem ChainOk.enqueue (h : ChainOk s) (hseq : SequencingOk s) : ChainOk (enqueue ps s) := by
  rw [chainOk_iff] at h ⊢
  obtain ⟨honce, hall⟩ := h
  refine ⟨honce, fun q hq => ?_⟩
  obtain ⟨h1, h2, h3⟩ := hall q hq
  refine ⟨h1, ?_, h3⟩
  show q ∉ seqs s.cfg (s.backlog ++ ps)
  rw [seqs_append, List.mem_append]
  rintro (hm | hm)
  · exact h2 hm
  · obtain ⟨p, hp, rfl⟩ := mem_seqs.mp hm
    have := hfresh.above p hp
    have := hseq.sentMade
    omega

theorem EngineInv.enqueue (h : EngineInv s) : EngineInv (enqueue ps s) where
  cfgOk := h.cfgOk
  sizes := by
    obtain ⟨hw, hb, hr⟩ := h.sizes
    refine ⟨hw, fun p hp => ?_, hr⟩
    obtain hp | hp := List.mem_append.mp hp
    · exact hb p hp
    · exact hfresh.sizes p hp
  sequencing := h.sequencing.enqueue hfresh
  chainOk := h.chainOk.enqueue hfresh h.sequencing
  capacity := h.capacity.congr rfl le_rfl h.capacity.cap fun _ _ => rfl
  receiver := h.receiver.congr rfl rfl rfl
  dup := h.dup.congr rfl
  latch := h.latch.congr rfl rfl rfl

end Enqueue

/-- An accepted message keeps the invariant (41_segmenter.md R136). -/
theorem EngineInv.sendMessage {now : Time} {data : Message} {s : State} (h : EngineInv s) (hrun : s.fatal = 0)
    (hroom : s.seq.toNat + packetCount s.cfg data.length ≤ Config.lastSeq) : EngineInv (sendMessage now data s) := by
  rw [sendMessage_eq_sendWaiting]
  refine (h.enqueue (fresh_split h.cfgOk hroom)).sendWaiting ?_ hrun (List.length_take_le _ _)
  rw [List.take_append_drop]
  rfl

end Sys2Proof.Machine
end

section
/-! PROOFS. Acknowledgments, timer firings and lifecycle commands keep the sender half of the engine's invariant
(10_state.md R36 to R39; 44_congestion.md R169). -/

namespace Sys2Proof.Machine

theorem cc_wf {cfg : Cfg} (h : cfg.WF) : cfg.cc.wf = true := by
  obtain ⟨-, -, -, hcc⟩ := h
  exact hcc

/-! ### The capacity stays within its bounds (44_congestion.md R169) -/

section Bounds
variable {cc : CcMode} {w : Nat} (hcc : cc.wf = true) (hw : 1 ≤ w ∧ w ≤ cc.bound)
include hw

theorem halvedCap_bounds : 1 ≤ halvedCap cc w ∧ halvedCap cc w ≤ cc.bound := by
  cases cc with
  | fixed c => exact hw
  | aimd base ub =>
    simp only [halvedCap, CcMode.bound] at hw ⊢
    omega

include hcc

theorem increasedCap_bounds : 1 ≤ increasedCap cc w ∧ increasedCap cc w ≤ cc.bound := by
  cases cc with
  | fixed c => exact hw
  | aimd base ub =>
    simp only [CcMode.wf, Bool.and_eq_true, decide_eq_true_eq] at hcc
    simp only [increasedCap, CcMode.bound] at hw ⊢
    split <;> omega

theorem timeoutCap_bounds : 1 ≤ timeoutCap cc w ∧ timeoutCap cc w ≤ cc.bound := by
  cases cc with
  | fixed c => exact hw
  | aimd base ub => simpa [CcMode.wf, timeoutCap, CcMode.bound] using hcc

end Bounds

/-- Mode `Fixed` has no congestion response (44_congestion.md R165). -/
theorem fixed_caps {cc : CcMode} {c : Nat} (hcc : cc = .fixed c) (w : Nat) :
    halvedCap cc w = w ∧ increasedCap cc w = w ∧ timeoutCap cc w = w := by
  subst hcc
  exact ⟨rfl, rfl, rfl⟩

/-- Only the third ack of a value halves the capacity (45_ack_processor.md R178). -/
theorem countAck_wcap (a : Seq) (now : Time) (s : State) : (countAck a now s).wcap =
    if dupGet s.dupcnt a = 2 then halvedCap s.cfg.cc s.wcap else s.wcap := by rw [countAck_eq]

theorem countAck_dupcnt (a : Seq) (now : Time) (s : State) : (countAck a now s).dupcnt = countsAfter a s.dupcnt := by
  rw [countAck_eq]

/-! ### Counting an ack -/

/-- The chain after an ack was counted: at most the entry of its number has gone (43_timer_chain.md R151). -/
theorem countAck_chain_sublist (a : Seq) (now : Time) (s : State) : (countAck a now s).chain.Sublist s.chain := by
  rw [countAck_eq]
  show (if resentBy a s = [] then s.chain else s.chain.eraseP fun e => e.seq == a).Sublist s.chain
  split
  · exact List.Sublist.refl _
  · exact List.eraseP_sublist

/-- `cancel` keeps the timer armed exactly while the chain is not empty (10_state.md R39). -/
theorem cancelTimer_isSome (chain : List ChainEntry) (a : Seq) (now : Time) (tmr : Option Nat)
    (h : tmr.isSome = !chain.isEmpty) :
    (cancelTimer chain a now tmr).isSome = !(chain.eraseP fun e => e.seq == a).isEmpty := by
  match chain with
  | [] => exact h
  | [e] => by_cases hq : e.seq = a <;> simp_all [cancelTimer]
  | e :: e' :: rest => by_cases hq : e.seq = a <;> simp_all [cancelTimer]

theorem countAck_armed {a : Seq} {now : Time} {s : State} (h : s.tmr.isSome = timerArmed s) :
    (countAck a now s).tmr.isSome = timerArmed (countAck a now s) := by
  rw [countAck_eq]
  by_cases hr : resentBy a s = []
  · simpa [timerArmed, hr] using h
  · simpa [timerArmed, hr] using cancelTimer_isSome s.chain a now s.tmr h

/-- The counts stay at most 2: the third ack clears its count (10_state.md R34; 45_ack_processor.md R177). -/
theorem countsAfter_ok {a : Seq} {m : DupMap} (hwf : DupWf m) (hsmall : ∀ e ∈ m, e.2 ≤ 2) :
    DupWf (countsAfter a m) ∧ ∀ e ∈ countsAfter a m, e.2 ≤ 2 := by
  refine ⟨dupSet_wf m a _ hwf, fun e he => ?_⟩
  obtain he | ⟨rfl, -⟩ := mem_dupSet he
  · exact hsmall e he
  · have hcount : dupGet m a ≤ 2 := by
      by_cases h0 : dupGet m a = 0
      · omega
      · exact hsmall _ (mem_of_dupGet h0)
    show (if dupGet m a = 2 then 0 else dupGet m a + 1) ≤ 2
    split <;> omega

theorem EngineInv.countAck {a : Seq} {now : Time} {s : State} (h : EngineInv s) (hrun : s.fatal = 0) :
    EngineInv (countAck a now s) where
  cfgOk := by simpa using h.cfgOk
  sizes := h.sizes.congr (by simp) (by simp) (by simp) (by simp)
  sequencing := h.sequencing.congr (by simp) (by simp) (by simp) (by simp) (by simp) (by simp)
  chainOk := h.chainOk.congr (by simp) ((countAck_chain_sublist a now s).map _).subperm (by simp) (by simp) (by simp)
    (by simp)
  capacity := by
    refine h.capacity.congr (by simp) (by simp) ?_ fun c hc => ?_
    · rw [countAck_wcap]
      split
      · exact halvedCap_bounds h.capacity.cap
      · exact h.capacity.cap
    · rw [countAck_wcap, (fixed_caps hc s.wcap).1, ite_self]
  receiver := h.receiver.congr (by simp) (by simp) (by simp)
  dup := by
    obtain ⟨h1, h2⟩ := countsAfter_ok (a := a) h.dup.canonical h.dup.small
    constructor <;> rwa [countAck_dupcnt]
  latch := ⟨countAck_armed h.latch.armed, .inl (by simpa using hrun)⟩

/-! ### Advancing -/

/-- An ack up to `HIGHEST_SENT + 1` (45_ack_processor.md R180) evicts the entries below it. -/
theorem EngineInv.evict {a : Seq} {s : State} (h : EngineInv s) (hlt : s.curAck < a)
    (hack : a.toNat ≤ s.highestSent.toNat + 1) : EngineInv (evict a s) where
  cfgOk := h.cfgOk
  sizes := ⟨fun p hp => h.sizes.window p (mem_evict.mp hp).1, h.sizes.backlog, h.sizes.rbuf⟩
  sequencing := by
    obtain ⟨hdistinct, hwindow, hmade, hbacklog, hrising, hbound, hrange⟩ := h.sequencing
    have hsub : ((Machine.evict a s).window ++ s.backlog).Sublist (s.window ++ s.backlog) :=
      List.filter_sublist.append_right s.backlog
    exact ⟨hdistinct.sublist (sublist_seqs hsub), fun p hp => hwindow p (mem_evict.mp hp).1, hmade, hbacklog,
      hrising, hbound, hrange.1.trans (Nat.le_of_lt hlt), hack⟩
  chainOk := by
    obtain ⟨honce, hsent, hlive⟩ := h.chainOk
    refine ⟨honce, hsent, fun e he hae => ?_⟩
    obtain ⟨p, hp, hq⟩ := hlive e he (Nat.le_of_lt (Nat.lt_of_lt_of_le hlt hae))
    exact ⟨p, mem_evict.mpr ⟨hp, hq ▸ hae⟩, hq⟩
  capacity := h.capacity.congr rfl (List.length_filter_le _ _) h.capacity.cap fun _ _ => rfl
  receiver := h.receiver.congr rfl rfl rfl
  dup := h.dup.congr rfl
  latch := h.latch.congr rfl rfl rfl

theorem EngineInv.advance {a : Seq} {now : Time} {s : State} (h : EngineInv s) (hrun : s.fatal = 0)
    (hack : a.toNat ≤ s.highestSent.toNat + 1) : EngineInv (advance a now s) := by
  by_cases hlt : s.curAck < a
  · rw [advance_eq_sendWaiting a now s hlt]
    refine (h.evict hlt hack).sendWaiting ?_ hrun (List.length_take_le _ _)
    rw [List.nil_append, List.take_append_drop]
    rfl
  · rwa [advance_of_not_lt a now s hlt]

theorem EngineInv.aimdIncrease {s : State} (h : EngineInv s) : EngineInv (aimdIncrease s) where
  cfgOk := by simpa using h.cfgOk
  sizes := h.sizes.congr (by simp) (by simp) (by simp) (by simp)
  sequencing := h.sequencing.congr (by simp) (by simp) (by simp) (by simp) (by simp) (by simp)
  chainOk := h.chainOk.congr (by simp) (by rw [aimdIncrease_chain]) (by simp) (by simp) (by simp) (by simp)
  capacity := h.capacity.congr (by simp) (by simp)
    (aimdIncrease_wcap s ▸ increasedCap_bounds (cc_wf h.cfgOk) h.capacity.cap)
    fun c hc => by rw [aimdIncrease_wcap, (fixed_caps hc s.wcap).2.1]
  receiver := h.receiver.congr (by simp) (by simp) (by simp)
  dup := h.dup.congr (by simp)
  latch := h.latch.congr (by simp) (by simp) (by simp)

/-- An accepted ack keeps the invariant (45_ack_processor.md R179). -/
theorem EngineInv.acceptAck {a : Seq} {now : Time} {s : State} (h : EngineInv s) (hrun : s.fatal = 0)
    (hack : a.toNat ≤ s.highestSent.toNat + 1) : EngineInv (acceptAck a now s) :=
  ((h.countAck hrun).advance (by simpa using hrun) (by simpa using hack)).aimdIncrease

/-! ### A timer firing -/

/-- With its head popped, and dropped or moved to the tail, the chain is rearmed for its new head
(43_timer_chain.md R155 to R157). -/
theorem EngineInv.rearm {now : Time} {s : State} {chain : List ChainEntry} {cap ctr : Nat} {actions : List Action}
    (h : EngineInv s) (hrun : s.fatal = 0)
    (hchain : (chain.map ChainEntry.seq).Subperm (s.chain.map ChainEntry.seq))
    (hcap : 1 ≤ cap ∧ cap ≤ s.cfg.cc.bound) (hfixed : ∀ c, s.cfg.cc = .fixed c → cap = s.wcap) :
    EngineInv (rearm now
      { s with chain := chain, tmr := none, wcap := cap, actions := actions, freeCtr := ctr }) := by
  rw [rearm_eq]
  constructor
  case cfgOk => exact h.cfgOk
  case sizes => exact h.sizes.congr rfl rfl rfl rfl
  case sequencing => exact h.sequencing.congr rfl rfl rfl rfl rfl rfl
  case chainOk => exact h.chainOk.congr rfl hchain rfl rfl rfl rfl
  case capacity => exact h.capacity.congr rfl le_rfl hcap hfixed
  case receiver => exact h.receiver.congr rfl rfl rfl
  case dup => exact h.dup.congr rfl
  case latch =>
    refine ⟨?_, .inl hrun⟩
    cases chain with
    | nil => rfl
    | cons head rest => rfl

/-- A firing on an empty chain halts the engine (43_timer_chain.md R154). -/
theorem EngineInv.halt {s : State} (h : EngineInv s) (hrun : s.fatal = 0) (hc : s.chain = []) :
    EngineInv (fatalStop .timerEmpty { s with tmr := none }) where
  cfgOk := h.cfgOk
  sizes := h.sizes.congr rfl rfl rfl rfl
  sequencing := h.sequencing.congr rfl rfl rfl rfl rfl rfl
  chainOk := h.chainOk.congr rfl (List.Subperm.refl _) rfl rfl rfl rfl
  capacity := h.capacity.congr rfl le_rfl h.capacity.cap fun _ _ => rfl
  receiver := h.receiver.congr rfl rfl rfl
  dup := h.dup.congr rfl
  latch := by
    constructor
    · simp [timerArmed, hc]
    · exact .inr ⟨by simp [hrun, FatalCode.code], hc⟩

/-- The timer clause of the invariant holds again at the end of `SND_TIMER`, which is issued with the timer disarmed. -/
theorem EngineInv.onFire {now : Time} {s : State} (h : EngineInv s) (hrun : s.fatal = 0) :
    EngineInv (onFire now { s with tmr := none }) := by
  obtain ⟨hc, he⟩ | ⟨e, rest, hc, ⟨hlive, hmiss, he⟩ | ⟨p, hp, hq, hlive, he⟩ | ⟨hstale, he⟩⟩ :=
    onFire_cases now { s with tmr := none }
  · rw [he]
    exact h.halt hrun hc
  · have hmem : e ∈ s.chain := hc ▸ List.mem_cons_self
    obtain ⟨p, hp, hq⟩ := h.chainOk.live e hmem hlive
    exact absurd hq (hmiss p hp)
  · rw [he, retransmit_eq]
    refine h.rearm hrun ?_ (timeoutCap_bounds (cc_wf h.cfgOk) h.capacity.cap) fun c hcc => (fixed_caps hcc _).2.2
    have hc : s.chain = e :: rest := hc
    rw [hc, List.map_append]
    exact (List.perm_append_singleton e.seq _).subperm
  · rw [he]
    refine h.rearm hrun ?_ h.capacity.cap fun _ _ => rfl
    have hc : s.chain = e :: rest := hc
    rw [hc]
    exact (List.sublist_cons_self _ _).subperm

/-- With no deadline pending the host's timer is not armed (10_state.md R39). -/
theorem LatchOk.tmr_of_idle {s : State} (h : LatchOk s) (hidle : timerArmed s = false) : s.tmr = none :=
  Option.not_isSome_iff_eq_none.mp (by rw [h.armed, hidle]; exact Bool.false_ne_true)

/-- The engine halts on an empty chain only (43_timer_chain.md R154). -/
theorem LatchOk.chain_of_halted {s : State} (h : LatchOk s) (hhalt : s.fatal ≠ 0) : s.chain = [] :=
  h.latch.elim (absurd · hhalt) And.right

theorem LatchOk.tmr_of_halted {s : State} (h : LatchOk s) (hhalt : s.fatal ≠ 0) : s.tmr = none :=
  h.tmr_of_idle (by simp [timerArmed, h.chain_of_halted hhalt])

/-! ### The lifecycle commands and hardware reset -/

theorem initialCap_bounds {cc : CcMode} (hcc : cc.wf = true) : 1 ≤ cc.initialCap ∧ cc.initialCap ≤ cc.bound := by
  cases cc <;> simpa [CcMode.wf, CcMode.initialCap, CcMode.bound] using hcc

/-- A sender half at its reset values (47_lifecycle.md R200; 70_reset_and_hazards.md R240). -/
structure SenderAtReset (s : State) : Prop where
  seq : s.seq = 0
  curAck : s.curAck = 1
  highestSent : s.highestSent = 0
  wcap : s.wcap = s.cfg.cc.initialCap
  window : s.window = []
  backlog : s.backlog = []
  chain : s.chain = []
  dupcnt : s.dupcnt = []
  tmr : s.tmr = none

/-- The invariant with the sender half at its reset values. -/
theorem EngineInv.of_senderAtReset {s : State} (hcfg : s.cfg.WF) (hs : SenderAtReset s) (hreceiver : ReceiverOk s)
    (hrbuf : ∀ p ∈ s.rbuf, p.length = s.cfg.pktSize) (hrun : s.fatal = 0) : EngineInv s := by
  obtain ⟨hseq, hack, hsent, hcap, hwindow, hbacklog, hchain, hdup, htmr⟩ := hs
  constructor
  case cfgOk => exact hcfg
  case sizes => exact ⟨by simp [hwindow], by simp [hbacklog], hrbuf⟩
  case sequencing =>
    constructor <;> simp [hseq, hack, hsent, hwindow, hbacklog]
  case chainOk => constructor <;> simp [hchain]
  case capacity =>
    refine ⟨hcap ▸ initialCap_bounds (cc_wf hcfg), fun c hc => by rw [hcap, hc]; rfl, by simp [hwindow]⟩
  case receiver => exact hreceiver
  case dup => constructor <;> simp [hdup, DupWf]
  case latch => exact ⟨by simp [timerArmed, htmr, hchain], .inl hrun⟩

/-- An empty reorder buffer that expects number 1 (10_state.md R46). -/
theorem receiverOk_of_empty {s : State} (hexpected : s.expected = 1) (hrbuf : s.rbuf = []) : ReceiverOk s := by
  constructor <;> simp [hexpected, hrbuf]

theorem engineInv_atReset {s : State} (hcfg : s.cfg.WF) (hs : SenderAtReset s) (hexpected : s.expected = 1)
    (hrbuf : s.rbuf = []) (hrun : s.fatal = 0) : EngineInv s :=
  .of_senderAtReset hcfg hs (receiverOk_of_empty hexpected hrbuf) (by simp [hrbuf]) hrun

theorem EngineInv.hardwareReset {s : State} (h : EngineInv s) : EngineInv (hardwareReset s) :=
  engineInv_atReset h.cfgOk ⟨rfl, rfl, rfl, rfl, rfl, rfl, rfl, rfl, rfl⟩ rfl rfl rfl

/-- `SND_INIT` and `SND_FINAL` disarm the timer exactly when it is armed (47_lifecycle.md R200). -/
theorem EngineInv.resetSender {s : State} (h : EngineInv s) (hrun : s.fatal = 0) : EngineInv (resetSender s) := by
  have htmr : (Machine.resetSender s).tmr = none := by
    rw [resetSender_tmr]
    cases harmed : timerArmed s with
    | true => rfl
    | false => exact h.latch.tmr_of_idle harmed
  exact .of_senderAtReset (by simpa using h.cfgOk)
    ⟨by simp, by simp, by simp, by simp, by simp, by simp, by simp, by simp, htmr⟩
    (h.receiver.congr (by simp) (by simp) (by simp)) (by simpa using h.sizes.rbuf) (by simpa using hrun)

/-- Settles O46: every queue is empty and every counter at its start. -/
theorem resetMeetsEngineInv : Obligations.ResetMeetsEngineInv := by
  have hreset : ∀ (cfg : Cfg) (input : List PortEvent), cfg.WF → EngineInv { State.ofCfg cfg with input := input } :=
    fun cfg input hcfg => engineInv_atReset hcfg ⟨rfl, rfl, rfl, rfl, rfl, rfl, rfl, rfl, rfl⟩ rfl rfl rfl
  exact ⟨hreset, hreset Cfg.reference [] (by decide)⟩

end Sys2Proof.Machine
end

section
/-! PROOFS. The receiver half of the engine's invariant (10_state.md R40), and the whole invariant over every step. -/

namespace Sys2Proof.Machine

/-! ### The drain -/

/-- A reorder buffer whose head may be due: what holds between the placing of a packet and the drain
(46_reorder_buffer.md R190). -/
structure DrainOk (cfg : Cfg) (expected : Seq) (ps : List Packet) : Prop where
  rising : (seqs cfg ps).Pairwise (· < ·)
  reached : ∀ p ∈ ps, expected ≤ seqOf cfg p
  usable : ∀ p ∈ ps, seqOf cfg p ≠ 0xFFFFFFFF
  started : 1 ≤ expected.toNat

/-- The number after a usable one does not wrap around (46_reorder_buffer.md R192). -/
theorem toNat_succ_of_usable {q : Seq} (h : q ≠ 0xFFFFFFFF) : (q + 1).toNat = q.toNat + 1 := by
  have hne : q.toNat ≠ (0xFFFFFFFF : Seq).toNat := fun he => h (BitVec.eq_of_toNat_eq he)
  have hval : (0xFFFFFFFF : Seq).toNat = 2 ^ 32 - 1 := rfl
  exact toNat_seq_succ q (by have := q.isLt; omega)

/-- `EXPECTED` moves on by the packets drained, without wrapping around, and the buffer that stays lies above it. -/
theorem DrainOk.drained {cfg : Cfg} {e : Seq} {ps : List Packet} (h : DrainOk cfg e ps) :
    (e + BitVec.ofNat 32 (runLength cfg e ps)).toNat = e.toNat + runLength cfg e ps ∧
    ∀ p ∈ ps.drop (runLength cfg e ps), e + BitVec.ofNat 32 (runLength cfg e ps) < seqOf cfg p := by
  induction ps generalizing e with
  | nil => simp [runLength]
  | cons p ps ih =>
    obtain ⟨hrising, hreached, husable, hstarted⟩ := h
    obtain ⟨hhead, htail⟩ := List.pairwise_cons.mp hrising
    by_cases hdue : seqOf cfg p = e
    · have hsucc : (e + 1).toNat = e.toNat + 1 := toNat_succ_of_usable (hdue ▸ husable p List.mem_cons_self)
      have hnext : DrainOk cfg (e + 1) ps := by
        refine ⟨htail, fun p' hp' => ?_, fun p' hp' => husable p' (List.mem_cons_of_mem _ hp'), by omega⟩
        have hlt := hhead _ (seqOf_mem_seqs hp')
        rw [hdue, BitVec.lt_def] at hlt
        rw [BitVec.le_def]
        omega
      obtain ⟨h1, h2⟩ := ih hnext
      rw [seq_succ_add] at h1 h2
      simp only [runLength, if_pos hdue, List.drop_succ_cons]
      exact ⟨by omega, h2⟩
    · simp only [runLength, if_neg hdue, List.drop_zero]
      have hlt : e < seqOf cfg p := Std.lt_of_le_of_ne (hreached p List.mem_cons_self) (Ne.symm hdue)
      refine ⟨by simp, fun p' hp' => ?_⟩
      rw [BitVec.add_zero]
      obtain rfl | hp' := List.mem_cons.mp hp'
      · exact hlt
      · exact BitVec.lt_trans hlt (hhead _ (seqOf_mem_seqs hp'))

/-- After the drain the buffer lies above `EXPECTED` again (10_state.md R40). -/
theorem DrainOk.receiverOk {s : State} (h : DrainOk s.cfg s.expected s.rbuf) : ReceiverOk (rxDrain s) := by
  obtain ⟨hnum, hahead⟩ := h.drained
  obtain ⟨hrising, -, husable, hstarted⟩ := h
  rw [rxDrain_eq]
  constructor
  case rising => exact hrising.sublist (sublist_seqs (List.drop_sublist _ _))
  case ahead => exact hahead
  case usable => exact fun p hp => husable p (List.mem_of_mem_drop hp)
  case started =>
    show 1 ≤ (s.expected + BitVec.ofNat 32 _).toNat
    rw [hnum]
    omega

theorem DrainOk.le_expected {s : State} (h : DrainOk s.cfg s.expected s.rbuf) :
    s.expected.toNat ≤ (rxDrain s).expected.toNat := by
  rw [rxDrain_eq]
  exact h.drained.1 ▸ Nat.le_add_right _ _

/-! ### Placing a packet -/

theorem ReceiverOk.drainOk {s : State} (h : ReceiverOk s) : DrainOk s.cfg s.expected s.rbuf :=
  ⟨h.rising, fun p hp => BitVec.le_of_lt (h.ahead p hp), h.usable, h.started⟩

/-- Delivering the expected packet: what is buffered lies at or above the next number (46_reorder_buffer.md R187). -/
theorem drainOk_deliver {pkt : Packet} {s : State} (h : ReceiverOk s) (hdue : seqOf s.cfg pkt = s.expected)
    (hlast : seqOf s.cfg pkt ≠ 0xFFFFFFFF) : DrainOk s.cfg (deliver pkt s).expected s.rbuf := by
  have hsucc : (s.expected + 1).toNat = s.expected.toNat + 1 := toNat_succ_of_usable (hdue ▸ hlast)
  refine ⟨h.rising, fun p hp => ?_, h.usable, ?_⟩
  · have hlt := h.ahead p hp
    rw [BitVec.lt_def] at hlt
    rw [deliver_expected, BitVec.le_def]
    omega
  · rw [deliver_expected]
    omega

/-- Buffering a packet ahead (46_reorder_buffer.md R188): the buffer stays ascending, above `EXPECTED`. -/
theorem drainOk_rxInsert {pkt : Packet} {s : State} (h : ReceiverOk s) (hahead : s.expected < seqOf s.cfg pkt)
    (hlast : seqOf s.cfg pkt ≠ 0xFFFFFFFF) :
    (rxInsert pkt s).expected = s.expected ∧ DrainOk s.cfg s.expected (rxInsert pkt s).rbuf ∧
    ∀ p ∈ (rxInsert pkt s).rbuf, p = pkt ∨ p ∈ s.rbuf := by
  obtain ⟨-, he⟩ | ⟨-, lower, higher, hsplit, hlower, hhigher, he⟩ := rxInsert_cases pkt s h.rising
  · rw [he]
    exact ⟨rfl, h.drainOk, fun p hp => .inr hp⟩
  · have hmem : ∀ p ∈ lower ++ [pkt] ++ higher, p = pkt ∨ p ∈ s.rbuf := by
      intro p hp
      rw [hsplit]
      simp only [List.mem_append, List.mem_singleton] at hp ⊢
      tauto
    have hrising := h.rising
    rw [hsplit, seqs_append, List.pairwise_append] at hrising
    obtain ⟨hl, hh, hlh⟩ := hrising
    rw [he]
    refine ⟨rfl, ⟨?_, fun p hp => ?_, fun p hp => ?_, h.started⟩, hmem⟩
    · simp only [List.append_assoc, seqs_append, List.pairwise_append, List.mem_append]
      refine ⟨hl, ⟨List.pairwise_singleton _ _, hh, fun q hq q' hq' => ?_⟩, fun q hq q' hq' => ?_⟩
      · obtain rfl := List.mem_singleton.mp hq
        obtain ⟨p, hp, rfl⟩ := mem_seqs.mp hq'
        exact hhigher p hp
      · obtain hq' | hq' := hq'
        · obtain rfl := List.mem_singleton.mp hq'
          obtain ⟨p, hp, rfl⟩ := mem_seqs.mp hq
          exact hlower p hp
        · exact hlh q hq q' hq'
    · obtain rfl | hp := hmem p hp
      · exact BitVec.le_of_lt hahead
      · exact h.drainOk.reached p hp
    · obtain rfl | hp := hmem p hp
      · exact hlast
      · exact h.usable p hp

/-- Whatever the packet, what its placing leaves can be drained; `EXPECTED` never falls. -/
theorem ReceiverOk.rxPlace {pkt : Packet} {s : State} (h : ReceiverOk s) :
    DrainOk s.cfg (rxPlace pkt s).expected (rxPlace pkt s).rbuf ∧
    s.expected.toNat ≤ (rxPlace pkt s).expected.toNat ∧ ∀ p ∈ (rxPlace pkt s).rbuf, p = pkt ∨ p ∈ s.rbuf := by
  obtain he | ⟨hdue, hlast, he⟩ | ⟨hahead, hlast, he⟩ := rxPlace_cases s pkt
  · rw [he]
    exact ⟨h.drainOk, le_rfl, fun p hp => .inr hp⟩
  · rw [he, deliver_expected, toNat_succ_of_usable (hdue ▸ hlast)]
    exact ⟨drainOk_deliver h hdue hlast, Nat.le_succ _, fun p hp => .inr hp⟩
  · obtain ⟨hexpected, hdrain, hmem⟩ := drainOk_rxInsert h hahead hlast
    rw [he, hexpected]
    exact ⟨hdrain, le_rfl, hmem⟩

/-- A data packet keeps the receiver's invariant, and `EXPECTED` never falls (10_state.md R40, R41). -/
theorem ReceiverOk.rcvPkt {pkt : Packet} {s : State} (h : ReceiverOk s) :
    ReceiverOk (rxDrain (Machine.rxPlace pkt s)) ∧
    s.expected.toNat ≤ (rxDrain (Machine.rxPlace pkt s)).expected.toNat ∧
    ∀ p ∈ (rxDrain (Machine.rxPlace pkt s)).rbuf, p = pkt ∨ p ∈ s.rbuf := by
  obtain ⟨hdrain, hle, hmem⟩ := h.rxPlace (pkt := pkt)
  rw [← (rxPlace_same s pkt).1] at hdrain
  refine ⟨hdrain.receiverOk, hle.trans hdrain.le_expected, fun p hp => hmem p ?_⟩
  rw [rxDrain_eq] at hp
  exact List.mem_of_mem_drop hp

/-! ### Every step -/

/-- A receiver command keeps the whole invariant if it keeps the receiver's part of it. -/
theorem EngineInv.of_receiver {i : Instr} {s t : State} (h : EngineInv s) (hexec : exec i s = .next t)
    (hi : halfOf i = .receiver) (hreceiver : ReceiverOk t) (hrbuf : ∀ p ∈ t.rbuf, p.length = s.cfg.pktSize) :
    EngineInv t := by
  obtain ⟨-, -, -, -, hsame⟩ := exec_beside hexec
  have htimer : ∀ now, i ≠ .sndTimer now := by
    rintro now rfl
    cases hi
  exact h.of_sameSender (exec_cfg hexec) (exec_fatal hexec htimer) (hsame hi) hreceiver hrbuf

/-- Every command but `SND_TIMER`, whose timer the host has disarmed before, keeps the invariant. -/
theorem EngineInv.exec {i : Instr} {s t : State} (h : EngineInv s) (hwf : i.wf s.cfg = true)
    (hi : ∀ now, i ≠ .sndTimer now) (hexec : exec i s = .next t) : EngineInv t := by
  cases exec_behaves hexec with
  | quiet => exact h.withPort _ _
  | sndInit hrun | sndFinal hrun => exact h.resetSender hrun
  | sndMsg now data hrun hroom => exact h.sendMessage hrun hroom
  | sndPkt now pkt hrun hack => exact h.acceptAck hrun hack
  | sndTimer now => exact absurd rfl (hi now)
  | rcvInit | rcvFinal => exact h.of_receiver hexec rfl (receiverOk_of_empty rfl rfl) nofun
  | rcvPkt pkt =>
    obtain ⟨hreceiver, -, hmem⟩ := h.receiver.rcvPkt (pkt := pkt)
    refine h.of_receiver hexec rfl (hreceiver.congr rfl rfl rfl) fun p hp => ?_
    obtain rfl | hp := hmem p hp
    · simpa [Instr.wf, Packet.wf] using hwf
    · exact h.sizes.rbuf p hp

/-- What a step does to a state that meets the invariant: nothing but answer, a hardware reset, a timer firing, or
another accepted or refused command. A halted engine has no deadline pending, so its timer is not armed either. -/
theorem EngineInv.step_cases {s t : State} (h : EngineInv s) (hstep : step s = .next t) :
    (∃ input actions, t = { s with input := input, actions := actions }) ∨
    (∃ rest, s.input = .reset :: rest ∧ t = Machine.hardwareReset { s with input := rest }) ∨
    (∃ d rest now, s.input = .command d :: rest ∧ decode s.cfg d = .ok (.sndTimer now) ∧ s.fatal = 0 ∧
      t = Machine.onFire now { s with input := rest, tmr := none }) ∨
    ∃ d rest i, s.input = .command d :: rest ∧ decode s.cfg d = .ok i ∧ (∀ now, i ≠ .sndTimer now) ∧
      Machine.exec i { s with input := rest } = .next t := by
  obtain ⟨hin, rfl⟩ | hreset | ⟨d, rest, r, hin, hdec, rfl⟩ | ⟨d, rest, i, hin, hdec, hexec⟩ :=
    Machine.step_cases hstep
  · exact .inl ⟨t.input, t.actions, rfl⟩
  · exact .inr (.inl hreset)
  · exact .inl ⟨rest, _, rfl⟩
  · by_cases hi : ∃ now, i = .sndTimer now
    · obtain ⟨now, rfl⟩ := hi
      cases exec_behaves hexec with
      | quiet new hhalt =>
        have htmr : s.tmr = none := h.latch.tmr_of_halted (hhalt now rfl)
        refine .inl ⟨rest, s.actions ++ new, ?_⟩
        rw [issue_sndTimer, ← htmr]
      | sndTimer now hrun => exact .inr (.inr (.inl ⟨d, rest, now, hin, hdec, hrun, rfl⟩))
    · have hi : ∀ now, i ≠ .sndTimer now := fun now hnow => hi ⟨now, hnow⟩
      rw [issue_of_ne_sndTimer hi] at hexec
      exact .inr (.inr (.inr ⟨d, rest, i, hin, hdec, hi, hexec⟩))

/-- Settles O47, by the kinds of step: each operation keeps each part of the invariant. -/
theorem everyStepKeepsEngineInv : Obligations.EveryStepKeepsEngineInv := by
  intro s t h hstep
  obtain ⟨input, actions, rfl⟩ | ⟨rest, -, rfl⟩ | ⟨d, rest, now, -, -, hrun, rfl⟩ | ⟨d, rest, i, -, hdec, hi, hexec⟩ :=
    h.step_cases hstep
  · exact h.withPort input actions
  · exact (h.withPort rest s.actions).hardwareReset
  · exact (h.withPort rest s.actions).onFire hrun
  · exact (h.withPort rest s.actions).exec (decode_wf hdec) hi hexec

end Sys2Proof.Machine
end

section
/-! PROOFS. The order of window and backlog (10_state.md R36 (a), (e), (f)), the counters (R41), and where a window
packet below `CUR_ACK` comes from. -/

namespace Sys2Proof.Machine

/-! ### The accepted commands as a sending out of the backlog -/

/-- The packets of a message: `sent` finds room, `after` waits because the window is then full (42_send_window.md
R140). -/
theorem sendMessage_cases (now : Time) (data : Message) (s : State) :
    ∃ sent after, split s.cfg s.seq data = sent ++ after ∧ (s.wcap ≤ s.window.length → sent = []) ∧
      (after ≠ [] → s.wcap ≤ (s.window ++ sent).length) ∧
      sendMessage now data s = sendWaiting now s.backlog sent after (enqueue (split s.cfg s.seq data) s) := by
  refine ⟨_, _, (List.take_append_drop _ _).symm, fun hfull => ?_, fun hafter => ?_,
    sendMessage_eq_sendWaiting now data s⟩
  · rw [Nat.sub_eq_zero_of_le hfull, List.take_zero]
  · have hlt := Nat.lt_of_not_le (mt List.drop_eq_nil_of_le hafter)
    rw [List.length_append, List.length_take]
    omega

/-- An ack that does not advance is only counted; one that does evicts, and refills the window as far as there is room
(42_send_window.md R142; 45_ack_processor.md R179). -/
theorem acceptAck_cases (a : Seq) (now : Time) (s : State) :
    ¬ s.curAck < a ∧ acceptAck a now s = aimdIncrease (countAck a now s) ∨
    s.curAck < a ∧ ∃ sent after, s.backlog = sent ++ after ∧
      (after ≠ [] → (countAck a now s).wcap ≤ ((evict a s).window ++ sent).length) ∧
      acceptAck a now s = aimdIncrease (sendWaiting now [] sent after (evict a (countAck a now s))) := by
  have hwindow : (evict a (countAck a now s)).window = (evict a s).window := by simp [evict]
  by_cases hlt : s.curAck < a
  · have hlt' : (countAck a now s).curAck < a := by simpa using hlt
    have he := congrArg aimdIncrease (advance_eq_sendWaiting a now (countAck a now s) hlt')
    rw [countAck_backlog, hwindow] at he
    refine .inr ⟨hlt, _, _, (List.take_append_drop _ _).symm, fun hafter => ?_, he⟩
    have hlen := Nat.lt_of_not_le (mt List.drop_eq_nil_of_le hafter)
    rw [List.length_append, List.length_take]
    omega
  · exact .inl ⟨hlt, by rw [acceptAck, advance_of_not_lt _ _ _ (by simpa using hlt)]⟩

/-- A firing leaves the capacity or takes the timeout path (43_timer_chain.md R155). -/
theorem onFire_wcap (now : Time) (s : State) :
    (onFire now s).wcap = s.wcap ∨ (onFire now s).wcap = timeoutCap s.cfg.cc s.wcap := by
  obtain ⟨-, h⟩ | ⟨e, rest, -, ⟨-, -, h⟩ | ⟨p, -, -, -, h⟩ | ⟨-, h⟩⟩ := onFire_cases now s
  · exact .inl (by rw [h, fatalStop_wcap])
  · exact .inl (by rw [h, fatalStop_wcap])
  · exact .inr (by rw [h, rearm_eq, retransmit_eq])
  · exact .inl (by rw [h, rearm_eq])

/-! ### The order -/

section Order
variable {s t : State}

theorem OrderOk.congr (h : OrderOk s) (hcfg : t.cfg = s.cfg) (hwindow : t.window = s.window)
    (hbacklog : t.backlog = s.backlog) (hack : t.curAck = s.curAck) (hsent : t.highestSent = s.highestSent) :
    OrderOk t := by
  obtain ⟨h1, h2, h3⟩ := h
  constructor <;> simpa only [hcfg, hwindow, hbacklog, hack, hsent]

theorem OrderOk.of_sameSender (h : OrderOk s) (hcfg : t.cfg = s.cfg) (hsame : SameSender s t) : OrderOk t :=
  h.congr hcfg hsame.window hsame.backlog hsame.curAck hsame.highestSent

theorem orderOk_of_empty (hwindow : s.window = []) (hbacklog : s.backlog = []) : OrderOk s := by
  constructor <;> simp [hwindow, hbacklog]

theorem OrderOk.evict {a : Seq} (h : OrderOk s) : OrderOk (evict a s) where
  rising := h.rising.sublist (sublist_seqs (List.filter_sublist.append_right s.backlog))
  unacked _ hp := (mem_evict.mp hp).2
  unsent := h.unsent

/-- Sending from the front of the backlog. -/
theorem OrderOk.sendWaiting {now : Time} {sent after : List Packet} (h : OrderOk s)
    (hack : s.curAck.toNat ≤ s.highestSent.toNat + 1) (hback : s.backlog = sent ++ after) :
    OrderOk (sendWaiting now [] sent after s) := by
  obtain ⟨hrising, hunacked, hunsent⟩ := h
  rw [hback] at hrising hunsent
  constructor
  case rising => simpa using hrising
  case unacked =>
    intro p hp
    rw [sendWaiting_window] at hp
    rw [sendWaiting_curAck, sendWaiting_cfg]
    obtain hp | hp := List.mem_append.mp hp
    · exact hunacked p hp
    · have hlt := hunsent p (List.mem_append_left _ hp)
      rw [BitVec.lt_def] at hlt
      rw [BitVec.le_def]
      omega
  case unsent =>
    intro p hp
    rw [sendWaiting_highestSent, sendWaiting_cfg, BitVec.lt_def]
    have hp : p ∈ after := hp
    have hlt := hunsent p (List.mem_append_right _ hp)
    simp only [seqs_append, List.pairwise_append] at hrising
    obtain ⟨-, ⟨-, -, hsentBelow⟩, -⟩ := hrising
    have hbelow : ∀ q ∈ sent, (seqOf s.cfg q).toNat ≤ (seqOf s.cfg p).toNat - 1 := fun q hq =>
      Nat.le_sub_one_of_lt (hsentBelow _ (seqOf_mem_seqs hq) _ (seqOf_mem_seqs hp))
    obtain ⟨-, -, hhighest⟩ := toNat_highestOf s.cfg s.highestSent sent
    rw [BitVec.lt_def] at hlt
    have := hhighest _ (Nat.le_sub_one_of_lt hlt) hbelow
    omega

theorem OrderOk.enqueue {ps : List Packet} (h : OrderOk s) (hseq : SequencingOk s) (hfresh : Fresh s ps) :
    OrderOk (enqueue ps s) where
  rising := by
    show (seqs s.cfg (s.window ++ (s.backlog ++ ps))).Pairwise (· < ·)
    rw [← List.append_assoc, seqs_append, List.pairwise_append]
    exact ⟨h.rising, hfresh.rising, fun q hq q' hq' => lt_fresh hfresh hseq hq hq'⟩
  unacked := h.unacked
  unsent p hp := by
    obtain hp | hp := List.mem_append.mp hp
    · exact h.unsent p hp
    · exact Nat.lt_of_le_of_lt hseq.sentMade (hfresh.above p hp)

/-- A message keeps the order if nothing waits, or if all of it waits behind the backlog (10_state.md R36 (f)). -/
theorem OrderOk.sendMessage {now : Time} {data : Message} (h : OrderOk s) (hinv : EngineInv s)
    (hroom : s.seq.toNat + packetCount s.cfg data.length ≤ Config.lastSeq)
    (hno : s.backlog = [] ∨ s.wcap ≤ s.window.length) : OrderOk (sendMessage now data s) := by
  obtain ⟨sent, after, hsplit, hfull, -, he⟩ := sendMessage_cases now data s
  have hqueued := h.enqueue hinv.sequencing (fresh_split hinv.cfgOk hroom)
  rw [he]
  obtain hempty | hno := hno
  · rw [hempty]
    refine hqueued.sendWaiting hinv.sequencing.ackRange.2 ?_
    show s.backlog ++ _ = _
    rw [hempty, hsplit, List.nil_append]
  · refine hqueued.congr (by simp) (by simp [hfull hno]) ?_ (by simp) (by simp [hfull hno, highestOf])
    show s.backlog ++ after = s.backlog ++ _
    rw [hsplit, hfull hno, List.nil_append]

theorem OrderOk.acceptAck {a : Seq} {now : Time} (h : OrderOk s)
    (hack : a.toNat ≤ s.highestSent.toNat + 1) : OrderOk (acceptAck a now s) := by
  have hcount : OrderOk (countAck a now s) := h.congr (by simp) (by simp) (by simp) (by simp) (by simp)
  have hlast : ∀ {u : State}, OrderOk u → OrderOk (aimdIncrease u) := fun hu =>
    hu.congr (by simp) (by simp) (by simp) (by simp) (by simp)
  obtain ⟨-, he⟩ | ⟨-, sent, after, hback, -, he⟩ := acceptAck_cases a now s
  · rw [he]
    exact hlast hcount
  · rw [he]
    exact hlast (hcount.evict.sendWaiting (by simpa [Machine.evict] using hack) (by simpa [Machine.evict] using hback))

theorem OrderOk.exec {i : Instr} (h : OrderOk s) (hinv : EngineInv s) (hno : NoBypass i s)
    (hexec : exec i s = .next t) : OrderOk t := by
  cases exec_behaves hexec with
  | quiet => exact h.congr rfl rfl rfl rfl rfl
  | sndInit | sndFinal => exact orderOk_of_empty (resetSender_window s) (resetSender_backlog s)
  | sndMsg now data _ hroom => exact h.sendMessage hinv hroom (hno now data rfl)
  | sndPkt now pkt _ hack => exact h.acceptAck hack
  | sndTimer now =>
    obtain ⟨hcfg, -, hack, hsent, hwindow, hbacklog, -⟩ := onFire_same now s
    exact h.congr hcfg hwindow hbacklog hack hsent
  | rcvInit | rcvFinal => exact h.congr rfl rfl rfl rfl rfl
  | rcvPkt pkt =>
    obtain ⟨-, -, -, -, hsame⟩ := exec_beside hexec
    exact h.of_sameSender (exec_cfg hexec) (hsame rfl)

end Order

/-! ### The backlog waits only while the window is full (mode `Fixed`) -/

section Full
variable {s t : State}

theorem FullOk.congr (h : FullOk s) (hwindow : t.window = s.window) (hbacklog : t.backlog = s.backlog)
    (hcap : t.wcap = s.wcap) : FullOk t := by
  rwa [FullOk, hwindow, hbacklog, hcap]

theorem fullOk_of_empty (hbacklog : s.backlog = []) : FullOk s := fun h => absurd hbacklog h

theorem FullOk.noBypass (h : FullOk s) (i : Instr) : NoBypass i s := fun _ _ _ =>
  (Decidable.em (s.backlog = [])).imp_right h

theorem FullOk.sendMessage {now : Time} {data : Message} (h : FullOk s) : FullOk (sendMessage now data s) := by
  obtain ⟨sent, after, -, -, hafter, he⟩ := sendMessage_cases now data s
  rw [he, FullOk, sendWaiting_wcap, sendWaiting_window, sendWaiting_backlog]
  show s.backlog ++ after ≠ [] → s.wcap ≤ (s.window ++ sent).length
  intro hwait
  by_cases hempty : s.backlog = []
  · exact hafter (by simpa [hempty] using hwait)
  · have := h hempty
    rw [List.length_append]
    omega

theorem FullOk.acceptAck {a : Seq} {now : Time} {c : Nat} (h : FullOk s) (hfixed : s.cfg.cc = .fixed c) :
    FullOk (acceptAck a now s) := by
  have hcap : (countAck a now s).wcap = s.wcap := by
    rw [countAck_wcap, (fixed_caps hfixed s.wcap).1, ite_self]
  have hlast : ∀ {u : State}, u.cfg = s.cfg → FullOk u → FullOk (aimdIncrease u) := fun hcfg hu =>
    hu.congr (by simp) (by simp) (by rw [aimdIncrease_wcap, hcfg, (fixed_caps hfixed _).2.1])
  obtain ⟨-, he⟩ | ⟨-, sent, after, -, hafter, he⟩ := acceptAck_cases a now s
  · rw [he]
    exact hlast (by simp) (h.congr (by simp) (by simp) hcap)
  · rw [he]
    refine hlast (by simp [evict]) fun hwait => ?_
    simpa [evict] using hafter hwait

theorem FullOk.onFire {now : Time} {c : Nat} (h : FullOk s) (hfixed : s.cfg.cc = .fixed c) :
    FullOk (onFire now s) := by
  obtain ⟨-, -, -, -, hwindow, hbacklog, -⟩ := onFire_same now s
  refine h.congr hwindow hbacklog ?_
  obtain he | he := onFire_wcap now s
  · exact he
  · rw [he, (fixed_caps hfixed s.wcap).2.2]

theorem FullOk.exec {i : Instr} {c : Nat} (h : FullOk s) (hfixed : s.cfg.cc = .fixed c) (hexec : exec i s = .next t) :
    FullOk t := by
  cases exec_behaves hexec with
  | quiet => exact h
  | sndInit | sndFinal => exact fullOk_of_empty (resetSender_backlog s)
  | sndMsg now data => exact h.sendMessage
  | sndPkt now pkt => exact h.acceptAck hfixed
  | sndTimer now => exact h.onFire hfixed
  | rcvInit | rcvFinal => exact h
  | rcvPkt pkt =>
    obtain ⟨-, -, -, -, hsame⟩ := exec_beside hexec
    exact h.congr (hsame rfl).window (hsame rfl).backlog (hsame rfl).wcap

end Full

/-- Settles O48: each operation keeps the order unless a message overtakes the backlog, which a full window prevents. -/
theorem orderHoldsWithoutBypass : Obligations.OrderHoldsWithoutBypass := by
  have horder : ∀ s t : State, EngineInv s → OrderOk s →
      (∀ d rest i, s.input = .command d :: rest → decode s.cfg d = .ok i → NoBypass i s) →
      step s = .next t → OrderOk t := by
    intro s t hinv h hno hstep
    obtain ⟨input, actions, rfl⟩ | ⟨rest, -, rfl⟩ | ⟨d, rest, now, -, -, -, rfl⟩ | ⟨d, rest, i, hin, hdec, -, hexec⟩ :=
      hinv.step_cases hstep
    · exact h.congr rfl rfl rfl rfl rfl
    · exact orderOk_of_empty rfl rfl
    · obtain ⟨hcfg, -, hack, hsent, hwindow, hbacklog, -⟩ := onFire_same now { s with input := rest, tmr := none }
      exact h.congr hcfg hwindow hbacklog hack hsent
    · exact OrderOk.exec (s := { s with input := rest }) (h.congr rfl rfl rfl rfl rfl)
        (hinv.withPort rest s.actions) (hno d rest i hin hdec) hexec
  refine ⟨horder, fun s t c hfixed hinv h hfull hstep => ⟨?_, ?_⟩, fun cfg input => ⟨orderOk_of_empty rfl rfl, nofun⟩⟩
  · exact horder s t hinv h (fun d rest i _ _ => hfull.noBypass i) hstep
  · obtain ⟨input, actions, rfl⟩ | ⟨rest, -, rfl⟩ | ⟨d, rest, now, -, -, -, rfl⟩ | ⟨d, rest, i, -, -, -, hexec⟩ :=
      hinv.step_cases hstep
    · exact hfull
    · exact fullOk_of_empty rfl
    · exact FullOk.onFire (s := { s with input := rest, tmr := none }) hfull hfixed
    · exact FullOk.exec (s := { s with input := rest }) hfull hfixed hexec

/-! ### The counters -/

theorem sender_counters_le {i : Instr} {s t : State} (h : EngineInv s) (hexec : exec i s = .next t)
    (hinit : i ≠ .sndInit) (hfinal : i ≠ .sndFinal) :
    s.seq.toNat ≤ t.seq.toNat ∧ s.curAck.toNat ≤ t.curAck.toNat ∧ s.highestSent.toNat ≤ t.highestSent.toNat := by
  cases exec_behaves hexec with
  | quiet | rcvInit | rcvFinal => exact ⟨le_rfl, le_rfl, le_rfl⟩
  | sndInit => exact absurd rfl hinit
  | sndFinal => exact absurd rfl hfinal
  | sndMsg now data _ hroom =>
    obtain ⟨sent, after, -, -, -, he⟩ := sendMessage_cases now data s
    rw [he, sendWaiting_seq, sendWaiting_curAck, sendWaiting_highestSent,
      toNat_seq_enqueue (fresh_split h.cfgOk hroom)]
    exact ⟨Nat.le_add_right _ _, le_rfl, (toNat_highestOf _ _ _).1⟩
  | sndPkt now pkt =>
    refine ⟨by simp, ?_⟩
    obtain ⟨-, he⟩ | ⟨hlt, sent, after, -, -, he⟩ := acceptAck_cases (ackOf s.cfg pkt) now s
    · rw [he]
      simp
    · rw [he]
      simp only [aimdIncrease_curAck, aimdIncrease_highestSent, sendWaiting_curAck, sendWaiting_highestSent, evict,
        countAck_highestSent]
      exact ⟨Nat.le_of_lt hlt, (toNat_highestOf _ _ _).1⟩
  | sndTimer now =>
    obtain ⟨-, hseq, hack, hsent, -⟩ := onFire_same now s
    rw [hseq, hack, hsent]
    exact ⟨le_rfl, le_rfl, le_rfl⟩
  | rcvPkt pkt =>
    obtain ⟨-, -, -, -, hsame⟩ := exec_beside hexec
    rw [(hsame rfl).seq, (hsame rfl).curAck, (hsame rfl).highestSent]
    exact ⟨le_rfl, le_rfl, le_rfl⟩

theorem expected_le {i : Instr} {s t : State} (h : ReceiverOk s) (hexec : exec i s = .next t) (hinit : i ≠ .rcvInit)
    (hfinal : i ≠ .rcvFinal) : s.expected.toNat ≤ t.expected.toNat := by
  obtain ⟨-, -, -, hsame, -⟩ := exec_beside hexec
  cases exec_behaves hexec with
  | quiet => exact le_rfl
  | sndInit | sndFinal | sndMsg | sndPkt | sndTimer => exact ((hsame rfl).expected ▸ le_rfl)
  | rcvInit => exact absurd rfl hinit
  | rcvFinal => exact absurd rfl hfinal
  | rcvPkt pkt => exact h.rcvPkt.2.1

/-- Settles O50: a message numbers on from `SEQ` without wrapping around, an ack only raises `CUR_ACK`, a sending only
raises `HIGHEST_SENT`, and a delivered number is never the last one. -/
theorem countersNeverDecrease : Obligations.CountersNeverDecrease := fun _ _ _ h hexec =>
  ⟨sender_counters_le h hexec, expected_le h.receiver hexec⟩

/-! ### Acknowledged packets in the window -/

/-- A new message puts no acknowledged packet into the window: its numbers are above every number sent. -/
theorem acked_of_sendMessage {now : Time} {data : Message} {s : State} {p : Packet} (h : EngineInv s)
    (hroom : s.seq.toNat + packetCount s.cfg data.length ≤ Config.lastSeq)
    (hp : p ∈ (sendMessage now data s).window) (hacked : seqOf s.cfg p < s.curAck) : p ∈ s.window := by
  obtain ⟨sent, after, hsplit, -, -, he⟩ := sendMessage_cases now data s
  rw [he, sendWaiting_window] at hp
  obtain hp | hp := List.mem_append.mp hp
  · exact hp
  · have hnew := (fresh_split h.cfgOk hroom).above p (hsplit ▸ List.mem_append_left _ hp)
    have hack := h.sequencing.ackRange.2
    have hmade := h.sequencing.sentMade
    rw [BitVec.lt_def] at hacked
    omega

/-- After an ack that advances, the window's acknowledged packets are the refilled ones (42_send_window.md R142). -/
theorem acked_of_acceptAck {a : Seq} {now : Time} {s : State} {p : Packet}
    (hp : p ∈ (acceptAck a now s).window) (hacked : seqOf s.cfg p < (acceptAck a now s).curAck) :
    (s.curAck < (acceptAck a now s).curAck ∧ p ∈ s.backlog) ∨
    ((acceptAck a now s).curAck = s.curAck ∧ p ∈ s.window ∧ seqOf s.cfg p < s.curAck) := by
  obtain ⟨-, he⟩ | ⟨hlt, sent, after, hback, -, he⟩ := acceptAck_cases a now s
  · rw [he] at hp hacked ⊢
    simp only [aimdIncrease_window, aimdIncrease_curAck, countAck_window, countAck_curAck] at hp hacked ⊢
    exact .inr ⟨trivial, hp, hacked⟩
  · rw [he] at hp hacked ⊢
    simp only [aimdIncrease_window, aimdIncrease_curAck, sendWaiting_window, sendWaiting_curAck, evict,
      countAck_window, countAck_cfg, List.mem_append, List.mem_filter, decide_eq_true_eq] at hp hacked ⊢
    obtain ⟨-, hkept⟩ | hp := hp
    · exact absurd hacked (BitVec.not_lt.mpr hkept)
    · exact .inl ⟨hlt, hback ▸ List.mem_append_left _ hp⟩

theorem acked_of_exec {i : Instr} {s t : State} {p : Packet} (h : EngineInv s) (hexec : exec i s = .next t)
    (hp : p ∈ t.window) (hacked : seqOf s.cfg p < t.curAck) :
    (s.curAck < t.curAck ∧ p ∈ s.backlog) ∨ (t.curAck = s.curAck ∧ p ∈ s.window ∧ seqOf s.cfg p < s.curAck) := by
  cases exec_behaves hexec with
  | quiet | rcvInit | rcvFinal => exact .inr ⟨rfl, hp, hacked⟩
  | sndInit | sndFinal =>
    rw [resetSender_window] at hp
    exact absurd hp List.not_mem_nil
  | sndMsg now data _ hroom =>
    obtain ⟨-, -, hack, -⟩ := sendMessage_same now s data
    rw [hack] at hacked
    exact .inr ⟨hack, acked_of_sendMessage h hroom hp hacked, hacked⟩
  | sndPkt now pkt => exact acked_of_acceptAck hp hacked
  | sndTimer now =>
    obtain ⟨-, -, hack, -, hwindow, -⟩ := onFire_same now s
    exact .inr ⟨hack, hwindow ▸ hp, hack ▸ hacked⟩
  | rcvPkt pkt =>
    obtain ⟨-, -, -, -, hsame⟩ := exec_beside hexec
    exact .inr ⟨(hsame rfl).curAck, (hsame rfl).window ▸ hp, (hsame rfl).curAck ▸ hacked⟩

/-- Settles O54: only the refill of an ack that advances brings such a packet in. -/
theorem ackedPacketsEnterWindowOnlyFromBacklog : Obligations.AckedPacketsEnterWindowOnlyFromBacklog := by
  intro s t h hstep p hp hacked
  obtain ⟨input, actions, rfl⟩ | ⟨rest, -, rfl⟩ | ⟨d, rest, now, -, -, -, rfl⟩ | ⟨d, rest, i, -, -, -, hexec⟩ :=
    h.step_cases hstep
  · exact .inr ⟨rfl, hp, hacked⟩
  · exact absurd hp List.not_mem_nil
  · obtain ⟨hcfg, -, hack, -, hwindow, -⟩ := onFire_same now { s with input := rest, tmr := none }
    rw [hcfg, hack] at hacked
    exact .inr ⟨hack, hwindow ▸ hp, hacked⟩
  · rw [exec_cfg hexec] at hacked
    exact acked_of_exec (s := { s with input := rest }) (h.withPort rest s.actions) hexec hp hacked

end Sys2Proof.Machine
end

section
/-! PROOFS. The deadlines of the chain in order, and the host's timer armed for the earliest of them, while the host's
clock does not run back (10_state.md R38 (a), R39, R43, R44). -/

namespace Sys2Proof.Machine

/-! ### The clock -/

/-- The last clock reading after a command (10_state.md R43). -/
def readClock (last : Nat) (i : Instr) : Nat :=
  match nowOf i with
  | some now => now.toNat
  | none => last

theorem ClockOk.le_readClock {last : Nat} {i : Instr} {s : State} (h : ClockOk last i s) : last ≤ readClock last i := by
  unfold readClock
  cases hi : nowOf i with
  | none => exact le_rfl
  | some now => exact (h now hi).1

theorem clockAfter_of_decoded {last : Nat} {s : State} {d : List Byte} {rest : List PortEvent} {i : Instr}
    (hin : s.input = .command d :: rest) (hdec : decode s.cfg d = .ok i) : clockAfter last s = readClock last i := by
  simp only [clockAfter, hin, hdec]
  rfl

theorem le_clockAfter {last : Nat} {s : State}
    (h : ∀ d rest i, s.input = .command d :: rest → decode s.cfg d = .ok i → ClockOk last i s) :
    last ≤ clockAfter last s := by
  match hin : s.input with
  | [] => simp [clockAfter, hin]
  | .reset :: rest => simp [clockAfter, hin]
  | .command d :: rest =>
    cases hdec : decode s.cfg d with
    | error r => simp [clockAfter, hin, hdec]
    | ok i => exact clockAfter_of_decoded hin hdec ▸ (h d rest i hin hdec).le_readClock

/-! ### What a command makes of the chain: some entries go, and fresh ones join the tail -/

theorem toNat_expiry {now : Time} {s : State} (h : DeadlineFits now s) :
    (now + s.cfg.timeout).toNat = now.toNat + s.cfg.timeout.toNat := by
  rw [BitVec.toNat_add, Nat.mod_eq_of_lt h]

/-- The fresh entries of first transmissions (43_timer_chain.md R150). -/
def freshEntries (now : Time) (cfg : Cfg) (ps : List Packet) : List ChainEntry :=
  ps.map fun p => ⟨seqOf cfg p, now + cfg.timeout⟩

theorem sendWaiting_chain {now : Time} {s : State} (before sent after : List Packet) (h : DeadlineFits now s) :
    (sendWaiting now before sent after s).chain = s.chain ++ freshEntries now s.cfg sent :=
  transmitAll_chain now sent s h

/-- The chain of `t` is made of entries of `s`, in their order, and then fresh ones. -/
def ChainMovesOn (now : Time) (s t : State) : Prop :=
  ∃ kept new, t.chain = kept ++ new ∧ kept.Sublist s.chain ∧
    ∀ e ∈ new, e.expiry.toNat = now.toNat + s.cfg.timeout.toNat

section Chain
variable {now : Time} {s : State} (hfits : DeadlineFits now s)
include hfits

theorem expiry_of_freshEntries {ps : List Packet} {e : ChainEntry} (he : e ∈ freshEntries now s.cfg ps) :
    e.expiry.toNat = now.toNat + s.cfg.timeout.toNat := by
  obtain ⟨p, -, rfl⟩ := List.mem_map.mp he
  exact toNat_expiry hfits

theorem sendMessage_chain (data : Message) : ChainMovesOn now s (sendMessage now data s) := by
  obtain ⟨sent, after, -, -, -, he⟩ := sendMessage_cases now data s
  have hchain := sendWaiting_chain (s := enqueue (split s.cfg s.seq data) s) s.backlog sent after hfits
  exact ⟨s.chain, _, by rw [he, hchain]; rfl, List.Sublist.refl _, fun _ => expiry_of_freshEntries hfits⟩

theorem acceptAck_chain (a : Seq) : ChainMovesOn now s (acceptAck a now s) := by
  have hkept := countAck_chain_sublist a now s
  obtain ⟨-, he⟩ | ⟨-, sent, after, -, -, he⟩ := acceptAck_cases a now s
  · exact ⟨_, [], by rw [he, aimdIncrease_chain, List.append_nil], hkept, nofun⟩
  · have hchain := sendWaiting_chain (s := evict a (countAck a now s)) [] sent after
      (by simpa [DeadlineFits, evict] using hfits)
    refine ⟨_, freshEntries now s.cfg sent, ?_, hkept, fun _ => expiry_of_freshEntries hfits⟩
    rw [he, aimdIncrease_chain, hchain]
    simp [evict]

theorem onFire_chain : ChainMovesOn now s (onFire now s) := by
  obtain ⟨hc, h⟩ | ⟨e, rest, hc, hcases⟩ := onFire_cases now s
  · exact ⟨[], [], by rw [h, fatalStop_chain, hc]; rfl, List.nil_sublist _, nofun⟩
  · have hrest : rest.Sublist s.chain := hc ▸ List.sublist_cons_self e rest
    obtain ⟨-, -, h⟩ | ⟨p, -, -, -, h⟩ | ⟨-, h⟩ := hcases
    · exact ⟨rest, [], by rw [h, fatalStop_chain, List.append_nil], hrest, nofun⟩
    · refine ⟨rest, [⟨e.seq, deadline now s⟩], by rw [h, rearm_eq, retransmit_eq]; rfl, hrest, fun e' he' => ?_⟩
      obtain rfl := List.mem_singleton.mp he'
      exact toNat_deadline now s hfits
    · exact ⟨rest, [], by rw [h, rearm_eq, List.append_nil], hrest, nofun⟩

end Chain

/-! ### Deadlines in order -/

section Deadlines
variable {last : Nat} {now : Time} {s t : State}

theorem DeadlinesOk.congr {last' : Nat} (h : DeadlinesOk last s) (hle : last ≤ last') (hcfg : t.cfg = s.cfg)
    (hchain : t.chain = s.chain) : DeadlinesOk last' t where
  rising := hchain ▸ h.rising
  bounded e he := by
    rw [hcfg]
    exact (h.bounded e (hchain ▸ he)).trans (Nat.add_le_add_right hle _)

theorem deadlinesOk_of_empty (hchain : s.chain = []) : DeadlinesOk last s := by
  constructor <;> simp [hchain]

/-- Fresh deadlines lie at or beyond every deadline there is, as the clock does not run back. -/
theorem DeadlinesOk.movesOn (h : DeadlinesOk last s) (hle : last ≤ now.toNat) (hcfg : t.cfg = s.cfg)
    (hchain : ChainMovesOn now s t) : DeadlinesOk now.toNat t := by
  obtain ⟨kept, new, he, hkept, hnew⟩ := hchain
  have hbound : ∀ e ∈ kept, e.expiry.toNat ≤ now.toNat + s.cfg.timeout.toNat := fun e hmem =>
    (h.bounded e (hkept.subset hmem)).trans (Nat.add_le_add_right hle _)
  have hexpiry : ∀ x ∈ new.map fun e => e.expiry.toNat, x = now.toNat + s.cfg.timeout.toNat := by
    intro x hx
    obtain ⟨e, hmem, rfl⟩ := List.mem_map.mp hx
    exact hnew e hmem
  constructor
  · rw [he, List.map_append, List.pairwise_append]
    refine ⟨h.rising.sublist (hkept.map _), ?_, fun x hx y hy => ?_⟩
    · exact List.pairwise_of_forall_mem_list fun x hx y hy => (hexpiry x hx).trans (hexpiry y hy).symm |>.le
    · obtain ⟨e, hmem, rfl⟩ := List.mem_map.mp hx
      rw [hexpiry y hy]
      exact hbound e hmem
  · rw [he, hcfg]
    intro e hmem
    obtain hmem | hmem := List.mem_append.mp hmem
    · exact hbound e hmem
    · exact (hnew e hmem).le

end Deadlines

/-- Settles O34: entries only leave, or join the tail with a deadline `TIMEOUT` from now. -/
theorem deadlinesStayOrdered : Obligations.DeadlinesStayOrdered := by
  intro last i s t h hclock hexec
  show DeadlinesOk (readClock last i) t
  have hcfg := exec_cfg hexec
  cases exec_behaves hexec with
  | quiet => exact h.congr hclock.le_readClock rfl rfl
  | sndInit | sndFinal => exact deadlinesOk_of_empty (resetSender_chain s)
  | rcvInit | rcvFinal => exact h.congr le_rfl rfl rfl
  | sndMsg now data =>
    obtain ⟨hle, hfits⟩ := hclock now rfl
    exact h.movesOn hle hcfg (sendMessage_chain hfits data)
  | sndPkt now pkt =>
    obtain ⟨hle, hfits⟩ := hclock now rfl
    exact h.movesOn hle hcfg (acceptAck_chain hfits _)
  | sndTimer now =>
    obtain ⟨hle, hfits⟩ := hclock now rfl
    exact h.movesOn hle hcfg (onFire_chain hfits)
  | rcvPkt pkt =>
    obtain ⟨-, -, -, -, hsame⟩ := exec_beside hexec
    exact h.congr le_rfl hcfg (hsame rfl).chain

/-! ### The timer serves the head -/

section Timer
variable {last : Nat} {now : Time} {s t : State}

theorem timerServesHead_of_empty (hchain : s.chain = []) : TimerServesHead last s := by
  intro e rest h
  rw [hchain] at h
  cases h

theorem TimerServesHead.congr {last' : Nat} (h : TimerServesHead last s) (hle : last ≤ last')
    (hchain : t.chain = s.chain) (htmr : t.tmr = s.tmr) : TimerServesHead last' t := by
  intro e rest he
  obtain ⟨x, hx, hlow, hhigh⟩ := h e rest (hchain ▸ he)
  exact ⟨x, htmr.trans hx, hlow, hhigh.trans (max_le_max_right _ hle)⟩

/-- `rearm` serves the head, whatever the timer was (43_timer_chain.md R157). -/
theorem timerServesHead_rearm : TimerServesHead now.toNat (rearm now s) := by
  intro e rest he
  rw [rearm_eq] at he ⊢
  have he : s.chain = e :: rest := he
  simp only [he, rearmTimer]
  exact ⟨_, rfl, le_max_right _ _, le_rfl⟩

/-- `cancel` leaves the timer to a head that stays, and arms it for the new head when the head goes
(43_timer_chain.md R151). -/
theorem cancel_head (a : Seq) (now : Time) (tmr : Option Nat) (e : ChainEntry) (rest : List ChainEntry) :
    e.seq ≠ a ∧ (∃ rest', (e :: rest).eraseP (fun x => x.seq == a) = e :: rest') ∧
      cancelTimer (e :: rest) a now tmr = tmr ∨
    e.seq = a ∧ (e :: rest).eraseP (fun x => x.seq == a) = rest ∧
      ∀ e' rest', rest = e' :: rest' → cancelTimer (e :: rest) a now tmr = some (max now.toNat e'.expiry.toNat) := by
  by_cases hq : e.seq = a
  · refine .inr ⟨hq, by simp [hq], ?_⟩
    rintro e' rest' rfl
    exact if_pos hq
  · refine .inl ⟨hq, by simp [hq], ?_⟩
    cases rest <;> exact if_neg hq

theorem TimerServesHead.countAck {a : Seq} (h : TimerServesHead last s) (hle : last ≤ now.toNat) :
    TimerServesHead now.toNat (countAck a now s) := by
  by_cases hr : resentBy a s = []
  · refine h.congr hle ?_ ?_
    · rw [countAck_eq]
      exact if_pos hr
    · rw [countAck_eq]
      exact if_pos hr
  · have hchain : (Machine.countAck a now s).chain = s.chain.eraseP fun x => x.seq == a := by
      rw [countAck_eq]
      exact if_neg hr
    have htmr : (Machine.countAck a now s).tmr = cancelTimer s.chain a now s.tmr := by
      rw [countAck_eq]
      exact if_neg hr
    cases hc : s.chain with
    | nil => exact timerServesHead_of_empty (by rw [hchain, hc]; rfl)
    | cons e rest =>
      rw [hc] at hchain htmr
      obtain ⟨-, ⟨rest', herase⟩, hkeep⟩ | ⟨-, herase, harm⟩ := cancel_head a now s.tmr e rest
      · obtain ⟨x, hx, hlow, hhigh⟩ := h e rest hc
        intro e' tail he'
        rw [hchain, herase] at he'
        obtain ⟨rfl, -⟩ := List.cons.inj he'
        exact ⟨x, by rw [htmr, hkeep, hx], hlow, hhigh.trans (max_le_max_right _ hle)⟩
      · intro e' tail he'
        rw [hchain, herase] at he'
        exact ⟨_, by rw [htmr, harm e' tail he'], le_max_right _ _, le_rfl⟩

/-- A sending leaves the timer to the head that is there; into an empty chain it arms the timer for the first packet's
own deadline (43_timer_chain.md R150). -/
theorem TimerServesHead.sendWaiting {before sent after : List Packet} (h : TimerServesHead now.toNat s)
    (hfits : DeadlineFits now s) : TimerServesHead now.toNat (sendWaiting now before sent after s) := by
  intro e rest he
  rw [sendWaiting_chain before sent after hfits] at he
  rw [sendWaiting_tmr]
  cases hc : s.chain with
  | cons e' rest' =>
    rw [hc] at he
    obtain ⟨rfl, -⟩ := List.cons.inj he
    simpa [timerArmed, hc] using h e' rest' hc
  | nil =>
    cases sent with
    | nil =>
      rw [hc] at he
      cases he
    | cons p sent =>
      rw [hc] at he
      obtain ⟨rfl, -⟩ := List.cons.inj he
      rw [← toNat_expiry hfits]
      exact ⟨_, by simp [timerArmed, hc], le_rfl, le_max_right _ _⟩

theorem TimerServesHead.sendMessage {data : Message} (h : TimerServesHead last s) (hle : last ≤ now.toNat)
    (hfits : DeadlineFits now s) : TimerServesHead now.toNat (sendMessage now data s) := by
  obtain ⟨sent, after, -, -, -, he⟩ := sendMessage_cases now data s
  rw [he]
  exact TimerServesHead.sendWaiting (h.congr hle rfl rfl) hfits

theorem TimerServesHead.acceptAck {a : Seq} (h : TimerServesHead last s) (hle : last ≤ now.toNat)
    (hfits : DeadlineFits now s) : TimerServesHead now.toNat (acceptAck a now s) := by
  have hcount := h.countAck (a := a) hle
  obtain ⟨-, he⟩ | ⟨-, sent, after, -, -, he⟩ := acceptAck_cases a now s
  · rw [he]
    exact hcount.congr le_rfl (by simp) (by simp)
  · have hevict : TimerServesHead now.toNat (evict a (Machine.countAck a now s)) := hcount.congr le_rfl rfl rfl
    rw [he]
    refine TimerServesHead.congr (hevict.sendWaiting ?_) le_rfl (aimdIncrease_chain _) (aimdIncrease_tmr _)
    simpa [DeadlineFits, evict] using hfits

/-- A firing ends with `rearm`, or halts the engine on an empty chain; the look-up never misses. -/
theorem timerServesHead_onFire (h : EngineInv s) : TimerServesHead now.toNat (onFire now { s with tmr := none }) := by
  obtain ⟨hc, he⟩ | ⟨e, rest, hc, ⟨hlive, hmiss, he⟩ | ⟨p, -, -, -, he⟩ | ⟨-, he⟩⟩ :=
    onFire_cases now { s with tmr := none }
  · rw [he]
    exact timerServesHead_of_empty hc
  · have hmem : e ∈ s.chain := hc ▸ List.mem_cons_self
    obtain ⟨p, hp, hq⟩ := h.chainOk.live e hmem hlive
    exact absurd hq (hmiss p hp)
  · rw [he]
    exact timerServesHead_rearm
  · rw [he]
    exact timerServesHead_rearm

theorem TimerServesHead.exec {i : Instr} (h : TimerServesHead last s) (hclock : ClockOk last i s)
    (hi : ∀ now, i ≠ .sndTimer now) (hexec : exec i s = .next t) : TimerServesHead (readClock last i) t := by
  cases exec_behaves hexec with
  | quiet => exact h.congr hclock.le_readClock rfl rfl
  | sndInit | sndFinal => exact timerServesHead_of_empty (resetSender_chain s)
  | rcvInit | rcvFinal => exact h.congr le_rfl rfl rfl
  | sndMsg now data =>
    obtain ⟨hle, hfits⟩ := hclock now rfl
    exact h.sendMessage hle hfits
  | sndPkt now pkt =>
    obtain ⟨hle, hfits⟩ := hclock now rfl
    exact h.acceptAck hle hfits
  | sndTimer now => exact absurd rfl (hi now)
  | rcvPkt pkt =>
    obtain ⟨-, -, -, -, hsame⟩ := exec_beside hexec
    exact h.congr le_rfl (hsame rfl).chain (hsame rfl).tmr

end Timer

/-- Settles O35: the timer is left to a head that stays, and armed for a head that is new. -/
theorem timerServesEarliestDeadline : Obligations.TimerServesEarliestDeadline := by
  intro last s t hinv h hclock hstep
  obtain ⟨input, actions, rfl⟩ | ⟨rest, -, rfl⟩ | ⟨d, rest, now, hin, hdec, -, rfl⟩ |
    ⟨d, rest, i, hin, hdec, hi, hexec⟩ := hinv.step_cases hstep
  · exact h.congr (le_clockAfter hclock) rfl rfl
  · exact timerServesHead_of_empty rfl
  · rw [clockAfter_of_decoded hin hdec]
    exact timerServesHead_onFire (hinv.withPort rest s.actions)
  · rw [clockAfter_of_decoded hin hdec]
    exact TimerServesHead.exec (s := { s with input := rest }) h (hclock d rest i hin hdec) hi hexec

end Sys2Proof.Machine
end

section
/-! PROOFS. A run in mode `Aimd` that leaves an acknowledged packet in the window (10_state.md R36 (a) against
42_send_window.md R142; 70_reset_and_hazards.md R252). -/

namespace Sys2Proof.Machine

/-- A run goes on from the state of its first step. -/
theorem run_succ_of_next {s u : State} (n : Nat) (h : step s = .next u) : core.run (n + 1) s = core.run n u := by
  have hstep : core.step s = .next u := h
  have hrun := Host.Core.run.eq_2 core s n
  rw [hstep] at hrun
  exact hrun

/-- A run from a reachable state that ends in a state ends in a reachable one; a step always answers a next state. -/
theorem Reachable.run {cfg : Cfg} {s t : State} (n : Nat) (h : Reachable cfg s) (hrun : core.run n s = .next t) :
    Reachable cfg t := by
  induction n generalizing s with
  | zero =>
    injection hrun with hrun
    exact hrun ▸ h
  | succ n ih =>
    obtain ⟨u, hu⟩ := step_next s
    rw [run_succ_of_next n hu] at hrun
    exact ih (h.next hu) hrun

/-- A message of three packets, two of which the window has room for; the ack 1, which raises the capacity but advances
nothing; a message of one packet, number 4, which bypasses the waiting packet 3; the ack 5, which covers all of them. -/
def bypassInput : List PortEvent :=
  [.command [0x12, 0, 0, 0, 0, 0, 0, 0, 0, 3, 0, 0, 0, 0x41, 0x42, 0x43],
    .command [0x13, 1, 0, 0, 0, 0, 0, 0, 0, 0, 0, 0, 0, 0, 1, 0, 0, 0, 0xff, 0xfe, 0],
    .command [0x12, 2, 0, 0, 0, 0, 0, 0, 0, 1, 0, 0, 0, 0x44],
    .command [0x13, 3, 0, 0, 0, 0, 0, 0, 0, 0, 0, 0, 0, 0, 5, 0, 0, 0, 0xff, 0xfa, 0]]

/-- Packet 3 of that run. -/
def bypassedPacket : Packet := [1, 3, 0, 0, 0, 1, 0, 0, 0, 0xfe, 0xb8, 0x43]

/-- The end of that run: packet 3 has been sent after the ack 5 that covers it. -/
def afterBypass : State :=
  { State.ofCfg { pktSize := 12, timeout := 30, cc := .aimd 2 10, byteOrder := .le } with
    seq := 4, curAck := 5, highestSent := 4, wcap := 8, window := [bypassedPacket]
    chain := [⟨1, 30⟩, ⟨2, 30⟩, ⟨4, 32⟩, ⟨3, 33⟩], dupcnt := [(1, 1), (5, 1)], tmr := some 30
    actions := [.toChannel [1, 1, 0, 0, 0, 1, 0, 0, 0, 0xfe, 0xbc, 0x41], .timerArm 30,
      .toChannel [1, 2, 0, 0, 0, 1, 0, 0, 0, 0xfe, 0xba, 0x42],
      .toChannel [1, 4, 0, 0, 0, 1, 0, 0, 0, 0xfe, 0xb6, 0x44],
      .toChannel bypassedPacket] }

theorem run_bypassInput :
    core.run 4 { State.ofCfg afterBypass.cfg with input := bypassInput } = .next afterBypass := rfl

/-- Settles O49, by that run. -/
theorem aimdBypassReachesAckedPacketInWindow : Obligations.AimdBypassReachesAckedPacketInWindow :=
  ⟨afterBypass, (Reachable.start bypassInput).run 4 run_bypassInput, bypassedPacket, List.mem_singleton.mpr rfl,
    by decide⟩

end Sys2Proof.Machine
end

section
/-! PROOFS. The accessors of packet buffers (20_memory.md R62, R63): a field gains one byte at a time, at its weight in
either byte order; and what a field written reads back and leaves unchanged, said once for every width. -/

namespace Sys2Proof

/-! ### The value of a field, byte by byte -/

@[simp] theorem slice_zero (bs : List Byte) (o : Nat) : slice bs o 0 = [] := List.take_zero

/-- A field that starts inside the buffer starts with the byte at its offset. -/
theorem slice_succ {bs : List Byte} {o : Nat} (n : Nat) (h : o < bs.length) :
    slice bs o (n + 1) = bs.getD o 0 :: slice bs (o + 1) n := by
  rw [slice, List.drop_eq_getElem_cons h, List.take_succ_cons, List.getD_eq_getElem _ _ h, slice]

/-- The bytes that follow weigh more, by the number of bytes before them. -/
theorem leValue_append (as bs : List Byte) : leValue (as ++ bs) = leValue as + 256 ^ as.length * leValue bs := by
  induction as with
  | nil => simp [leValue]
  | cons a as ih =>
    rw [List.cons_append, leValue, leValue, ih, List.length_cons]
    ring

@[simp] theorem getField_zero (bo : ByteOrder) (bs : List Byte) (o : Nat) : getField bo bs o 0 = 0 := by
  cases bo <;> simp [getField, bytesToNat, leValue]

/-- In little-endian order the byte at the offset weighs 1, and all the others 256 times what they weigh without it. -/
theorem getField_le_succ {bs : List Byte} {o n : Nat} (h : o + (n + 1) ≤ bs.length) :
    getField .le bs o (n + 1) = (bs.getD o 0).toNat + 256 * getField .le bs (o + 1) n := by
  rw [getField, slice_succ n (by omega)]
  rfl

/-- In big-endian order the byte at the offset weighs most, and the others what they weigh without it. -/
theorem getField_be_succ {bs : List Byte} {o n : Nat} (h : o + (n + 1) ≤ bs.length) :
    getField .be bs o (n + 1) = 256 ^ n * (bs.getD o 0).toNat + getField .be bs (o + 1) n := by
  have hlen : (slice bs (o + 1) n).reverse.length = n := by
    rw [List.length_reverse, length_slice]
    omega
  have hone : leValue [bs.getD o 0] = (bs.getD o 0).toNat := rfl
  simp only [getField, bytesToNat]
  rw [slice_succ n (by omega), List.reverse_cons, leValue_append, hlen, hone, Nat.add_comm]

namespace Machine

variable (bo : ByteOrder) (p : Packet) (o : Nat)

@[simp] theorem get8_toNat : (get8 bo p o).toNat = getField bo p o 1 := Nat.mod_eq_of_lt (getField_lt bo p o 1)

@[simp] theorem get16_toNat : (get16 bo p o).toNat = getField bo p o 2 := Nat.mod_eq_of_lt (getField_lt bo p o 2)

@[simp] theorem get32_toNat : (get32 bo p o).toNat = getField bo p o 4 := Nat.mod_eq_of_lt (getField_lt bo p o 4)

/-! ### A field written -/

/-- A value that fits is read back where it was written. -/
theorem getField_putBytes_natToBytes {n v : Nat} (h : o + n ≤ p.length) (hv : v < 256 ^ n) :
    getField bo (putBytes p o (natToBytes bo n v)) o n = v := by
  have hslice := slice_putBytes p o (natToBytes bo n v) (by rwa [length_natToBytes])
  rw [length_natToBytes] at hslice
  rw [getField, hslice, bytesToNat_natToBytes bo hv]

/-- R63 for a word of any number of bytes. -/
theorem putBytes_readBack_frame {w n : Nat} (hw : w = 8 * n) (v : BitVec w) (h : o + n ≤ p.length) :
    BitVec.ofNat w (getField bo (putBytes p o (natToBytes bo n v.toNat)) o n) = v ∧
    (putBytes p o (natToBytes bo n v.toNat)).length = p.length ∧
    ∀ j, j < o ∨ o + n ≤ j → (putBytes p o (natToBytes bo n v.toNat))[j]? = p[j]? := by
  have hv : v.toNat < 256 ^ n := by
    have hpow : 2 ^ w = 256 ^ n := by rw [hw, pow_mul]; rfl
    exact hpow ▸ v.isLt
  have hfits : o + (natToBytes bo n v.toNat).length ≤ p.length := by rwa [length_natToBytes]
  refine ⟨?readBack, length_putBytes p o _ hfits, fun j hj => getElem?_putBytes p o _ hfits j ?outside⟩
  case readBack => rw [getField_putBytes_natToBytes bo p o h hv, BitVec.ofNat_toNat, BitVec.setWidth_eq]
  case outside => rwa [length_natToBytes]

/-- Settles O9: a field that fits is taken apart byte by byte, in either byte order. -/
theorem accessorsWeighBytes : Obligations.AccessorsWeighBytes := by
  intro p o
  refine ⟨fun h => ⟨?le8, ?be8⟩, fun h => ⟨?le16, ?be16⟩, fun h => ⟨?le32, ?be32⟩⟩
  case le8 =>
    rw [get8_toNat, getField_le_succ h, getField_zero]
    omega
  case be8 =>
    rw [get8_toNat, getField_be_succ h, getField_zero]
    omega
  case le16 =>
    rw [get16_toNat, getField_le_succ h, getField_le_succ (by omega), getField_zero]
    omega
  case be16 =>
    rw [get16_toNat, getField_be_succ h, getField_be_succ (by omega), getField_zero]
    omega
  case le32 =>
    rw [get32_toNat, getField_le_succ h, getField_le_succ (by omega), getField_le_succ (by omega),
      getField_le_succ (by omega), getField_zero]
    simp only [Nat.add_assoc o, Nat.reduceAdd]
    omega
  case be32 =>
    rw [get32_toNat, getField_be_succ h, getField_be_succ (by omega), getField_be_succ (by omega),
      getField_be_succ (by omega), getField_zero]
    simp only [Nat.add_assoc o, Nat.reduceAdd]
    omega

/-- Settles O10: the three widths are words of 1, 2 and 4 bytes. -/
theorem accessorsReadBackAndFrame : Obligations.AccessorsReadBackAndFrame := fun bo p o =>
  ⟨putBytes_readBack_frame bo p o rfl, putBytes_readBack_frame bo p o rfl, putBytes_readBack_frame bo p o rfl⟩

end Machine

end Sys2Proof
end

section
/-! PROOFS. The encoder and the decoder of commands undo each other (30_encoding.md R84 to R91): a field written is the
operand read, and a field read is the bytes written. -/

namespace Sys2Proof

/-! ### The operands at their offsets -/

@[simp] theorem operand32_toNat (cfg : Cfg) (d : List Byte) (o : Nat) :
    (operand32 cfg d o).toNat = getField cfg.byteOrder d o 4 :=
  Nat.mod_eq_of_lt (getField_lt cfg.byteOrder d o 4)

@[simp] theorem operandNow_toNat (cfg : Cfg) (d : List Byte) :
    (operandNow cfg d).toNat = getField cfg.byteOrder d 1 8 :=
  Nat.mod_eq_of_lt (getField_lt cfg.byteOrder d 1 8)

/-- A 32-bit word written in the middle of a descriptor is the operand there. -/
theorem operand32_middle (cfg : Cfg) (a c : List Byte) {o : Nat} (v : BitVec 32) (ho : a.length = o) :
    operand32 cfg (a ++ (natToBytes cfg.byteOrder 4 v.toNat ++ c)) o = v := by
  apply BitVec.eq_of_toNat_eq
  rw [operand32_toNat, ← List.append_assoc, getField_middle cfg.byteOrder a c ho v.isLt]

/-- A field written after byte 0 reads back. -/
theorem getField_cons_natToBytes (bo : ByteOrder) (byte0 : Byte) (c : List Byte) {n v : Nat} (hv : v < 256 ^ n) :
    getField bo (byte0 :: (natToBytes bo n v ++ c)) 1 n = v :=
  getField_middle bo [byte0] c rfl hv

/-- A time value written after byte 0 is the `now` of the descriptor. -/
theorem operandNow_cons (cfg : Cfg) (byte0 : Byte) (c : List Byte) (now : Time) :
    operandNow cfg (byte0 :: (natToBytes cfg.byteOrder 8 now.toNat ++ c)) = now := by
  apply BitVec.eq_of_toNat_eq
  rw [operandNow_toNat]
  exact getField_cons_natToBytes cfg.byteOrder byte0 c now.isLt

/-- A field and what follows it, in two pieces. -/
theorem slice_append_drop (d : List Byte) (o n : Nat) : slice d o n ++ d.drop (o + n) = d.drop o := by
  rw [slice, ← List.drop_drop, List.take_append_drop]

/-- A field written back before what follows it. -/
theorem natToBytes_getField_append_drop (bo : ByteOrder) (d : List Byte) {o n : Nat} (h : o + n ≤ d.length) :
    natToBytes bo n (getField bo d o n) ++ d.drop (o + n) = d.drop o := by
  rw [natToBytes_getField bo d h, slice_append_drop]

/-- A field written back that ends the descriptor. -/
theorem natToBytes_getField_last (bo : ByteOrder) {d : List Byte} {o n : Nat} (h : d.length = o + n) :
    natToBytes bo n (getField bo d o n) = d.drop o := by
  rw [natToBytes_getField bo d h.ge, slice, List.take_of_length_le (by rw [List.length_drop]; omega)]

/-! ### Decoding what the encoder writes -/

/-- The descriptor of every well-formed command has the length its format computes (R85, R87, R91). -/
theorem length_encode {cfg : Cfg} {i : Instr} (h : i.wf cfg = true) :
    (encode cfg i).length = (formatOf i.opcode).totalLength cfg (encode cfg i) := by
  cases i with
  | csum data => exact Laws.Framed.csum data cfg h
  | encode seq ack payload => exact Laws.Framed.encode seq ack payload cfg h
  | validate pkt => exact Laws.Framed.validate pkt cfg h
  | seglen remaining => exact Laws.Framed.seglen remaining cfg h
  | sndInit => exact Laws.Framed.sndInit cfg h
  | sndFinal => exact Laws.Framed.sndFinal cfg h
  | sndMsg now data => exact Laws.Framed.sndMsg now data cfg h
  | sndPkt now pkt => exact Laws.Framed.sndPkt now pkt cfg h
  | sndTimer now => exact Laws.Framed.sndTimer now cfg h
  | rcvInit => exact Laws.Framed.rcvInit cfg h
  | rcvFinal => exact Laws.Framed.rcvFinal cfg h
  | rcvPkt pkt => exact Laws.Framed.rcvPkt pkt cfg h

/-- The operands at the offsets of R85 are the ones the encoder wrote there. -/
theorem operandsOf_encode (cfg : Cfg) (i : Instr) : operandsOf cfg (encode cfg i) i.opcode = i := by
  cases i with
  | csum data => simp [encode, Instr.opcode, operandBytes, operandsOf]
  | encode seq ack payload =>
    have hseq := operand32_middle cfg (o := 1) [Opcode.encode.byte]
      (natToBytes cfg.byteOrder 4 ack.toNat ++ (natToBytes cfg.byteOrder 1 payload.length ++ payload)) seq rfl
    have hack := operand32_middle cfg (o := 5) (Opcode.encode.byte :: natToBytes cfg.byteOrder 4 seq.toNat)
      (natToBytes cfg.byteOrder 1 payload.length ++ payload) ack (by simp)
    simp only [List.cons_append, List.nil_append] at hseq hack
    simp [encode, Instr.opcode, operandBytes, operandsOf, List.drop_append, List.drop_eq_nil_of_le, hseq, hack]
  | validate pkt | rcvPkt pkt => rfl
  | seglen remaining =>
    have h := operand32_middle cfg [Opcode.seglen.byte] [] remaining rfl
    rw [List.append_nil] at h
    exact congrArg Instr.seglen h
  | sndMsg now data =>
    have h := operandNow_cons cfg Opcode.sndMsg.byte (natToBytes cfg.byteOrder 4 data.length ++ data) now
    simp [encode, Instr.opcode, operandBytes, operandsOf, List.drop_append, h]
  | sndPkt now pkt =>
    have h := operandNow_cons cfg Opcode.sndPkt.byte pkt now
    simp [encode, Instr.opcode, operandBytes, operandsOf, h]
  | sndTimer now =>
    have h := operandNow_cons cfg Opcode.sndTimer.byte [] now
    rw [List.append_nil] at h
    exact congrArg Instr.sndTimer h
  | sndInit | sndFinal | rcvInit | rcvFinal => rfl

theorem decode_encode {cfg : Cfg} {i : Instr} (h : i.wf cfg = true) : decode cfg (encode cfg i) = .ok i := by
  have hdec := decode_byte cfg i.opcode (operandBytes cfg i)
  rw [← encode, if_pos (length_encode h), operandsOf_encode] at hdec
  exact hdec

/-- Settles O1: the descriptor is as long as its format says, and its operands are read where they were written. -/
theorem decodeInvertsEncode : Obligations.DecodeInvertsEncode := fun _ _ h => decode_encode h

/-! ### Encoding what the decoder accepts -/

@[simp] theorem opcode_operandsOf (cfg : Cfg) (d : List Byte) (op : Opcode) : (operandsOf cfg d op).opcode = op := by
  cases op <;> rfl

/-- The bytes of a field whose value is the number of the bytes that follow it. -/
theorem lengthField_append_drop (bo : ByteOrder) {d : List Byte} {o n : Nat}
    (h : d.length = o + n + getField bo d o n) :
    natToBytes bo n (d.drop (o + n)).length ++ d.drop (o + n) = d.drop o := by
  have hlen : (d.drop (o + n)).length = getField bo d o n := by
    rw [List.length_drop]
    omega
  rw [hlen, natToBytes_getField_append_drop bo d (by omega)]

/-- Of a descriptor of the right length, the operands written back are all the bytes after byte 0. -/
theorem operandBytes_operandsOf {cfg : Cfg} {d : List Byte} (op : Opcode)
    (h : d.length = (formatOf op).totalLength cfg d) : operandBytes cfg (operandsOf cfg d op) = d.drop 1 := by
  cases op with
    simp only [formatOf, Format.totalLength, operandsOf, operandBytes, operand32_toNat, operandNow_toNat] at h ⊢
  | csum => exact lengthField_append_drop cfg.byteOrder h
  | encode =>
    rw [List.append_assoc, List.append_assoc, lengthField_append_drop _ (o := 9) h,
      natToBytes_getField_append_drop _ _ (by omega), natToBytes_getField_append_drop _ _ (by omega)]
  | seglen | sndTimer => exact natToBytes_getField_last cfg.byteOrder (o := 1) h
  | sndInit | sndFinal | rcvInit | rcvFinal => exact (List.drop_eq_nil_of_le h.le).symm
  | sndMsg =>
    rw [List.append_assoc, lengthField_append_drop _ (o := 9) h, natToBytes_getField_append_drop _ _ (by omega)]
  | sndPkt => exact natToBytes_getField_append_drop _ d (o := 1) (n := 8) (by omega)

theorem encode_of_decode {cfg : Cfg} {d : List Byte} {i : Instr} (h : decode cfg d = .ok i) : encode cfg i = d := by
  obtain ⟨op, body, rfl, hlen, rfl⟩ := decode_ok h
  rw [encode, opcode_operandsOf, operandBytes_operandsOf op hlen]
  rfl

/-- Settles O2: the length an accepted descriptor has leaves no byte outside byte 0 and the operands. -/
theorem encodeInvertsDecode : Obligations.EncodeInvertsDecode := fun _ _ _ h =>
  ⟨Machine.decode_wf h, encode_of_decode h⟩

end Sys2Proof
end

section
/-! PROOFS. What the engine answers to a descriptor it does not accept (30_encoding.md R90, R91; 60_exceptions.md R217,
R221), and the bytes of its answers (R93). -/

namespace Sys2Proof

/-! ### Descriptors the decoder does not accept -/

/-- The empty descriptor, and one whose byte 0 R88 does not list. -/
theorem decode_of_unlisted (cfg : Cfg) {d : List Byte} (h : ∀ b, d.head? = some b →
      b ∉ ([0x01, 0x02, 0x03, 0x04, 0x10, 0x11, 0x12, 0x13, 0x14, 0x20, 0x21, 0x23] : List Byte)) :
    decode cfg d = .error .illegalOpcode := by
  cases d with
  | nil => rfl
  | cons byte0 body =>
    have hrow : rowOf byte0 = none := (rowOf_none_iff byte0).mpr (h byte0 rfl)
    simp only [decode, hrow]

/-- R85 requires a length of a descriptor with a listed byte 0 only. -/
theorem listed_of_requiredLength {cfg : Cfg} {d : List Byte} {n : Nat} (h : Machine.requiredLength cfg d = some n) :
    ∃ op body, d = Opcode.byte op :: body := by
  cases d with
  | nil => cases h
  | cons byte0 body =>
    have listed (op : Opcode) (hb : byte0.toNat = op.byte.toNat) :
        ∃ op body', byte0 :: body = Opcode.byte op :: body' :=
      ⟨op, body, by rw [BitVec.eq_of_toNat_eq hb]⟩
    simp only [Machine.requiredLength, List.headD_cons] at h
    split at h <;> rename_i hb
    exacts [listed .csum hb, listed .encode hb, listed .validate hb, listed .seglen hb, listed .sndInit hb,
      listed .sndFinal hb, listed .sndMsg hb, listed .sndPkt hb, listed .sndTimer hb, listed .rcvInit hb,
      listed .rcvFinal hb, listed .rcvPkt hb, nomatch h]

/-- For a listed byte 0 the required length is the one the format computes. -/
theorem requiredLength_byte (cfg : Cfg) (op : Opcode) (body : List Byte) :
    Machine.requiredLength cfg (op.byte :: body) = some ((formatOf op).totalLength cfg (op.byte :: body)) := by
  cases op <;> rfl

theorem decode_of_wrongLength {cfg : Cfg} {d : List Byte} {n : Nat} (h : Machine.requiredLength cfg d = some n)
    (hne : d.length ≠ n) : decode cfg d = .error .badFormat := by
  obtain ⟨op, body, rfl⟩ := listed_of_requiredLength h
  rw [requiredLength_byte] at h
  obtain rfl := Option.some.inj h
  rw [decode_byte, if_neg hne]

namespace Machine

/-- A descriptor the decoder does not accept is taken off the port and answered by `ERR`; nothing else changes. -/
theorem step_of_decode_error {s : State} {d : List Byte} {rest : List PortEvent} {r : ErrReason}
    (hin : s.input = .command d :: rest) (hdec : decode s.cfg d = .error r) :
    step s = .next { s with input := rest, actions := s.actions ++ [.err r] } := by
  simp only [step_of_command hin, runDescriptor, hdec]
  rfl

/-- Settles O4: such a descriptor selects no row of the table. -/
theorem unlistedOpcodeIsRefused : Obligations.UnlistedOpcodeIsRefused :=
  ⟨fun s _ _ hin h => step_of_decode_error hin (decode_of_unlisted s.cfg h), fun _ => rfl⟩

/-- `ENCODE` refuses a payload above `MAX_PAYLOAD` (40_codec.md R119). -/
theorem exec_encode_of_tooLong (seq ack : Seq) {payload : Message} {s : State} (hrun : s.fatal = 0)
    (hlong : s.cfg.maxPayload < payload.length) :
    exec (.encode seq ack payload) s = .next (refuse .payloadTooLong s) := by
  rw [exec_eq_unlessHalted, unlessHalted_of_running _ _ hrun, effect, if_pos hlong]

/-- Settles O5: the length the decoder compares with is the one R85 requires; a payload its length field can count is
well-formed, however it compares with `MAX_PAYLOAD`. -/
theorem wrongLengthIsRefused : Obligations.WrongLengthIsRefused := by
  refine ⟨fun s d rest n hin hn hne => step_of_decode_error hin (decode_of_wrongLength hn hne), fun _ => rfl,
    fun s seq ack payload hrun hfits hlong => ⟨decode_encode ?wf, exec_encode_of_tooLong seq ack hrun hlong⟩⟩
  case wf => exact decide_eq_true hfits

end Machine

/-! ### The bytes of the answers -/

/-- A field written after the action code, with nothing behind it, reads back. -/
theorem getField_cons_natToBytes_last (bo : ByteOrder) (code : Byte) {n v : Nat} (hv : v < 256 ^ n) :
    getField bo (code :: natToBytes bo n v) 1 n = v := by
  simpa using getField_cons_natToBytes bo code [] hv

/-- Settles O6: each answer is a code byte before its fields, and a field reads back what was written. -/
theorem actionDescriptorLayouts : Obligations.ActionDescriptorLayouts := by
  intro cfg pkt data d v
  refine ⟨rfl, ?toAppLength, rfl, fun hfits => ?toAppCount, ?toAppData, ?timerArmLength, rfl, ?timerArmDelay, rfl, rfl,
    rfl, rfl, rfl, rfl, rfl, rfl, ?resultLength, rfl, ?resultValue, rfl⟩
  case toAppLength =>
    simp only [encodeAction, List.length_cons, List.length_append, length_natToBytes]
    omega
  case toAppCount => exact getField_cons_natToBytes cfg.byteOrder 0x82 data hfits
  case toAppData => exact List.drop_left' (length_natToBytes cfg.byteOrder 4 data.length)
  case timerArmLength => exact congrArg Nat.succ (length_natToBytes cfg.byteOrder 8 d.toNat)
  case timerArmDelay => exact getField_cons_natToBytes_last cfg.byteOrder 0x83 d.isLt
  case resultLength => exact congrArg Nat.succ (length_natToBytes cfg.byteOrder 2 v.toNat)
  case resultValue => exact getField_cons_natToBytes_last cfg.byteOrder 0x87 v.isLt

/-- Settles O3: each descriptor is evaluated. -/
theorem specDescriptorsDecode : Obligations.SpecDescriptorsDecode :=
  ⟨rfl, rfl, rfl, rfl, rfl, rfl, rfl, rfl, rfl⟩

end Sys2Proof
end

section
/-! PROOFS. The bytes of an encoded packet by offset (30_encoding.md R80, R82). -/

namespace Sys2Proof.Machine

/-- A payload a packet can carry leaves room for the header (00_scope.md R6). -/
theorem length_add_header_le {cfg : Cfg} {payload : Message} (hcfg : cfg.WF) (h : payload.length ≤ cfg.maxPayload) :
    payload.length + 11 ≤ cfg.pktSize := by
  obtain ⟨hlow, -⟩ := hcfg
  simp only [Cfg.maxPayload, Config.hdrSize] at h
  omega

variable (cfg : Cfg) (payload : Message) (seq ack : Seq)

/-- The length byte counts modulo 256; a byte holds no more. -/
theorem getElem?_packetImage_zero (field : List Byte) :
    (packetImage cfg payload seq ack field)[0]? = some (BitVec.ofNat 8 payload.length) := by
  have hone (bo : ByteOrder) (v : Nat) : natToBytes bo 1 v = [BitVec.ofNat 8 v] := by cases bo <;> rfl
  have hbyte : BitVec.ofNat 8 (payload.length % 256) = BitVec.ofNat 8 payload.length :=
    BitVec.eq_of_toNat_eq (by simp)
  rw [packetImage, headBytes, hone, hbyte]
  rfl

/-- From offset 11 on stand the payload and the padding. -/
theorem getElem?_packetImage_body {field : List Byte} (hf : field.length = 2) (i : Nat) :
    (packetImage cfg payload seq ack field)[11 + i]?
      = (payload ++ List.replicate (cfg.pktSize - 11 - payload.length) 0)[i]? := by
  have hhead : (headBytes cfg payload.length seq ack ++ field).length = 11 := by simp [hf]
  rw [packetImage, List.getElem?_append_right (by omega), hhead, Nat.add_sub_cancel_left]

/-- Settles O14: the packet is its image, and each offset falls into one part of it. -/
theorem encodedPacketLayout : Obligations.EncodedPacketLayout := by
  intro cfg payload seq ack hcfg hfits
  have hroom := length_add_header_le hcfg hfits
  refine ⟨length_encodePacket cfg payload seq ack hroom, ?_⟩
  rw [encodePacket_layout cfg payload seq ack hroom]
  refine ⟨getElem?_packetImage_zero cfg payload seq ack _, fun i hi => ?payload, fun j hj hend => ?padding⟩
  case payload =>
    rw [getElem?_packetImage_body _ _ _ _ (by simp), List.getElem?_append_left hi]
  case padding =>
    obtain ⟨i, rfl⟩ := Nat.exists_eq_add_of_le (Nat.le_of_add_right_le hj)
    rw [getElem?_packetImage_body _ _ _ _ (by simp), List.getElem?_append_right (by omega),
      List.getElem?_replicate_of_lt (by omega)]

end Sys2Proof.Machine
end

section
/-! PROOFS. The checksum as arithmetic (40_codec.md R110, R111): a byte string's word sum grows by one byte at a time, a
byte weighs 1 or 256, and folding carries is reduction modulo 0xFFFF. -/

namespace Sys2Proof

/-- The other byte order. -/
@[simp] def ByteOrder.swap : ByteOrder → ByteOrder
  | .le => .be
  | .be => .le

/-- What the first byte of a word weighs (20_memory.md R64). -/
@[simp] def ByteOrder.firstWeight : ByteOrder → Nat
  | .le => 1
  | .be => 256

namespace Machine

/-! ### The word sum -/

@[simp] theorem wordSum_nil (bo : ByteOrder) : wordSum bo [] = 0 := rfl

@[simp] theorem wordSum_cons_cons (bo : ByteOrder) (b0 b1 : Byte) (rest : List Byte) :
    wordSum bo (b0 :: b1 :: rest) = checksumWord bo b0 b1 + wordSum bo rest := rfl

/-- One byte at a time: the bytes behind it are summed as words of the other byte order. -/
theorem wordSum_cons (bo : ByteOrder) (b : Byte) (d : List Byte) :
    wordSum bo (b :: d) = bo.firstWeight * b.toNat + wordSum bo.swap d := by
  induction d using List.twoStepInduction generalizing bo b with
  | nil => cases bo <;> simp [wordSum, checksumWord]
  | singleton c => cases bo <;> simp [wordSum, checksumWord]
  | cons_cons c e d ih _ =>
    rw [wordSum_cons_cons, wordSum_cons_cons, ih]
    cases bo <;> simp [checksumWord] <;> omega

/-- Words in front of a byte string add their own sum. -/
theorem wordSum_append {bo : ByteOrder} {a : List Byte} (d : List Byte) (h : a.length % 2 = 0) :
    wordSum bo (a ++ d) = wordSum bo a + wordSum bo d := by
  induction a using List.twoStepInduction with
  | nil => simp
  | singleton b => simp at h
  | cons_cons b0 b1 a ih _ =>
    rw [List.cons_append, List.cons_append, wordSum_cons_cons, wordSum_cons_cons,
      ih (by simpa [Nat.add_assoc] using h), Nat.add_assoc]

/-- A changed byte changes the word sum by 1 or 256 times its own change. -/
theorem wordSum_modify (bo : ByteOrder) (f : Byte → Byte) {d : List Byte} {k : Nat} (h : k < d.length) :
    ∃ w, (w = 1 ∨ w = 256) ∧ wordSum bo (d.modify k f) + w * d[k].toNat = wordSum bo d + w * (f d[k]).toNat := by
  induction d generalizing bo k with
  | nil => cases h
  | cons b d ih =>
    cases k with
    | zero =>
      refine ⟨bo.firstWeight, by cases bo <;> simp, ?_⟩
      simp only [List.modify_zero_cons, List.getElem_cons_zero, wordSum_cons]
      omega
    | succ k =>
      obtain ⟨w, hw, hsum⟩ := ih bo.swap (Nat.lt_of_succ_lt_succ h)
      refine ⟨w, hw, ?_⟩
      simp only [List.modify_succ_cons, List.getElem_cons_succ, wordSum_cons]
      omega

/-! ### The fold -/

/-- The representative of `sum` modulo 0xFFFF that end-around carries leave: 0xFFFF instead of 0, except of 0 itself
(40_codec.md R111). -/
def foldedSum (sum : Nat) : Nat := if sum = 0 then 0 else if sum % 0xFFFF = 0 then 0xFFFF else sum % 0xFFFF

theorem foldedSum_le (sum : Nat) : foldedSum sum ≤ 0xFFFF := by
  unfold foldedSum
  split_ifs <;> omega

theorem foldedSum_mod (sum : Nat) : foldedSum sum % 0xFFFF = sum % 0xFFFF := by
  unfold foldedSum
  split_ifs <;> omega

/-- A sum that has no carry is folded. -/
theorem foldedSum_of_lt {sum : Nat} (h : sum < 0x10000) : foldedSum sum = sum := by
  unfold foldedSum
  split_ifs <;> omega

/-- Adding the carry at the low end keeps the representative: 0x10000 is 1 modulo 0xFFFF. -/
theorem foldedSum_carry (sum : Nat) : foldedSum (sum % 0x10000 + sum / 0x10000) = foldedSum sum := by
  unfold foldedSum
  have hmod : (sum % 0x10000 + sum / 0x10000) % 0xFFFF = sum % 0xFFFF := by omega
  rw [hmod]
  split_ifs <;> omega

theorem foldCarries_eq {fuel sum : Nat} (h : sum ≤ fuel) : foldCarries fuel sum = foldedSum sum := by
  induction fuel generalizing sum with
  | zero =>
    obtain rfl := Nat.le_zero.mp h
    rfl
  | succ fuel ih =>
    have hlow : sum &&& 0xFFFF = sum % 0x10000 := Nat.and_two_pow_sub_one_eq_mod sum 16
    rw [foldCarries, hlow, Nat.shiftRight_eq_div_pow]
    split
    · exact (foldedSum_of_lt (by omega)).symm
    · rw [ih (by omega), foldedSum_carry]

theorem checksum16_toNat (bo : ByteOrder) (d : List Byte) :
    (checksum16 bo d).toNat = 0xFFFF - foldedSum (wordSum bo d) := by
  have hle := foldedSum_le (wordSum bo d)
  rw [checksum16, foldCarries_eq le_rfl, BitVec.toNat_not, BitVec.toNat_ofNat, Nat.mod_eq_of_lt (by omega)]

/-- Settles O11: the word sum by its recursion, the checksum by what folding leaves. -/
theorem checksumIsSumModulo65535 : Obligations.ChecksumIsSumModulo65535 := by
  refine ⟨wordSum_nil, fun b => ⟨?le, ?be⟩, fun _ _ _ => ⟨rfl, rfl⟩, checksum16_toNat⟩
  case le => simp [wordSum_cons]
  case be => simp [wordSum_cons]

/-- Byte strings with one checksum have one word sum modulo 0xFFFF. -/
theorem wordSum_mod_of_checksum16_eq {bo : ByteOrder} {d e : List Byte} (h : checksum16 bo d = checksum16 bo e) :
    wordSum bo d % 0xFFFF = wordSum bo e % 0xFFFF := by
  have hnat := congrArg BitVec.toNat h
  rw [checksum16_toNat, checksum16_toNat] at hnat
  have hd := foldedSum_le (wordSum bo d)
  have he := foldedSum_le (wordSum bo e)
  have hfold : foldedSum (wordSum bo d) = foldedSum (wordSum bo e) := by omega
  rw [← foldedSum_mod (wordSum bo d), hfold, foldedSum_mod]

/-- Settles O12: the words before, between and behind the two add the same sums either way. -/
theorem checksumIgnoresWordOrder : Obligations.ChecksumIgnoresWordOrder := by
  intro bo a m b x0 x1 y0 y1 ha hm
  have hsum (u0 u1 v0 v1 : Byte) : wordSum bo (a ++ [u0, u1] ++ m ++ [v0, v1] ++ b) =
      wordSum bo a + (checksumWord bo u0 u1 + (wordSum bo m + (checksumWord bo v0 v1 + wordSum bo b))) := by
    simp only [List.append_assoc, List.cons_append, List.nil_append, wordSum_append _ ha, wordSum_append _ hm,
      wordSum_cons_cons]
  apply BitVec.eq_of_toNat_eq
  rw [checksum16_toNat, checksum16_toNat, hsum, hsum]
  congr 2
  omega

end Machine

end Sys2Proof
end

section
/-! PROOFS. What validation accepts and what it detects (40_codec.md R115 to R117): an encoded packet validates, and a
packet that validates does not with one bit flipped. -/

namespace Sys2Proof.Machine

/-- A packet validates exactly when it passes the length test and the checksum test (40_codec.md R116). -/
theorem validate_iff {cfg : Cfg} {p : Packet} : validate cfg p = true ↔
    (lenOf cfg p).toNat ≤ cfg.maxPayload ∧ checksum16 cfg.byteOrder (putBytes p 9 [0, 0]) = csumOf cfg p := by
  rw [validate]
  split
  · simp only [Bool.false_eq_true, false_iff]
    omega
  · rw [beq_iff_eq]
    exact (and_iff_right (by omega)).symm

/-! ### The round trip -/

/-- The length byte can count every payload a packet can carry (00_scope.md R6). -/
theorem length_lt_of_le_maxPayload {cfg : Cfg} {payload : Message} (hcfg : cfg.WF)
    (h : payload.length ≤ cfg.maxPayload) : payload.length < 256 := by
  have hroom := length_add_header_le hcfg h
  obtain ⟨-, hhigh, -⟩ := hcfg
  omega

theorem csumOf_encodePacket {cfg : Cfg} {payload : Message} (seq ack : Seq) (h : payload.length + 11 ≤ cfg.pktSize) :
    csumOf cfg (encodePacket cfg payload seq ack) = imageChecksum cfg payload seq ack := by
  rw [encodePacket_layout cfg payload seq ack h, csumOf_packetImage]

/-- The copy the validator recomputes the checksum on (40_codec.md R116). -/
theorem putBytes_encodePacket {cfg : Cfg} {payload : Message} (seq ack : Seq)
    (h : payload.length + 11 ≤ cfg.pktSize) :
    putBytes (encodePacket cfg payload seq ack) 9 [0, 0] = packetImage cfg payload seq ack [0, 0] := by
  rw [encodePacket_layout cfg payload seq ack h, putBytes_packetImage _ _ _ _ _ _ (length_natToBytes ..) rfl]

theorem validate_encodePacket {cfg : Cfg} {payload : Message} (seq ack : Seq) (hcfg : cfg.WF)
    (h : payload.length ≤ cfg.maxPayload) : validate cfg (encodePacket cfg payload seq ack) = true := by
  have hroom := length_add_header_le hcfg h
  refine validate_iff.mpr ⟨?_, ?_⟩
  · rwa [lenOf_encodePacket cfg payload seq ack hroom (length_lt_of_le_maxPayload hcfg h)]
  · rw [putBytes_encodePacket seq ack hroom, csumOf_encodePacket seq ack hroom, imageChecksum]

/-- Settles O13: the checksum stored is the one over the image with a zero field, and the fields stand in the image. -/
theorem encodedPacketValidatesAndReadsBack : Obligations.EncodedPacketValidatesAndReadsBack := by
  intro cfg payload seq ack hcfg h
  have hroom := length_add_header_le hcfg h
  have hbyte := length_lt_of_le_maxPayload hcfg h
  exact ⟨validate_encodePacket seq ack hcfg h, lenOf_encodePacket cfg payload seq ack hroom hbyte,
    seqOf_encodePacket cfg payload seq ack hroom, ackOf_encodePacket cfg payload seq ack hroom,
    payloadOf_encodePacket cfg payload seq ack hroom hbyte⟩

/-! ### One changed byte -/

/-- A changed byte outside a field leaves the field. -/
theorem slice_modify_outside (f : Byte → Byte) (p : Packet) {k o n : Nat} (h : k < o ∨ o + n ≤ k) :
    slice (p.modify k f) o n = slice p o n := by
  unfold slice
  rcases h with h | h
  · rw [List.drop_modify_of_lt _ _ _ _ h]
  · rw [List.drop_modify_of_ge _ _ _ _ (by omega), List.take_modify, List.modify_eq_self (by simp; omega)]

/-- The bytes written, one by one. -/
theorem getElem?_putBytes_inside {p : Packet} {o i : Nat} {bs : List Byte} (hfit : o + bs.length ≤ p.length)
    (hlow : o ≤ i) (hhigh : i < o + bs.length) : (putBytes p o bs)[i]? = bs[i - o]? := by
  have hbefore : (p.take o).length = o := List.length_take_of_le (by omega)
  rw [putBytes, List.append_assoc, List.getElem?_append_right (by omega), hbefore,
    List.getElem?_append_left (by omega)]

/-- A changed byte outside the bytes written stays changed. -/
theorem putBytes_modify_outside (f : Byte → Byte) {p : Packet} {k o : Nat} {bs : List Byte}
    (hfit : o + bs.length ≤ p.length) (h : k < o ∨ o + bs.length ≤ k) :
    putBytes (p.modify k f) o bs = (putBytes p o bs).modify k f := by
  have hfit' : o + bs.length ≤ (p.modify k f).length := by rwa [List.length_modify]
  apply List.ext_getElem?
  intro i
  by_cases hi : o ≤ i ∧ i < o + bs.length
  case pos =>
    obtain ⟨hlow, hhigh⟩ := hi
    rw [List.getElem?_modify_ne f _ (by omega), getElem?_putBytes_inside hfit' hlow hhigh,
      getElem?_putBytes_inside hfit hlow hhigh]
  case neg =>
    have hout : i < o ∨ o + bs.length ≤ i := by omega
    rw [getElem?_putBytes _ o bs hfit' i hout, List.getElem?_modify, List.getElem?_modify,
      getElem?_putBytes p o bs hfit i hout]

/-- A changed byte is lost where bytes are written over it. -/
theorem putBytes_modify_inside (f : Byte → Byte) (p : Packet) {k o : Nat} {bs : List Byte} (ho : o ≤ k)
    (hk : k < o + bs.length) : putBytes (p.modify k f) o bs = putBytes p o bs := by
  rw [putBytes, List.take_modify, List.modify_eq_self (by simp; omega), List.drop_modify_of_lt _ _ _ _ hk, putBytes]

/-- Packets with equal stored checksums hold the same bytes in the checksum field. -/
theorem slice_of_csumOf_eq {cfg : Cfg} {p q : Packet} (hp : 11 ≤ p.length) (hq : 11 ≤ q.length)
    (h : csumOf cfg p = csumOf cfg q) : slice p 9 2 = slice q 9 2 := by
  have hfield := congrArg BitVec.toNat h
  rw [csumOf, csumOf, get16_toNat, get16_toNat] at hfield
  rw [← natToBytes_getField cfg.byteOrder p hp, hfield, natToBytes_getField cfg.byteOrder q hq]

theorem csumOf_modify_outside (cfg : Cfg) (f : Byte → Byte) (p : Packet) {k : Nat} (h : k < 9 ∨ 9 + 2 ≤ k) :
    csumOf cfg (p.modify k f) = csumOf cfg p := by
  rw [csumOf, get16, getField, slice_modify_outside f p h]
  rfl

/-- Inside the checksum field only a byte left as it was leaves the stored checksum. -/
theorem modify_eq_of_csumOf_eq {cfg : Cfg} {f : Byte → Byte} {p : Packet} {k : Nat} (hlen : 11 ≤ p.length)
    (hlow : 9 ≤ k) (hhigh : k < 11) (h : csumOf cfg (p.modify k f) = csumOf cfg p) : p.modify k f = p := by
  have hlen' : 11 ≤ (p.modify k f).length := by rwa [List.length_modify]
  have hbytes : (slice p 9 2).length = 2 := by rw [length_slice]; omega
  calc p.modify k f = putBytes (p.modify k f) 9 (slice (p.modify k f) 9 2) := (putBytes_slice _ 9 2 hlen').symm
    _ = putBytes (p.modify k f) 9 (slice p 9 2) := by rw [slice_of_csumOf_eq hlen' hlen h]
    _ = putBytes p 9 (slice p 9 2) := putBytes_modify_inside f p hlow (by omega)
    _ = p := putBytes_slice p 9 2 hlen

/-! ### One flipped bit -/

/-- A bit that is not set adds its weight when it is flipped. -/
theorem toNat_flip_of_clear {b : Byte} {j : Nat} (hj : j < 8) (h : b.getLsbD j = false) :
    (b ^^^ BitVec.twoPow 8 j).toNat = b.toNat + 2 ^ j := by
  have hdisjoint : b &&& BitVec.twoPow 8 j = 0#8 := by rw [BitVec.and_twoPow, h]; rfl
  have hxor : b ^^^ BitVec.twoPow 8 j = b + BitVec.twoPow 8 j := by
    rw [BitVec.add_eq_or_of_and_eq_zero _ _ hdisjoint]
    ext i hi
    rcases eq_or_ne i j with rfl | hne
    · rw [BitVec.getLsbD_eq_getElem hi] at h
      simp [h]
    · simp [BitVec.getElem_twoPow, hne]
  rw [hxor, BitVec.toNat_add_of_and_eq_zero hdisjoint, BitVec.toNat_twoPow_of_lt hj]

/-- A flipped bit changes a byte by the weight of the bit. -/
theorem toNat_flip (b : Byte) {j : Nat} (hj : j < 8) :
    (b ^^^ BitVec.twoPow 8 j).toNat = b.toNat + 2 ^ j ∨ b.toNat = (b ^^^ BitVec.twoPow 8 j).toNat + 2 ^ j := by
  cases hb : b.getLsbD j with
  | false => exact .inl (toNat_flip_of_clear hj hb)
  | true =>
    have hclear : (b ^^^ BitVec.twoPow 8 j).getLsbD j = false := by simp [hb, hj]
    have hback := toNat_flip_of_clear hj hclear
    rw [BitVec.xor_assoc, BitVec.xor_self, BitVec.xor_zero] at hback
    exact .inr hback

/-- A flipped bit changes a byte string. -/
theorem modify_flip_ne {d : List Byte} {k j : Nat} (hk : k < d.length) (hj : j < 8) :
    d.modify k (fun b => b ^^^ BitVec.twoPow 8 j) ≠ d := by
  intro h
  have hbyte : d[k] ^^^ BitVec.twoPow 8 j = d[k] := by
    simpa [List.getElem?_eq_getElem hk] using congrArg (·[k]?) h
  have hflip := toNat_flip d[k] hj
  have hpos := Nat.two_pow_pos j
  rw [hbyte] at hflip
  omega

/-- A flipped bit changes the checksum: the word sum moves by a power of 2 below 0x10000, never a multiple of 0xFFFF
(40_codec.md R117 (a)). -/
theorem checksum16_flip_ne (bo : ByteOrder) {d : List Byte} {k j : Nat} (hk : k < d.length) (hj : j < 8) :
    checksum16 bo (d.modify k (fun b => b ^^^ BitVec.twoPow 8 j)) ≠ checksum16 bo d := by
  intro h
  have hmod := wordSum_mod_of_checksum16_eq h
  obtain ⟨w, hw, hsum⟩ := wordSum_modify bo (fun b => b ^^^ BitVec.twoPow 8 j) hk
  have hflip := toNat_flip d[k] hj
  have hpos : 0 < 2 ^ j := Nat.two_pow_pos j
  have hweight : 2 ^ j ≤ 128 := Nat.pow_le_pow_right (by decide) (Nat.le_of_lt_succ hj)
  generalize 2 ^ j = v at *
  rcases hw with rfl | rfl <;> omega

/-- A packet that validates does not with one bit flipped: in the checksum field the stored checksum changes, elsewhere
the recomputed one. -/
theorem validate_flip_eq_false {cfg : Cfg} {p : Packet} {k j : Nat} (hlen : 11 ≤ p.length) (hk : k < p.length)
    (hj : j < 8) (h : validate cfg p = true) : validate cfg (p.modify k (fun b => b ^^^ BitVec.twoPow 8 j)) = false := by
  obtain ⟨-, hstored⟩ := validate_iff.mp h
  rw [← Bool.not_eq_true, validate_iff]
  rintro ⟨-, hflip⟩
  by_cases hfield : 9 ≤ k ∧ k < 11
  case pos =>
    obtain ⟨hlow, hhigh⟩ := hfield
    rw [putBytes_modify_inside _ p hlow (bs := [0, 0]) hhigh, hstored] at hflip
    exact modify_flip_ne hk hj (modify_eq_of_csumOf_eq hlen hlow hhigh hflip.symm)
  case neg =>
    have hout : k < 9 ∨ 9 + 2 ≤ k := by omega
    rw [putBytes_modify_outside _ hlen hout, csumOf_modify_outside _ _ p hout, ← hstored] at hflip
    exact checksum16_flip_ne _ (by rwa [length_putBytes p 9 [0, 0] hlen]) hj hflip

/-- Settles O15: an encoded packet validates, so it does not with a bit flipped. -/
theorem singleBitFlipIsDetected : Obligations.SingleBitFlipIsDetected := by
  intro cfg payload seq ack k j hcfg h hk hj
  have hroom := length_add_header_le hcfg h
  have hlen := length_encodePacket cfg payload seq ack hroom
  exact validate_flip_eq_false (by omega) (by omega) hj (validate_encodePacket seq ack hcfg h)

end Sys2Proof.Machine
end

section
/-! PROOFS. The codec commands (40_codec.md R118 to R120): each answers with one action, and while `FATAL` is not 0 with
`ERR(halted)` (60_exceptions.md R216). -/

namespace Sys2Proof.Machine

theorem exec_of_running {i : Instr} {s : State} (h : s.fatal = 0) : exec i s = .next (effect i s) := by
  rw [exec_eq_unlessHalted, unlessHalted_of_running _ _ h]

theorem exec_of_halted (i : Instr) {s : State} (h : s.fatal ≠ 0) :
    exec i s = .next { s with actions := s.actions ++ [.err .halted] } := by
  rw [exec_eq_unlessHalted, unlessHalted_of_halted _ _ h]
  rfl

/-- Settles O16: the effect of `CSUM` is its one action. -/
theorem csumAnswersChecksum : Obligations.CsumAnswersChecksum := fun _ _ => ⟨exec_of_running, exec_of_halted _⟩

/-- Settles O17: the length of the payload decides between the packet and the refusal. -/
theorem encodeAnswersPacket : Obligations.EncodeAnswersPacket := by
  intro seq ack payload s
  refine ⟨fun hrun hfits => ?packet, exec_encode_of_tooLong seq ack, exec_of_halted _⟩
  case packet =>
    rw [exec_of_running hrun, effect, if_neg (Nat.not_lt.mpr hfits)]
    rfl

theorem exec_validate {s : State} (pkt : Packet) (hrun : s.fatal = 0) : exec (.validate pkt) s =
    .next { s with actions := s.actions ++ [.result16 (if validate s.cfg pkt then 1 else 0)] } :=
  exec_of_running hrun

/-- Settles O18: the answer is the verdict, which is the two tests. -/
theorem validateAnswersVerdict : Obligations.ValidateAnswersVerdict := by
  intro pkt s
  refine ⟨fun hrun hlen hsum => ?valid, fun hrun hfails => ?corrupt, exec_of_halted _⟩
  case valid =>
    rw [exec_validate pkt hrun, if_pos (validate_iff.mpr ⟨hlen, hsum⟩)]
  case corrupt =>
    have hinvalid : ¬ validate s.cfg pkt = true := by
      rw [validate_iff]
      rintro ⟨hlen, hsum⟩
      rcases hfails with hlong | hdiffers
      · omega
      · exact hdiffers hsum
    rw [exec_validate pkt hrun, if_neg hinvalid]

end Sys2Proof.Machine
end

section
/-! PROOFS. The Segmenter (41_segmenter.md): the packets of a message by index, how many there are, and how many bytes
each carries; and the answer of `SEGLEN`. -/

namespace Sys2Proof.Machine

/-! ### The packets of a message -/

@[simp] theorem getElem_messagePackets {cfg : Cfg} {seq : Seq} {msg : Message} {i : Nat}
    (hi : i < (messagePackets cfg seq msg).length) : (messagePackets cfg seq msg)[i] = messagePacket cfg seq msg i := by
  simp [messagePackets]

/-- Cutting off `n` pieces of `M` bytes takes the first `n * M` bytes. -/
theorem flatMap_slice (msg : Message) (M n : Nat) :
    (List.range n).flatMap (fun i => slice msg (i * M) M) = msg.take (n * M) := by
  induction n with
  | zero => simp
  | succ n ih =>
    rw [List.range_succ, List.flatMap_append, ih, Nat.add_mul, Nat.one_mul, List.take_add]
    simp [slice]

section Legal
variable {cfg : Cfg} (hcfg : cfg.WF) (seq : Seq) (msg : Message)
include hcfg

/-- The packet count is the least number of full packets that hold the message: `ceil(S / M)` (41_segmenter.md R131). -/
theorem packetCount_bounds (len : Nat) :
    packetCount cfg len * cfg.maxPayload < len + cfg.maxPayload ∧ len ≤ packetCount cfg len * cfg.maxPayload := by
  obtain ⟨hpos, -⟩ := Cfg.maxPayload_bounds hcfg
  have hle : packetCount cfg len * cfg.maxPayload ≤ len + (cfg.maxPayload - 1) := Nat.div_mul_le_self ..
  have hlt : len + (cfg.maxPayload - 1) < packetCount cfg len * cfg.maxPayload + cfg.maxPayload :=
    Nat.lt_div_mul_add hpos
  omega

theorem validate_messagePacket (i : Nat) : validate cfg (messagePacket cfg seq msg i) = true :=
  validate_encodePacket _ _ hcfg (by rw [length_slice]; exact Nat.min_le_left ..)

/-- While the numbers last they do not wrap around (41_segmenter.md R132). -/
theorem toNat_seqOf_messagePacket (hroom : seq.toNat + packetCount cfg msg.length ≤ Config.lastSeq) {i : Nat}
    (hi : i < packetCount cfg msg.length) : (seqOf cfg (messagePacket cfg seq msg i)).toNat = seq.toNat + i + 1 := by
  have hlast : Config.lastSeq = 0xFFFFFFFE := rfl
  obtain ⟨-, hnumber, -⟩ := messagePacket_fields hcfg seq msg i
  rw [hnumber, toNat_seq_add _ _ (by omega), Nat.add_assoc]

theorem payloadOf_messagePacket (i : Nat) :
    payloadOf cfg (messagePacket cfg seq msg i) = slice msg (i * cfg.maxPayload) cfg.maxPayload := by
  obtain ⟨-, -, -, hpayload⟩ := messagePacket_fields hcfg seq msg i
  exact hpayload

/-- Nothing of the message is lost or repeated (41_segmenter.md R134). -/
theorem flatMap_payloadOf_messagePackets : (messagePackets cfg seq msg).flatMap (payloadOf cfg) = msg := by
  obtain ⟨-, hall⟩ := packetCount_bounds hcfg msg.length
  simp only [messagePackets, List.flatMap_map, payloadOf_messagePacket hcfg, flatMap_slice]
  exact List.take_of_length_le hall

end Legal

/-- Settles O24: `split` makes the packets of the message, whose count is `ceil(S / M)`; by that count a packet before
the last one is full, and the last one carries the rest. -/
theorem splitNumbersSizesReassembles : Obligations.SplitNumbersSizesReassembles := by
  intro cfg seq msg hcfg hroom
  obtain ⟨hcount, hall⟩ := packetCount_bounds hcfg msg.length
  simp only [split_eq hcfg, length_messagePackets, getElem_messagePackets, payloadOf_messagePacket hcfg, length_slice]
  refine ⟨hcount, hall, fun i hi => ⟨toNat_seqOf_messagePacket hcfg seq msg hroom hi, ?ack,
    validate_messagePacket hcfg seq msg i, fun hmore => ?full, fun hlast => ?rest⟩,
    flatMap_payloadOf_messagePackets hcfg seq msg⟩
  case ack =>
    obtain ⟨-, -, hack, -⟩ := messagePacket_fields hcfg seq msg i
    exact hack
  case full =>
    have hle : (i + 2) * cfg.maxPayload ≤ packetCount cfg msg.length * cfg.maxPayload := Nat.mul_le_mul_right _ hmore
    rw [Nat.add_mul] at hle
    omega
  case rest =>
    rw [← hlast, Nat.add_mul] at hall
    omega

/-! ### The direct command -/

/-- Settles O19: the 8-bit result is exact, and widening it to a `RESULT16` keeps its value. -/
theorem segLenAnswersMinimum : Obligations.SegLenAnswersMinimum := by
  intro remaining s hcfg
  refine ⟨fun hrun => ⟨(seglen s.cfg remaining.toNat).setWidth 16, ?value, exec_of_running hrun⟩, exec_of_halted _⟩
  case value =>
    rw [BitVec.toNat_setWidth_of_le (by decide), toNat_seglen hcfg]

end Sys2Proof.Machine
end

section
/-! PROOFS. `SND_MSG` (41_segmenter.md R136): refused whole, or the packets the window has room for are sent and the
rest waits (42_send_window.md R140, R141). -/

namespace Sys2Proof.Machine

/-- Settles O26: the exhaustion test comes before any change. -/
theorem sndMsgRefusedWhenNumbersRunOut : Obligations.SndMsgRefusedWhenNumbersRunOut := by
  intro s now data hrun hout
  have hlast : Config.lastSeq < s.seq.toNat + packetCount s.cfg data.length := hout
  rw [exec_of_running hrun, effect, if_pos hlast]
  rfl

theorem exec_sndMsg_of_room {s : State} (now : Time) {data : Message} (hrun : s.fatal = 0)
    (hroom : s.seq.toNat + packetCount s.cfg data.length ≤ Config.lastSeq) :
    exec (.sndMsg now data) s = .next (sendMessage now data s) := by
  rw [exec_of_running hrun, effect, if_neg (Nat.not_lt.mpr hroom)]

/-- The timer is armed by the first packet sent while no deadline is pending (43_timer_chain.md R150). -/
theorem sendWaiting_tmr_of_chain (now : Time) (before sent after : List Packet) (s : State) :
    (sendWaiting now before sent after s).tmr =
      if s.chain = [] ∧ sent ≠ [] then some (now.toNat + s.cfg.timeout.toNat) else s.tmr := by
  rw [sendWaiting_tmr, timerArmed]
  cases sent with
  | nil => simp
  | cons p sent => cases s.chain <;> simp

/-- The first `n` packets of a message are numbered up to `SEQ + n`, so that is what `HIGHEST_SENT` is raised to
(42_send_window.md R141). -/
theorem toNat_highestOf_take_messagePackets {cfg : Cfg} (hcfg : cfg.WF) (highest seq : Seq) (data : Message)
    (hroom : seq.toNat + packetCount cfg data.length ≤ Config.lastSeq) (n : Nat) :
    (highestOf cfg highest ((messagePackets cfg seq data).take n)).toNat =
      if (messagePackets cfg seq data).take n = [] then highest.toNat
      else max highest.toNat (seq.toNat + ((messagePackets cfg seq data).take n).length) := by
  generalize hsent : (messagePackets cfg seq data).take n = sent
  have hnumber (i : Nat) (hi : i < sent.length) : (seqOf cfg sent[i]).toNat = seq.toNat + i + 1 := by
    subst hsent
    rw [List.length_take, length_messagePackets] at hi
    rw [List.getElem_take, getElem_messagePackets, toNat_seqOf_messagePacket hcfg seq data hroom (by omega)]
  obtain ⟨hge, hsome, hle⟩ := toNat_highestOf cfg highest sent
  split
  case isTrue hnone => rw [hnone]; rfl
  case isFalse hne =>
    have hpos : 0 < sent.length := List.length_pos_iff.mpr hne
    have hlast := hsome _ (List.getElem_mem (show sent.length - 1 < sent.length by omega))
    rw [hnumber] at hlast
    have hmax := hle (max highest.toNat (seq.toNat + sent.length)) (by omega) fun p hp => by
      obtain ⟨i, hi, rfl⟩ := List.getElem_of_mem hp
      rw [hnumber i hi]
      omega
    omega

/-- Settles O25: the message is queued and as much of it as fits is sent from there, so every field is one of
`sendWaiting`. -/
theorem sndMsgSendsThenBacklogs : Obligations.SndMsgSendsThenBacklogs := by
  intro s now data hcfg hrun hroom
  refine ⟨_, exec_sndMsg_of_room now hrun hroom, ?_⟩
  intro ps sent waiting
  have hps : split s.cfg s.seq data = ps := split_eq hcfg s.seq data
  have hqueued : (enqueue ps s).seq.toNat = s.seq.toNat + ps.length := toNat_seq_enqueue (hps ▸ fresh_split hcfg hroom)
  rw [sendMessage_eq_sendWaiting, hps]
  refine ⟨?seq, sendWaiting_window .., rfl, transmitAll_chain_split now sent (enqueue ps s),
    sendWaiting_tmr_of_chain .., transmitAll_freeCtr now sent (enqueue ps s), ?highest,
    transmitAll_actions now sent (enqueue ps s), sendWaiting_curAck .., sendWaiting_wcap .., sendWaiting_dupcnt ..,
    sendWaiting_expected .., sendWaiting_rbuf .., sendWaiting_fatal .., sendWaiting_cfg .., transmitAll_input ..⟩
  case seq => rw [sendWaiting_seq, hqueued]
  case highest =>
    rw [sendWaiting_highestSent]
    exact toNat_highestOf_take_messagePackets hcfg s.highestSent s.seq data hroom _

end Sys2Proof.Machine
end

section
/-! PROOFS. The arrival order does not matter (46_reorder_buffer.md R193), and so a segmented message survives the
channel (41_segmenter.md R134): what the receiver has delivered is always a leading part of the run, and each packet
of the run is delivered, buffered, or still to come. -/

namespace Sys2Proof.Machine

/-! ### Where a packet goes, by its number -/

section Place
variable {pkt : Packet} {s : State}

theorem rxPlace_of_lt (h : seqOf s.cfg pkt < s.expected) : rxPlace pkt s = s := by
  obtain he | ⟨hdue, -, -⟩ | ⟨hahead, -, -⟩ := rxPlace_cases s pkt
  · exact he
  · exact absurd h (hdue ▸ BitVec.lt_irrefl _)
  · exact absurd h (BitVec.lt_asymm hahead)

theorem rxPlace_of_due (hdue : seqOf s.cfg pkt = s.expected) (hlast : seqOf s.cfg pkt ≠ 0xFFFFFFFF) :
    rxPlace pkt s = deliver pkt s := by
  simp only [rxPlace, if_neg hlast, if_pos hdue]

theorem rxPlace_of_ahead (hahead : s.expected < seqOf s.cfg pkt) (hlast : seqOf s.cfg pkt ≠ 0xFFFFFFFF) :
    rxPlace pkt s = rxInsert pkt s := by
  have hne : seqOf s.cfg pkt ≠ s.expected := fun h => BitVec.lt_irrefl _ (h ▸ hahead)
  simp only [rxPlace, if_neg hlast, if_neg hne, if_pos hahead]

end Place

/-! ### What the application has been given -/

theorem delivered_deliver (p : Packet) (s : State) :
    delivered (deliver p s) = delivered s ++ payloadOf s.cfg p := by
  simp [delivered, appData]

theorem delivered_emitAck (s : State) : delivered (emitAck s) = delivered s := by
  simp [delivered, appData]

/-! ### Runs -/

/-- The packets of a run: valid, and numbered `first`, `first + 1`, and so on, all of them usable (46_reorder_buffer.md
R192, R193). -/
structure ContiguousRun (cfg : Cfg) (first : Nat) (ps : List Packet) : Prop where
  valid : ∀ p ∈ ps, validate cfg p = true
  numbered : ∀ i (h : i < ps.length), (seqOf cfg ps[i]).toNat = first + i
  usable : first + ps.length ≤ 0xFFFFFFFF

section Run
variable {cfg : Cfg} {first : Nat} {ps : List Packet} (hrun : ContiguousRun cfg first ps) {p q : Packet}
include hrun

theorem ContiguousRun.index (hp : p ∈ ps) :
    ∃ (i : Nat) (h : i < ps.length), ps[i] = p ∧ (seqOf cfg p).toNat = first + i := by
  obtain ⟨i, hi, rfl⟩ := List.getElem_of_mem hp
  exact ⟨i, hi, rfl, hrun.numbered i hi⟩

theorem ContiguousRun.injective (hp : p ∈ ps) (hq : q ∈ ps) (h : seqOf cfg p = seqOf cfg q) : p = q := by
  obtain ⟨i, hi, rfl, hpnum⟩ := hrun.index hp
  obtain ⟨j, hj, rfl, hqnum⟩ := hrun.index hq
  obtain rfl : i = j := by rw [h] at hpnum; omega
  rfl

theorem ContiguousRun.ne_last (hp : p ∈ ps) : seqOf cfg p ≠ 0xFFFFFFFF := by
  obtain ⟨i, hi, -, hnum⟩ := hrun.index hp
  have husable := hrun.usable
  have hval : (0xFFFFFFFF : Seq).toNat = 0xFFFFFFFF := rfl
  intro h
  rw [h] at hnum
  omega

end Run

/-! ### The invariant of reception -/

/-- The receiver, started at `s`, is at `t` when the packets `pending` are still to come: a leading part of the run `ps`
is delivered, only packets of the run are buffered, and none is lost. -/
structure Received (s : State) (ps pending : List Packet) (t : State) : Prop where
  cfg : t.cfg = s.cfg
  running : t.fatal = 0
  buffered : ∀ p ∈ t.rbuf, p ∈ ps
  kept : ∀ p ∈ ps, seqOf s.cfg p < t.expected ∨ p ∈ t.rbuf ∨ p ∈ pending
  given : ∃ n, t.expected.toNat = s.expected.toNat + n ∧ n ≤ ps.length ∧
    delivered t = delivered s ++ (ps.take n).flatMap (payloadOf s.cfg)

section Reception
variable {s t : State} {ps pending : List Packet} {p : Packet}

theorem Received.le_expected (h : Received s ps pending t) : s.expected ≤ t.expected := by
  obtain ⟨n, hn, -, -⟩ := h.given
  rw [BitVec.le_def]
  omega

/-- A packet that is no news may be passed over. -/
theorem Received.skip (h : Received s ps (p :: pending) t)
    (hold : p ∈ ps → seqOf s.cfg p < t.expected ∨ p ∈ t.rbuf) : Received s ps pending t where
  cfg := h.cfg
  running := h.running
  buffered := h.buffered
  given := h.given
  kept q hq := by
    obtain hlt | hbuf | hpend := h.kept q hq
    · exact .inl hlt
    · exact .inr (.inl hbuf)
    · obtain rfl | hpend := List.mem_cons.mp hpend
      · exact (hold hq).imp_right .inl
      · exact .inr (.inr hpend)

theorem Received.emitAck (h : Received s ps pending t) : Received s ps pending (emitAck t) where
  cfg := h.cfg
  running := h.running
  buffered := h.buffered
  kept := h.kept
  given := by
    obtain ⟨n, hn, hle, hgiven⟩ := h.given
    exact ⟨n, hn, hle, by rw [delivered_emitAck, hgiven]⟩

section Step
variable (hrun : ContiguousRun s.cfg s.expected.toNat ps)
include hrun

/-- Delivering the packet of the run that is due, from the channel or from the front of the buffer: `rest` is the
buffer after it, `after` is what is then still to come. -/
theorem Received.deliver {rest after : List Packet} (h : Received s ps pending t) (hp : p ∈ ps)
    (hdue : seqOf s.cfg p = t.expected) (hrest : ∀ q ∈ rest, q ∈ ps)
    (hkept : ∀ q, q ∈ t.rbuf ∨ q ∈ pending → q = p ∨ q ∈ rest ∨ q ∈ after) :
    Received s ps after (deliver p { t with rbuf := rest }) := by
  have hsucc : (Machine.deliver p { t with rbuf := rest }).expected.toNat = t.expected.toNat + 1 :=
    toNat_succ_of_usable (hdue ▸ hrun.ne_last hp)
  constructor
  case cfg => exact h.cfg
  case running => exact h.running
  case buffered => exact hrest
  case kept =>
    intro q hq
    rw [BitVec.lt_def, hsucc]
    obtain hlt | hwaits := h.kept q hq
    · rw [BitVec.lt_def] at hlt
      exact .inl (by omega)
    · obtain rfl | hwaits := hkept q hwaits
      · exact .inl (by rw [hdue]; omega)
      · exact .inr hwaits
  case given =>
    obtain ⟨n, hn, -, hgiven⟩ := h.given
    obtain ⟨i, hi, hget, hnum⟩ := hrun.index hp
    obtain rfl : i = n := by rw [hdue] at hnum; omega
    refine ⟨i + 1, by omega, hi, ?_⟩
    have hmore : delivered (Machine.deliver p { t with rbuf := rest }) = delivered t ++ payloadOf t.cfg p :=
      delivered_deliver p _
    rw [hmore, hgiven, h.cfg, List.take_succ_eq_append_getElem hi, hget]
    simp

theorem Received.rxInsert (h : Received s ps (p :: pending) t) (hrcv : ReceiverOk t) (hp : p ∈ ps) :
    Received s ps pending (rxInsert p t) := by
  obtain ⟨hm, he⟩ | ⟨-, lower, higher, hsplit, -, -, he⟩ := rxInsert_cases p t hrcv.rising
  · obtain ⟨q, hq, hsame⟩ := mem_seqs.mp hm
    rw [h.cfg] at hsame
    have hbuf : p ∈ t.rbuf := hrun.injective (h.buffered q hq) hp hsame ▸ hq
    rw [he]
    exact h.skip fun _ => .inr hbuf
  · have hmem (q : Packet) : q ∈ lower ++ [p] ++ higher ↔ q = p ∨ q ∈ t.rbuf := by
      rw [hsplit]
      simp only [List.mem_append, List.mem_singleton]
      tauto
    rw [he]
    refine ⟨h.cfg, h.running, fun q hq => ?_, fun q hq => ?_, h.given⟩
    · obtain rfl | hq := (hmem q).mp hq
      · exact hp
      · exact h.buffered q hq
    · obtain hlt | hbuf | hpend := h.kept q hq
      · exact .inl hlt
      · exact .inr (.inl ((hmem q).mpr (.inr hbuf)))
      · obtain rfl | hpend := List.mem_cons.mp hpend
        · exact .inr (.inl ((hmem q).mpr (.inl rfl)))
        · exact .inr (.inr hpend)

/-- Placing a packet of the run: it is delivered, buffered, or known already. -/
theorem Received.rxPlace (h : Received s ps (p :: pending) t) (hrcv : ReceiverOk t) (hp : p ∈ ps) :
    Received s ps pending (rxPlace p t) := by
  have hlast := hrun.ne_last hp
  rw [← h.cfg] at hlast
  obtain hlt | hdue | hahead := Nat.lt_trichotomy (seqOf t.cfg p).toNat t.expected.toNat
  · rw [rxPlace_of_lt hlt]
    exact h.skip fun _ => .inl (h.cfg ▸ hlt)
  · have hdue := BitVec.eq_of_toNat_eq hdue
    rw [rxPlace_of_due hdue hlast]
    refine h.deliver hrun hp (h.cfg ▸ hdue) h.buffered fun q hq => ?_
    rw [List.mem_cons] at hq
    tauto
  · rw [rxPlace_of_ahead hahead hlast]
    exact h.rxInsert hrun hrcv hp

theorem Received.rxDrain (h : Received s ps pending t) : Received s ps pending (rxDrain t) := by
  rw [Machine.rxDrain]
  generalize hbuf : t.rbuf = buf
  induction buf generalizing t with
  | nil =>
    rw [drainFrom, ← hbuf]
    exact h
  | cons p rest ih =>
    rw [drainFrom]
    split
    case isTrue hdue =>
      have hp : p ∈ ps := h.buffered p (by simp [hbuf])
      refine ih (h.deliver hrun hp (h.cfg ▸ hdue) (fun q hq => h.buffered q (by simp [hbuf, hq])) fun q hq => ?_) rfl
      rw [hbuf, List.mem_cons] at hq
      tauto
    case isFalse => exact hbuf ▸ h

/-- One arrival: a packet of the run is placed and the buffer drained, a corrupt or stale one changes nothing but may
be acknowledged (46_reorder_buffer.md R186, R189). -/
theorem Received.rcvPkt (h : Received s ps (p :: pending) t) (hrcv : ReceiverOk t)
    (hp : p ∈ ps ∨ validate s.cfg p = false ∨ seqOf s.cfg p < s.expected) :
    ∃ u, exec (.rcvPkt p) t = .next u ∧ Received s ps pending u ∧ ReceiverOk u := by
  refine ⟨_, exec_of_running h.running, ?_⟩
  rw [effect, h.cfg]
  by_cases hvalid : validate s.cfg p = true
  · rw [if_pos hvalid]
    obtain ⟨hnext, -, -⟩ := hrcv.rcvPkt (pkt := p)
    refine ⟨(Received.rxDrain hrun ?_).emitAck, hnext.congr rfl rfl rfl⟩
    obtain hp | hbad | hstale := hp
    · exact h.rxPlace hrun hrcv hp
    · exact absurd hbad (by simp [hvalid])
    · have hlt : seqOf s.cfg p < t.expected := Nat.lt_of_lt_of_le hstale h.le_expected
      rw [rxPlace_of_lt (h.cfg ▸ hlt)]
      exact h.skip fun _ => .inl hlt
  · rw [if_neg hvalid]
    exact ⟨h.skip fun hp => absurd (hrun.valid p hp) hvalid, hrcv⟩

theorem Received.receiveAll (h : Received s ps pending t) (hrcv : ReceiverOk t)
    (hp : ∀ p ∈ pending, p ∈ ps ∨ validate s.cfg p = false ∨ seqOf s.cfg p < s.expected) :
    ∃ u, receiveAll pending t = .next u ∧ Received s ps [] u ∧ ReceiverOk u := by
  induction pending generalizing t with
  | nil => exact ⟨t, rfl, h, hrcv⟩
  | cons p pending ih =>
    obtain ⟨u, hexec, hu, hrcvu⟩ := h.rcvPkt hrun hrcv (hp p List.mem_cons_self)
    simp only [Machine.receiveAll, hexec]
    exact ih hu hrcvu fun q hq => hp q (List.mem_cons_of_mem _ hq)

/-- With nothing still to come the whole run is delivered: a packet that is due cannot be in the buffer. -/
theorem Received.complete (h : Received s ps [] t) (hrcv : ReceiverOk t) :
    t.rbuf = [] ∧ t.expected.toNat = s.expected.toNat + ps.length ∧
    delivered t = delivered s ++ ps.flatMap (payloadOf s.cfg) := by
  obtain ⟨n, hn, hle, hgiven⟩ := h.given
  have hahead (q : Packet) (hq : q ∈ t.rbuf) : t.expected.toNat < (seqOf s.cfg q).toNat := h.cfg ▸ hrcv.ahead q hq
  obtain rfl : n = ps.length := by
    by_contra hne
    have hlt : n < ps.length := by omega
    have hnum := hrun.numbered n hlt
    obtain hbelow | hbuf | hpend := h.kept _ (List.getElem_mem hlt)
    · rw [BitVec.lt_def] at hbelow
      omega
    · have := hahead _ hbuf
      omega
    · exact absurd hpend List.not_mem_nil
  refine ⟨List.eq_nil_iff_forall_not_mem.mpr fun q hq => ?_, hn, by rw [hgiven, List.take_length]⟩
  obtain ⟨i, hi, -, hnum⟩ := hrun.index (h.buffered q hq)
  have := hahead q hq
  omega

end Step
end Reception

/-- A run that arrives in any order, with repetitions, corrupt and stale packets among it, is delivered in order
(46_reorder_buffer.md R193). -/
theorem receiveAll_of_run {s : State} {ps arrivals : List Packet} (hrun : ContiguousRun s.cfg s.expected.toNat ps)
    (hfatal : s.fatal = 0) (hempty : s.rbuf = []) (hstarted : 1 ≤ s.expected.toNat)
    (harrive : ∀ p ∈ arrivals, p ∈ ps ∨ validate s.cfg p = false ∨ seqOf s.cfg p < s.expected)
    (hall : ∀ p ∈ ps, p ∈ arrivals) :
    ∃ t, receiveAll arrivals s = .next t ∧ t.rbuf = [] ∧ t.expected.toNat = s.expected.toNat + ps.length ∧
      delivered t = delivered s ++ ps.flatMap (payloadOf s.cfg) := by
  have hstart : Received s ps arrivals s :=
    ⟨rfl, hfatal, by simp [hempty], fun p hp => .inr (.inr (hall p hp)), 0, by simp⟩
  have hrcv : ReceiverOk s := ⟨by simp [hempty], by simp [hempty], by simp [hempty], hstarted⟩
  obtain ⟨t, hreceive, ht, hrcvt⟩ := hstart.receiveAll hrun hrcv harrive
  exact ⟨t, hreceive, ht.complete hrun hrcvt⟩

/-! ### The message through the channel -/

theorem contiguousRun_messagePackets {cfg : Cfg} (hcfg : cfg.WF) (seq : Seq) (data : Message)
    (hroom : seq.toNat + packetCount cfg data.length ≤ Config.lastSeq) :
    ContiguousRun cfg (seq.toNat + 1) (messagePackets cfg seq data) where
  valid p hp := by
    obtain ⟨i, -, rfl⟩ := List.mem_map.mp hp
    exact validate_messagePacket hcfg seq data i
  numbered i hi := by
    rw [length_messagePackets] at hi
    rw [getElem_messagePackets, toNat_seqOf_messagePacket hcfg seq data hroom hi]
    omega
  usable := by
    have hlast : Config.lastSeq = 0xFFFFFFFE := rfl
    rw [length_messagePackets]
    omega

/-- Settles O45: the packets of the message are a run from the number the receiver expects, and their payloads together
are the message. -/
theorem messageSurvivesTheChannel : Obligations.MessageSurvivesTheChannel := by
  intro snd rcv data arrivals hcfg hsame hfatal hempty hexpected hroom harrive hall
  rw [split_eq hcfg, ← hsame] at harrive hall
  have hrun := contiguousRun_messagePackets hcfg snd.seq data hroom
  rw [← hexpected, ← hsame] at hrun
  obtain ⟨t, hreceive, hbuf, -, hgiven⟩ := receiveAll_of_run hrun hfatal hempty (by omega)
    (fun p hp => (harrive p hp).imp_right .inl) hall
  refine ⟨t, hreceive, hbuf, ?_⟩
  rw [hgiven, hsame, flatMap_payloadOf_messagePackets hcfg]

end Sys2Proof.Machine
end

section
/-! PROOFS. The timer chain (43_timer_chain.md): `schedule` and `cancel` as state updates (R150, R151), one equation per
case of a firing (R153 to R157), and which commands can remove an entry (R152). -/

namespace Sys2Proof.Machine

/-! ### schedule and cancel -/

theorem nextFree_of_fits {now : Time} {s : State} (h : DeadlineFits now s) : nextFree now s = s.freeCtr := if_pos h

/-- Settles O27: the appended expiry is `deadline`, and the timer is armed by the first entry only. -/
theorem scheduleAppendsAtTail : Obligations.ScheduleAppendsAtTail := by
  intro q now s
  refine ⟨deadline now s, nextFree now s, ?fits, ?armed, ?idle⟩
  case fits => exact fun hfits => ⟨toNat_deadline now s hfits, nextFree_of_fits hfits⟩
  case armed =>
    intro hne
    have harmed : timerArmed s = true := by simpa [timerArmed] using hne
    rw [schedule, if_pos harmed]
    rfl
  case idle =>
    intro hempty
    have hidle : ¬ timerArmed s = true := by simp [timerArmed, hempty]
    rw [schedule, if_neg hidle, pushDeadline, armTimer_chain, hempty]
    rfl

/-- A timer set for what is left of a deadline runs out at that deadline, or now if it has passed (10_state.md R39). -/
theorem toNat_add_satSub (now x : Time) : now.toNat + (satSub x now).toNat = max now.toNat x.toNat := by
  rw [toNat_satSub]
  omega

/-- The first entry for `q` is the one that goes (43_timer_chain.md R151). -/
theorem eraseP_firstMatch {q : Seq} {before after : List ChainEntry} {e : ChainEntry} (he : e.seq = q)
    (hbefore : ∀ e' ∈ before, e'.seq ≠ q) :
    (before ++ e :: after).eraseP (fun e => e.seq == q) = before ++ after := by
  rw [List.eraseP_append_right _ (by simpa using hbefore), List.eraseP_cons_of_pos (by simpa using he)]

/-- A head that is not for `q` stays, and so `cancel` leaves the timer alone (43_timer_chain.md R151). -/
theorem cancelActions_cons_of_ne {q : Seq} {head : ChainEntry} (h : head.seq ≠ q) (rest : List ChainEntry)
    (now : Time) (tmr : Option Nat) :
    cancelActions (head :: rest) q now = [] ∧ cancelTimer (head :: rest) q now tmr = tmr := by
  cases rest <;> simp [cancelActions, cancelTimer, h]

/-- Settles O28, from the closed form of `cancel`: the entry that goes is the only one, the head, or neither. -/
theorem cancelRemovesFirstMatch : Obligations.CancelRemovesFirstMatch := by
  intro q now s
  refine ⟨fun hnone => ?absent, fun before e after hchain he hbefore => ?present⟩
  case absent =>
    obtain ⟨-, h⟩ | ⟨before, e, after, hchain, he, -⟩ := cancel_cases q now s
    · exact h
    · exact absurd he (hnone e (by simp [hchain]))
  case present =>
    rw [cancel_eq, hchain, eraseP_firstMatch he hbefore]
    refine ⟨?only, ?head, ?inner⟩
    case only =>
      rintro rfl rfl
      simp [cancelActions, cancelTimer, he]
    case head =>
      rintro head tail rfl rfl
      refine ⟨satSub head.expiry now, toNat_satSub _ _, ?_⟩
      simp [cancelActions, cancelTimer, he, toNat_add_satSub]
    case inner =>
      intro hne
      obtain ⟨first, rest, rfl⟩ := List.exists_cons_of_ne_nil hne
      obtain ⟨hactions, htmr⟩ :=
        cancelActions_cons_of_ne (hbefore first List.mem_cons_self) (rest ++ e :: after) now s.tmr
      simp only [List.cons_append, hactions, htmr, List.append_nil]

/-! ### One equation per case of a firing -/

theorem fatalStop_of_running (c : FatalCode) {s : State} (hrun : s.fatal = 0) :
    fatalStop c s = { s with fatal := c.code, actions := s.actions ++ [.fatal c] } := by
  rw [fatalStop, if_pos hrun]
  rfl

theorem rearm_of_cons (now : Time) {s : State} {head : ChainEntry} {rest : List ChainEntry}
    (h : s.chain = head :: rest) : rearm now s = armTimer now (satSub head.expiry now) s := by
  simp only [rearm, h]

theorem rearm_of_nil (now : Time) {s : State} (h : s.chain = []) : rearm now s = s := by
  simp only [rearm, h]

theorem onFire_of_nil (now : Time) {s : State} (h : s.chain = []) : onFire now s = fatalStop .timerEmpty s := by
  simp only [onFire, h]

section Fire
variable (now : Time) {s : State} {e : ChainEntry} {rest : List ChainEntry} (hchain : s.chain = e :: rest)
include hchain

theorem onFire_of_live {p : Packet} (hlive : s.curAck ≤ e.seq) (hfound : lookup e.seq s = some p) :
    onFire now s = rearm now (retransmit p e.seq now { s with chain := rest }) := by
  have hfound' : lookup e.seq { s with chain := rest } = some p := hfound
  simp only [onFire, hchain, fireEntry, if_pos hlive, hfound']

theorem onFire_of_missing (hlive : s.curAck ≤ e.seq) (hmiss : lookup e.seq s = none) :
    onFire now s = fatalStop .lookupMiss { s with chain := rest } := by
  have hmiss' : lookup e.seq { s with chain := rest } = none := hmiss
  simp only [onFire, hchain, fireEntry, if_pos hlive, hmiss']

theorem onFire_of_stale (hstale : e.seq < s.curAck) : onFire now s = rearm now { s with chain := rest } := by
  simp only [onFire, hchain, fireEntry, if_neg (BitVec.not_le.mpr hstale)]

end Fire

theorem lookup_of_forall_ne {q : Seq} {s : State} (h : ∀ p ∈ s.window, seqOf s.cfg p ≠ q) : lookup q s = none :=
  List.find?_eq_none.mpr (by simpa using h)

theorem exec_sndTimer (now : Time) {s : State} (hrun : s.fatal = 0) : exec (.sndTimer now) s = .next (onFire now s) :=
  exec_of_running hrun

/-- Settles O29: nothing is popped before the assertion. -/
theorem sndTimerOnEmptyChainIsFatal : Obligations.SndTimerOnEmptyChainIsFatal := by
  intro s now hrun hempty
  rw [exec_sndTimer now hrun, onFire_of_nil now hempty, fatalStop_of_running _ hrun]
  rfl

/-- Settles O31: the pop comes before the look-up. -/
theorem sndTimerLookupMissIsFatal : Obligations.SndTimerLookupMissIsFatal := by
  intro s now e rest hrun hchain hlive hmiss
  rw [exec_sndTimer now hrun, onFire_of_missing now hchain hlive (lookup_of_forall_ne hmiss)]
  exact congrArg Host.Outcome.next (fatalStop_of_running _ hrun)

/-- Settles O32: a stale entry is popped, and only the re-arm for the new head follows. -/
theorem sndTimerDiscardsStaleEntry : Obligations.SndTimerDiscardsStaleEntry := by
  intro s now e rest hrun hchain hstale
  rw [exec_sndTimer now hrun, onFire_of_stale now hchain hstale]
  refine ⟨?last, ?more⟩
  case last =>
    rintro rfl
    rw [rearm_of_nil now rfl]
  case more =>
    rintro h tl rfl
    refine ⟨satSub h.expiry now, toNat_satSub _ _, ?_⟩
    rw [rearm_of_cons now rfl]
    rfl

/-- A fresh deadline lies `TIMEOUT` ahead (43_timer_chain.md R150, R157). -/
theorem satSub_deadline {now : Time} {s : State} (h : DeadlineFits now s) :
    satSub (deadline now s) now = s.cfg.timeout := by
  apply BitVec.eq_of_toNat_eq
  rw [toNat_satSub, toNat_deadline now s h, Nat.add_sub_cancel_left]

/-- Settles O30: the chain that ends a firing on a live entry has a head, an older entry or the fresh one, and the timer
is armed for it. -/
theorem sndTimerRetransmitsLiveEntry : Obligations.SndTimerRetransmitsLiveEntry := by
  intro s now e rest p hrun hchain hlive hfound
  obtain ⟨head, tail, hhead⟩ : ∃ head tail, rest ++ [⟨e.seq, deadline now s⟩] = head :: tail :=
    List.exists_cons_of_ne_nil (by simp)
  have hfire : onFire now s =
      armTimer now (satSub head.expiry now) (retransmit p e.seq now { s with chain := rest }) := by
    rw [onFire_of_live now hchain hlive hfound]
    exact rearm_of_cons now (by rw [retransmit_eq]; exact hhead)
  refine ⟨_, deadline now s, satSub head.expiry now, exec_sndTimer now hrun, ?_⟩
  rw [hfire, retransmit_eq]
  refine ⟨rfl, rfl, ?actions, ?older, ?only, rfl, ?fits, rfl⟩
  case actions => exact List.append_assoc ..
  case older =>
    rintro h tl rfl
    obtain ⟨rfl, -⟩ := List.cons.inj hhead
    exact toNat_satSub _ _
  case only =>
    rintro rfl
    obtain ⟨rfl, -⟩ := List.cons.inj hhead
    exact toNat_satSub _ _
  case fits =>
    refine fun hfits => ⟨toNat_deadline now s hfits, nextFree_of_fits hfits, ?_⟩
    rintro rfl
    obtain ⟨rfl, -⟩ := List.cons.inj hhead
    exact satSub_deadline hfits

/-! ### Entries leave lazily (43_timer_chain.md R152) -/

theorem sendWaiting_chain_prefix (now : Time) (before sent after : List Packet) (s : State) :
    s.chain <+: (sendWaiting now before sent after s).chain := by
  obtain ⟨new, h⟩ := transmitAll_chain_prefix now sent s
  exact ⟨new, h.symm⟩

theorem sendMessage_chain_prefix (now : Time) (data : Message) (s : State) :
    s.chain <+: (sendMessage now data s).chain := by
  obtain ⟨sent, after, -, -, -, h⟩ := sendMessage_cases now data s
  rw [h]
  exact sendWaiting_chain_prefix now s.backlog sent after (enqueue _ s)

/-- An advance removes no entry. -/
theorem acceptAck_chain_prefix (a : Seq) (now : Time) (s : State) :
    (countAck a now s).chain <+: (acceptAck a now s).chain := by
  obtain ⟨-, h⟩ | ⟨-, sent, after, -, -, h⟩ := acceptAck_cases a now s
  · rw [h, aimdIncrease_chain]
  · rw [h, aimdIncrease_chain]
    exact sendWaiting_chain_prefix now [] sent after (evict a (countAck a now s))

/-- A firing removes the head only. -/
theorem onFire_chain_prefix (now : Time) {s : State} {head : ChainEntry} {rest : List ChainEntry}
    (hchain : s.chain = head :: rest) : rest <+: (onFire now s).chain := by
  obtain ⟨hc, -⟩ | ⟨e, rest', hc, hcases⟩ := onFire_cases now s
  · rw [hchain] at hc
    cases hc
  · obtain ⟨rfl, rfl⟩ := List.cons.inj (hchain.symm.trans hc)
    obtain ⟨-, -, h⟩ | ⟨p, -, -, -, h⟩ | ⟨-, h⟩ := hcases
    · rw [h, fatalStop_chain]
    · rw [h, rearm_eq, retransmit_eq]
      exact List.prefix_append _ _
    · rw [h, rearm_eq]

/-- Only the third ack of a value resends, and only a packet the window holds (45_ack_processor.md R176, R178). -/
theorem of_resentBy_ne_nil {a : Seq} {s : State} (h : resentBy a s ≠ []) :
    dupGet s.dupcnt a = 2 ∧ ∃ p ∈ s.window, seqOf s.cfg p = a := by
  obtain ⟨p, hp⟩ := List.exists_mem_of_ne_nil _ h
  unfold resentBy at hp
  split at hp
  case isTrue hthird => exact ⟨hthird, p, by simpa using List.mem_of_mem_take hp⟩
  case isFalse => cases hp

/-- Counting an ack removes an entry only where it resends the packet of the ack's own number. -/
theorem of_notMem_countAck_chain {a : Seq} {now : Time} {s : State} {e : ChainEntry} (he : e ∈ s.chain)
    (hgone : e ∉ (countAck a now s).chain) :
    e.seq = a ∧ dupGet s.dupcnt a = 2 ∧ ∃ p ∈ s.window, seqOf s.cfg p = a := by
  rw [countAck_eq] at hgone
  by_cases hresent : resentBy a s = []
  · exact absurd he (by simpa [hresent] using hgone)
  · refine ⟨?_, of_resentBy_ne_nil hresent⟩
    by_contra hother
    exact hgone (by simpa [hresent] using (List.mem_eraseP_of_neg (by simpa using hother)).mpr he)

/-- Settles O33, by the kinds of effect a command can have: `SND_MSG` and an advance only append to the chain. -/
theorem chainEntriesLeaveLazily : Obligations.ChainEntriesLeaveLazily := by
  intro i s t e hexec he hgone
  cases exec_behaves hexec with
  | quiet | rcvInit | rcvFinal => exact absurd he hgone
  | sndInit => exact .inl rfl
  | sndFinal => exact .inr (.inl rfl)
  | sndMsg now data => exact absurd ((sendMessage_chain_prefix now data s).subset he) hgone
  | sndPkt now pkt =>
    obtain ⟨hseq, hthird, hheld⟩ :=
      of_notMem_countAck_chain he (mt (fun h => (acceptAck_chain_prefix _ now s).subset h) hgone)
    exact .inr (.inr (.inr ⟨now, pkt, rfl, hseq, hseq ▸ hthird, hseq ▸ hheld⟩))
  | sndTimer now =>
    obtain ⟨head, rest, hchain⟩ := List.exists_cons_of_ne_nil (List.ne_nil_of_mem he)
    have hhead : e = head := (List.mem_cons.mp (hchain ▸ he)).resolve_right
      fun hrest => hgone ((onFire_chain_prefix now hchain).subset hrest)
    exact .inr (.inr (.inl ⟨now, rfl, by rw [hchain, hhead]; rfl⟩))
  | rcvPkt pkt =>
    obtain ⟨-, -, -, -, hsame⟩ := exec_beside hexec
    exact absurd ((hsame rfl).chain ▸ he) hgone

/-! ### No halt under a well-behaved host -/

/-- A firing with a deadline pending does not halt the engine: the look-up never misses (10_state.md R38 (c)). -/
theorem EngineInv.onFire_fatal {s : State} (h : EngineInv s) (now : Time) (hpending : s.chain ≠ []) :
    (Machine.onFire now { s with tmr := none }).fatal = s.fatal := by
  obtain ⟨hc, -⟩ | ⟨e, rest, hc, ⟨hlive, hmiss, -⟩ | ⟨p, -, -, -, he⟩ | ⟨-, he⟩⟩ :=
    onFire_cases now { s with tmr := none }
  · exact absurd hc hpending
  · have hmem : e ∈ s.chain := hc ▸ List.mem_cons_self
    obtain ⟨p, hp, hq⟩ := h.chainOk.live e hmem hlive
    exact absurd hq (hmiss p hp)
  · rw [he, rearm_eq, retransmit_eq]
  · rw [he, rearm_eq]

/-- An armed timer has a deadline pending (10_state.md R39). -/
theorem LatchOk.chain_ne_nil_of_armed {s : State} (h : LatchOk s) (harmed : s.tmr.isSome) : s.chain ≠ [] := by
  rw [h.armed] at harmed
  simpa [timerArmed] using harmed

/-- Settles O51: only `SND_TIMER` writes `FATAL`, and with the armed timer run out its chain is not empty. -/
theorem wellBehavedHostNeverHalts : Obligations.WellBehavedHostNeverHalts := by
  intro s t hinv hrun hhost hstep
  obtain ⟨input, actions, rfl⟩ | ⟨rest, -, rfl⟩ | ⟨d, rest, now, hin, hdec, -, rfl⟩ |
    ⟨d, rest, i, -, -, hi, hexec⟩ := hinv.step_cases hstep
  · exact hrun
  · rfl
  · obtain ⟨x, harmed, -⟩ := hhost d rest _ hin hdec now rfl
    have hpending := hinv.latch.chain_ne_nil_of_armed (Option.isSome_of_mem harmed)
    exact ((hinv.withPort rest s.actions).onFire_fatal now hpending).trans hrun
  · exact (exec_fatal hexec hi).trans hrun

end Sys2Proof.Machine
end

section
/-! PROOFS. The congestion controller (44_congestion.md): the three updates of `WCAP` in either mode (R165 to R168). -/

namespace Sys2Proof.Machine

/-- Settles O36: each update writes the capacity its mode gives and nothing else, and in mode `Fixed` that is the old
capacity. -/
theorem aimdUpdatesCapacityOnly : Obligations.AimdUpdatesCapacityOnly := by
  intro s
  refine ⟨fun base ub haimd => ⟨?_, ?_, ?_⟩, fun c hfixed => ?_⟩
  · rw [aimdIncrease_eq, haimd, increasedCap]
  · rw [aimdHalve_eq, haimd, halvedCap]
  · rw [aimdReset_eq, haimd, timeoutCap]
  · obtain ⟨hhalved, hincreased, htimeout⟩ := fixed_caps hfixed s.wcap
    rw [aimdIncrease_eq, aimdHalve_eq, aimdReset_eq, hincreased, hhalved, htimeout]
    exact ⟨rfl, rfl, rfl⟩

end Sys2Proof.Machine
end

section
/-! PROOFS. `SND_PKT` (45_ack_processor.md): a packet with no usable ack is dropped (R176, R180); an accepted ack is
counted, moves the window on, and raises the capacity (R179); a packet resent on the third ack of its number stays in
the window without a deadline (R178). -/

namespace Sys2Proof.Machine

/-- Settles O37: a drop, in either arm, changes nothing. -/
theorem sndPktDropsCorruptAndInvalid : Obligations.SndPktDropsCorruptAndInvalid := by
  intro s now pkt hrun hunusable
  rw [exec_of_running hrun, effect]
  rcases hunusable with hcorrupt | hbeyond
  · rw [hcorrupt, if_neg Bool.false_ne_true, drop_eq]
  · have hrange : ¬ ackInRange (ackOf s.cfg pkt) s = true := by
      rw [ackInRange, decide_eq_true_eq]
      exact Nat.not_le.mpr hbeyond
    rw [if_neg hrange, drop_eq, ite_self]

theorem exec_sndPkt_of_accepted {s : State} (now : Time) {pkt : Packet} (hrun : s.fatal = 0)
    (hvalid : validate s.cfg pkt = true) (hack : (ackOf s.cfg pkt).toNat ≤ s.highestSent.toNat + 1) :
    exec (.sndPkt now pkt) s = .next (acceptAck (ackOf s.cfg pkt) now s) := by
  rw [exec_of_running hrun, effect, if_pos hvalid, ackInRange, if_pos (decide_eq_true hack)]

/-! ### Moving the window on, whether the ack is above `CUR_ACK` or not -/

/-- What an ack of value `a` leaves in the window (42_send_window.md R142). -/
def keptBy (a : Seq) (s : State) : List Packet :=
  if s.curAck < a then s.window.filter fun p => decide (a ≤ seqOf s.cfg p) else s.window

/-- What an ack of value `a` brings into the window from the backlog (42_send_window.md R142, R143). -/
def refilledBy (a : Seq) (s : State) : List Packet :=
  if s.curAck < a then s.backlog.take (s.wcap - (keptBy a s).length) else []

/-- `CUR_ACK` and the window once an ack of value `a` has evicted what it covers, before the refill. -/
def evictCovered (a : Seq) (s : State) : State :=
  { s with window := keptBy a s, curAck := if s.curAck < a then a else s.curAck }

/-- `advance` is one eviction and one refill, both empty for an ack that is not above `CUR_ACK`. -/
theorem advance_eq_evictCovered (a : Seq) (now : Time) (s : State) : advance a now s =
    sendWaiting now [] (refilledBy a s) (s.backlog.drop (refilledBy a s).length) (evictCovered a s) := by
  by_cases hlt : s.curAck < a
  · have hstate : evictCovered a s = evict a s := by rw [evictCovered, keptBy, if_pos hlt, if_pos hlt, evict]
    have hdrop (n : Nat) : s.backlog.drop (s.backlog.take n).length = s.backlog.drop n := by
      rw [List.length_take]
      exact List.drop_eq_drop_min.symm
    rw [advance_eq_sendWaiting a now s hlt, hstate, refilledBy, if_pos hlt, hdrop, keptBy, if_pos hlt]
    rfl
  · have hstate : evictCovered a s = s := by rw [evictCovered, keptBy, if_neg hlt, if_neg hlt]
    rw [advance_of_not_lt a now s hlt, hstate, refilledBy, if_neg hlt]
    rfl

/-- An accepted ack in closed form (45_ack_processor.md R179). -/
theorem acceptAck_eq (a : Seq) (now : Time) (s : State) : acceptAck a now s =
    aimdIncrease (sendWaiting now [] (refilledBy a (countAck a now s))
      (s.backlog.drop (refilledBy a (countAck a now s)).length) (evictCovered a (countAck a now s))) := by
  rw [acceptAck, advance_eq_evictCovered, countAck_backlog]

/-- Only the first step writes the counts (45_ack_processor.md R177). -/
theorem acceptAck_dupcnt (a : Seq) (now : Time) (s : State) :
    (acceptAck a now s).dupcnt = countsAfter a s.dupcnt := by
  rw [acceptAck_eq, aimdIncrease_dupcnt, sendWaiting_dupcnt, evictCovered, countAck_dupcnt]

/-- Settles O38, from the closed forms of the three steps: counting, advancing, raising the capacity. -/
theorem sndPktProcessesAcceptedAck : Obligations.SndPktProcessesAcceptedAck := by
  intro s now pkt hrun hvalid hack
  refine ⟨_, exec_sndPkt_of_accepted now hrun hvalid hack, ?_⟩
  intro a third cap resent chain kept out
  refine ⟨fun hwf => ?counts, ?fields⟩
  case counts =>
    rw [acceptAck_dupcnt]
    exact ⟨dupSet_wf _ _ _ hwf, fun b => dupGet_countsAfter a b _ hwf⟩
  case fields =>
    rw [acceptAck_eq, aimdIncrease_eq, countAck_eq]
    exact ⟨transmitAll_curAck now out _, transmitAll_window now out _, rfl, transmitAll_chain_split now out _,
      sendWaiting_tmr_of_chain now [] out (s.backlog.drop out.length) _,
      fun hfits => transmitAll_freeCtr now out _ hfits, transmitAll_highestSent now out _,
      congrArg₂ increasedCap (congrArg Cfg.cc (transmitAll_cfg now out _)) (transmitAll_wcap now out _),
      transmitAll_actions now out _, transmitAll_seq now out _, transmitAll_expected now out _,
      transmitAll_rbuf now out _, transmitAll_fatal now out _, transmitAll_cfg now out _, transmitAll_input now out _⟩

/-! ### A fast retransmit -/

/-- No other packet in the window has its number (10_state.md R36 (b)), so its third ack resends it. -/
theorem SequencingOk.resentBy_eq {s : State} {p : Packet} (h : SequencingOk s) (hp : p ∈ s.window)
    (hthird : dupGet s.dupcnt (seqOf s.cfg p) = 2) : resentBy (seqOf s.cfg p) s = [p] := by
  have hdistinct : (seqs s.cfg s.window).Nodup := h.distinct.sublist (sublist_seqs (List.sublist_append_left ..))
  have hfound : lookup (seqOf s.cfg p) s = some p := by
    cases hlookup : lookup (seqOf s.cfg p) s with
    | none => exact absurd (List.find?_eq_none.mp hlookup p hp) (by simp)
    | some q =>
      have hq : seqOf s.cfg q = seqOf s.cfg p := by simpa using List.find?_some hlookup
      rw [List.inj_on_of_nodup_map hdistinct (List.mem_of_find?_eq_some hlookup) hp hq]
  rw [resentBy, if_pos hthird, ← lookup_toList, hfound, Option.toList_some]

/-- An ack evicts only packets below it (42_send_window.md R142). -/
theorem mem_acceptAck_window {a : Seq} {s : State} {p : Packet} (now : Time) (hp : p ∈ s.window)
    (hle : a ≤ seqOf s.cfg p) : p ∈ (acceptAck a now s).window := by
  obtain ⟨-, h⟩ | ⟨-, sent, after, -, -, h⟩ := acceptAck_cases a now s
  · rwa [h, aimdIncrease_window, countAck_window]
  · rw [h, aimdIncrease_window, sendWaiting_window]
    exact List.mem_append_left _ (mem_evict.mpr ⟨by rwa [countAck_window], by rwa [countAck_cfg]⟩)

/-- The chain after an accepted ack: what counting left, then entries for packets out of the backlog. -/
theorem mem_acceptAck_chain {a : Seq} {now : Time} {s : State} {e : ChainEntry}
    (he : e ∈ (acceptAck a now s).chain) : e ∈ (countAck a now s).chain ∨ e.seq ∈ seqs s.cfg s.backlog := by
  obtain ⟨-, h⟩ | ⟨-, sent, after, hback, -, h⟩ := acceptAck_cases a now s
  · exact .inl (by rwa [h, aimdIncrease_chain] at he)
  · rw [h, aimdIncrease_chain] at he
    obtain ⟨new, hchain, hnew, -⟩ := transmitAll_chain_split now sent (evict a (countAck a now s))
    obtain hkept | hfresh := List.mem_append.mp (hchain ▸ he)
    · exact .inl hkept
    · refine .inr (hback ▸ seqs_append .. ▸ List.mem_append_left _ ?_)
      exact countAck_cfg a now s ▸ hnew ▸ List.mem_map_of_mem hfresh

/-- A resend cancels the only entry of its number (43_timer_chain.md R151; 10_state.md R38 (b)). -/
theorem ChainOk.ne_of_mem_countAck_chain {a : Seq} {now : Time} {s : State} (h : ChainOk s)
    (hresent : resentBy a s ≠ []) {e : ChainEntry} (he : e ∈ (countAck a now s).chain) : e.seq ≠ a := by
  have hchain : (countAck a now s).chain.map ChainEntry.seq = (s.chain.map ChainEntry.seq).erase a := by
    rw [countAck_eq, List.erase_eq_eraseP', List.eraseP_map]
    exact congrArg _ (if_neg hresent)
  rintro rfl
  exact h.once.not_mem_erase (hchain ▸ List.mem_map_of_mem he)

/-- Counting emits what it resends first, and the advance emits after it (45_ack_processor.md R179). -/
theorem resent_prefix_acceptAck_actions (a : Seq) (now : Time) (s : State) :
    s.actions ++ (resentBy a s).map .toChannel <+: (acceptAck a now s).actions := by
  have hcounted : s.actions ++ (resentBy a s).map .toChannel <+: (countAck a now s).actions := by
    rw [countAck_eq]
    exact List.prefix_append ..
  have hadvanced : (countAck a now s).actions <+: (acceptAck a now s).actions := by
    rw [acceptAck_eq, aimdIncrease_actions]
    exact ⟨_, (transmitAll_actions now _ (evictCovered a (countAck a now s))).symm⟩
  exact hcounted.trans hadvanced

theorem toChannel_mem_acceptAck_actions {a : Seq} {s : State} {p : Packet} (now : Time) (hp : p ∈ resentBy a s) :
    Action.toChannel p ∈ (acceptAck a now s).actions.drop s.actions.length := by
  obtain ⟨later, hactions⟩ := resent_prefix_acceptAck_actions a now s
  rw [← hactions, List.append_assoc, List.drop_left]
  exact List.mem_append_left _ (List.mem_map_of_mem hp)

/-- Settles O39: the packet is not below the ack, its one deadline is cancelled, and packets that get a new deadline
come out of the backlog, where no packet has its number. -/
theorem fastRetransmitLeavesNoDeadline : Obligations.FastRetransmitLeavesNoDeadline := by
  intro s t now pkt p hinv hrun hvalid hack hthird hp hnumber hexec
  obtain rfl : acceptAck (ackOf s.cfg pkt) now s = t :=
    Host.Outcome.next.inj ((exec_sndPkt_of_accepted now hrun hvalid hack).symm.trans hexec)
  rw [← hnumber] at hthird ⊢
  have hresent : resentBy (seqOf s.cfg p) s = [p] := hinv.sequencing.resentBy_eq hp hthird
  refine ⟨mem_acceptAck_window now hp (BitVec.le_refl _), fun e he hseq => ?noDeadline,
    toChannel_mem_acceptAck_actions now (hresent ▸ List.mem_singleton_self p)⟩
  case noDeadline =>
    obtain hkept | hfresh := mem_acceptAck_chain he
    · exact hinv.chainOk.ne_of_mem_countAck_chain (hresent ▸ List.cons_ne_nil _ _) hkept hseq
    · have hdistinct := hinv.sequencing.distinct
      rw [seqs_append] at hdistinct
      exact (List.disjoint_of_nodup_append hdistinct) (seqOf_mem_seqs hp) (hseq ▸ hfresh)

end Sys2Proof.Machine
end

section
/-! PROOFS. `RCV_PKT` (46_reorder_buffer.md): a corrupt packet is dropped (R186), any other is placed by its number
(R187 to R189, R192), the buffer drained (R190) and one ack sent (R191); the order of arrival does not matter (R193). -/

namespace Sys2Proof.Machine

section Receive
variable {pkt : Packet} {s : State}

/-! ### One arrival -/

theorem exec_rcvPkt_of_corrupt (hrun : s.fatal = 0) (hcorrupt : validate s.cfg pkt = false) :
    exec (.rcvPkt pkt) s = .next s := by
  rw [exec_of_running hrun, effect, hcorrupt, if_neg Bool.false_ne_true, drop_eq]

theorem exec_rcvPkt_of_valid (hrun : s.fatal = 0) (hvalid : validate s.cfg pkt = true) :
    exec (.rcvPkt pkt) s = .next (emitAck (rxDrain (rxPlace pkt s))) := by
  rw [exec_of_running hrun, effect, if_pos hvalid]

/-! ### What is emitted before the ack -/

/-- The actions that deliver packets to the application, in their order (46_reorder_buffer.md R187, R190). -/
def deliveries (cfg : Cfg) (ps : List Packet) : List Action := ps.map fun p => .toApp (payloadOf cfg p)

theorem deliveries_append (cfg : Cfg) (ps qs : List Packet) :
    deliveries cfg (ps ++ qs) = deliveries cfg ps ++ deliveries cfg qs :=
  List.map_append

theorem toApp_of_mem_deliveries {cfg : Cfg} {ps : List Packet} {a : Action} (ha : a ∈ deliveries cfg ps) :
    ∃ data, a = .toApp data := by
  obtain ⟨p, -, rfl⟩ := List.mem_map.mp ha
  exact ⟨_, rfl⟩

theorem rxInsert_actions (pkt : Packet) (s : State) : (rxInsert pkt s).actions = s.actions := by
  simp only [rxInsert]
  split
  · rfl
  · rfl

theorem rxPlace_actions (pkt : Packet) (s : State) :
    ∃ placed, (rxPlace pkt s).actions = s.actions ++ deliveries s.cfg placed := by
  obtain he | ⟨-, -, he⟩ | ⟨-, -, he⟩ := rxPlace_cases s pkt
  · exact ⟨[], by rw [he]; exact (List.append_nil _).symm⟩
  · exact ⟨[pkt], by rw [he]; rfl⟩
  · exact ⟨[], by rw [he, rxInsert_actions]; exact (List.append_nil _).symm⟩

theorem rxDrain_actions (s : State) : ∃ drained, (rxDrain s).actions = s.actions ++ deliveries s.cfg drained :=
  ⟨_, by rw [rxDrain_eq]; rfl⟩

/-! ### A packet that is not due -/

/-- Between commands nothing in the buffer is due (10_state.md R40). -/
theorem ReceiverOk.rxDrain_eq_self (h : ReceiverOk s) : rxDrain s = s :=
  rxDrain_of_ahead s fun p hp => (BitVec.ne_of_lt (h.ahead p hp)).symm

/-- A packet put into the buffer is not due, so the drain after it finds nothing (46_reorder_buffer.md R188, R190). -/
theorem ReceiverOk.rxDrain_rxInsert (h : ReceiverOk s) (hahead : s.expected < seqOf s.cfg pkt)
    (hlast : seqOf s.cfg pkt ≠ 0xFFFFFFFF) : rxDrain (rxInsert pkt s) = rxInsert pkt s := by
  obtain ⟨hexpected, -, hmem⟩ := drainOk_rxInsert h hahead hlast
  refine rxDrain_of_ahead _ fun p hp => ?_
  rw [(rxInsert_same s pkt).1, hexpected]
  obtain rfl | hp := hmem p hp
  · exact (BitVec.ne_of_lt hahead).symm
  · exact (BitVec.ne_of_lt (h.ahead p hp)).symm

theorem rxPlace_of_last (hlast : seqOf s.cfg pkt = 0xFFFFFFFF) : rxPlace pkt s = s := by
  simp only [rxPlace, if_pos hlast]

/-- A number in the buffer is ahead and usable, and inserting it again changes nothing (46_reorder_buffer.md R188). -/
theorem ReceiverOk.rxPlace_of_buffered (h : ReceiverOk s) (hknown : seqOf s.cfg pkt ∈ seqs s.cfg s.rbuf) :
    Machine.rxPlace pkt s = s := by
  obtain ⟨p, hp, hsame⟩ := mem_seqs.mp hknown
  rw [rxPlace_of_ahead (hsame ▸ h.ahead p hp) (hsame ▸ h.usable p hp)]
  obtain ⟨-, he⟩ | ⟨hnew, -⟩ := rxInsert_cases pkt s h.rising
  · exact he
  · exact absurd hknown hnew

end Receive

/-! ### The obligations -/

/-- Settles O40: placing and draining emit deliveries only. -/
theorem rcvPktAcksUnlessCorrupt : Obligations.RcvPktAcksUnlessCorrupt := by
  intro s pkt
  refine ⟨exec_rcvPkt_of_corrupt, fun hrun hvalid => ?valid, exec_of_halted _⟩
  case valid =>
    have hcfg : (rxPlace pkt s).cfg = s.cfg := (rxPlace_same s pkt).1
    obtain ⟨placed, hplaced⟩ := rxPlace_actions pkt s
    obtain ⟨drained, hdrained⟩ := rxDrain_actions (rxPlace pkt s)
    refine ⟨_, deliveries s.cfg (placed ++ drained), exec_rcvPkt_of_valid hrun hvalid, ?_,
      fun a ha => toApp_of_mem_deliveries ha⟩
    rw [emitAck_actions, emitAck_expected, rxDrain_cfg, hdrained, hplaced, hcfg, deliveries_append,
      List.append_assoc s.actions]

/-- Settles O41: the run is what the drain delivers from the number after the packet. -/
theorem rcvPktInOrderDeliversRun : Obligations.RcvPktInOrderDeliversRun := by
  intro s pkt hrun hvalid hdue hlast
  obtain ⟨hle, hinside, hend⟩ := runLength_spec s.cfg (s.expected + 1) s.rbuf
  simp only [seq_succ_add] at hinside hend
  refine ⟨_, hle, fun k hk => hinside k (Nat.lt_of_lt_of_le hk hle) hk, hend, ?_⟩
  rw [exec_rcvPkt_of_valid hrun hvalid, rxPlace_of_due hdue (hdue ▸ hlast), rxDrain_eq, ← seq_succ_add]
  rfl

/-- Settles O42: the packet stands between the lower and the higher ones, and it is not due either. -/
theorem rcvPktAheadIsBuffered : Obligations.RcvPktAheadIsBuffered := by
  intro s pkt hrun hrcv hvalid hahead hlast hnew
  obtain ⟨hknown, -⟩ | ⟨-, lower, higher, hsplit, -, -, hinsert⟩ := rxInsert_cases pkt s hrcv.rising
  · exact absurd hknown hnew
  · obtain ⟨-, hordered, -⟩ := drainOk_rxInsert hrcv hahead hlast
    rw [hinsert] at hordered
    refine ⟨lower, higher, hsplit, hordered.rising, ?_⟩
    rw [exec_rcvPkt_of_valid hrun hvalid, rxPlace_of_ahead hahead hlast, hrcv.rxDrain_rxInsert hahead hlast, hinsert]
    rfl

/-- Settles O43: each of the three packets is placed nowhere, and nothing in the buffer is due. -/
theorem rcvPktSkippedIsAcked : Obligations.RcvPktSkippedIsAcked := by
  intro s pkt hrun hrcv hvalid hskipped
  have hplace : rxPlace pkt s = s := by
    obtain hstale | hknown | hlast := hskipped
    · exact rxPlace_of_lt hstale
    · exact hrcv.rxPlace_of_buffered hknown
    · exact rxPlace_of_last hlast
  rw [exec_rcvPkt_of_valid hrun hvalid, hplace, hrcv.rxDrain_eq_self]
  rfl

/-- Settles O44: the packets are a run from `EXPECTED` on. -/
theorem arrivalOrderDoesNotMatter : Obligations.ArrivalOrderDoesNotMatter := by
  intro s ps arrivals hfatal hempty hstarted husable hps harrive hall
  have hrun : ContiguousRun s.cfg s.expected.toNat ps :=
    ⟨List.forall_mem_iff_getElem.mpr fun i hi => (hps i hi).1, fun i hi => (hps i hi).2, husable⟩
  exact receiveAll_of_run hrun hfatal hempty hstarted harrive hall

end Sys2Proof.Machine
end

section
/-! PROOFS. The lifecycle commands (47_lifecycle.md): `SND_INIT` and `SND_FINAL` reset the sender half and disarm the
timer exactly when deadlines are pending (R200, R201); `RCV_INIT` and `RCV_FINAL` reset the receiver half (R202,
R203). -/

namespace Sys2Proof.Machine

theorem effect_of_senderLifecycle {i : Instr} (hi : i = .sndInit ∨ i = .sndFinal) (s : State) :
    effect i s = resetSender s := by
  obtain rfl | rfl := hi
  · rfl
  · rfl

theorem effect_of_receiverLifecycle {i : Instr} (hi : i = .rcvInit ∨ i = .rcvFinal) (s : State) :
    effect i s = resetReceiver s := by
  obtain rfl | rfl := hi
  · rfl
  · rfl

theorem resetSender_wcap_of_aimd {s : State} {base ub : Nat} (haimd : s.cfg.cc = .aimd base ub) :
    (resetSender s).wcap = base := by
  rw [resetSender_wcap, haimd, CcMode.initialCap]

theorem resetSender_wcap_of_fixed {s : State} {c : Nat} (hfixed : s.cfg.cc = .fixed c) : (resetSender s).wcap = c := by
  rw [resetSender_wcap, hfixed, CcMode.initialCap]

theorem resetSender_disarms {s : State} (hpending : s.chain ≠ []) :
    (resetSender s).actions = s.actions ++ [.timerDisarm] ∧ (resetSender s).tmr = none := by
  have harmed : timerArmed s = true := by simpa [timerArmed] using hpending
  rw [resetSender_actions, resetSender_tmr, if_pos harmed, if_pos harmed]
  exact ⟨rfl, rfl⟩

theorem resetSender_keeps_timer {s : State} (hidle : s.chain = []) :
    (resetSender s).actions = s.actions ∧ (resetSender s).tmr = s.tmr := by
  have harmed : ¬timerArmed s = true := by simp [timerArmed, hidle]
  rw [resetSender_actions, resetSender_tmr, if_neg harmed, if_neg harmed]
  exact ⟨List.append_nil _, rfl⟩

/-- Settles O20: either command has the effect `resetSender`, whose timer part is decided by the chain. -/
theorem senderLifecycleResetsHalf : Obligations.SenderLifecycleResetsHalf := by
  intro s i hi
  refine ⟨fun hrun => ⟨resetSender s, ?_, resetSender_seq s, resetSender_curAck s, resetSender_highestSent s,
    resetSender_window s, resetSender_backlog s, resetSender_chain s, resetSender_dupcnt s,
    fun _ _ => resetSender_wcap_of_aimd, fun _ => resetSender_wcap_of_fixed, resetSender_disarms,
    resetSender_keeps_timer, resetSender_expected s, resetSender_rbuf s, resetSender_fatal s, resetSender_cfg s,
    resetSender_input s, resetSender_freeCtr s⟩, exec_of_halted i⟩
  rw [exec_of_running hrun, effect_of_senderLifecycle hi]

/-- Settles O21: either command has the effect `resetReceiver`. -/
theorem receiverLifecycleResetsHalf : Obligations.ReceiverLifecycleResetsHalf := by
  intro s i hi
  refine ⟨fun hrun => ?_, exec_of_halted i⟩
  rw [exec_of_running hrun, effect_of_receiverLifecycle hi, resetReceiver]

end Sys2Proof.Machine
end

section
/-! PROOFS. Every event has a next state (60_exceptions.md R210, R222); the halted latch holds until hardware reset
(60_exceptions.md R216); hardware reset restores every piece of state (10_state.md R46; 70_reset_and_hazards.md
R240). -/

namespace Sys2Proof.Machine

/-! ### Every event has a next state -/

/-- The guard of a command decides between two next states; it never stops the engine. -/
theorem unlessHalted_next (s s' : State) : ∃ t, unlessHalted s s' = .next t := ⟨_, rfl⟩

/-- Settles O8: a step by the head of the port queue, a command by its guard. -/
theorem everyStepAnswersNext : Obligations.EveryStepAnswersNext := by
  refine ⟨step_next, fun i s => ?_⟩
  rw [exec_eq_unlessHalted]
  exact unlessHalted_next s (effect i s)

/-! ### The halted latch -/

theorem exec_fatal_of_halted {i : Instr} {s t : State} (hhalt : s.fatal ≠ 0) (h : exec i s = .next t) :
    t.fatal = s.fatal := by
  rw [exec_of_halted i hhalt] at h
  injection h with h
  exact h ▸ rfl

/-- A step of a halted engine keeps the latch, unless it takes the reset event. -/
theorem step_fatal_of_halted {s t : State} (hhalt : s.fatal ≠ 0) (h : step s = .next t) :
    t.fatal = s.fatal ∨ ∃ rest, s.input = .reset :: rest := by
  obtain ⟨-, rfl⟩ | ⟨rest, hin, -⟩ | ⟨d, rest, r, -, -, rfl⟩ | ⟨d, rest, i, -, -, hexec⟩ := step_cases h
  case inl => exact .inl rfl
  case inr.inl => exact .inr ⟨rest, hin⟩
  case inr.inr.inl => exact .inl rfl
  case inr.inr.inr =>
    have hissued : (issue i { s with input := rest }).fatal = s.fatal := issue_fatal i _
    exact .inl ((exec_fatal_of_halted (hissued.symm ▸ hhalt) hexec).trans hissued)

/-- Settles O22: the guard refuses every command, no other event than the reset changes the latch, and the reset clears
it. -/
theorem haltedUntilReset : Obligations.HaltedUntilReset := by
  refine ⟨fun i s => exec_of_halted i, fun s t d rest hhalt hin hstep => ?descriptor,
    fun s rest hin => ⟨_, step_of_reset hin, hardwareReset_fatal _⟩⟩
  case descriptor =>
    obtain hkept | ⟨rest', hreset⟩ := step_fatal_of_halted hhalt hstep
    · exact hkept
    · exact nomatch hin.symm.trans hreset

/-! ### Hardware reset -/

theorem initialCap_of_aimd {cc : CcMode} (base ub : Nat) (h : cc = .aimd base ub) : cc.initialCap = base := by
  rw [h, CcMode.initialCap]

theorem initialCap_of_fixed {cc : CcMode} (c : Nat) (h : cc = .fixed c) : cc.initialCap = c := by
  rw [h, CcMode.initialCap]

/-- Settles O23: the fields of the state after hardware reset; a step that clears the latch did not keep it. -/
theorem hardwareResetRestoresAll : Obligations.HardwareResetRestoresAll := by
  refine ⟨fun s rest hin => ⟨hardwareReset { s with input := rest }, step_of_reset hin, ?fields⟩, ?onlyReset,
    rfl, rfl, rfl, rfl, rfl, rfl, fun _ => rfl, initialCap_of_aimd, initialCap_of_fixed, rfl, rfl, rfl, rfl⟩
  case fields =>
    exact ⟨hardwareReset_seq _, hardwareReset_curAck _, hardwareReset_highestSent _, hardwareReset_window _,
      hardwareReset_backlog _, hardwareReset_chain _, fun _ => rfl, initialCap_of_aimd, initialCap_of_fixed,
      hardwareReset_expected _, hardwareReset_rbuf _, hardwareReset_fatal _, hardwareReset_tmr _,
      hardwareReset_actions _⟩
  case onlyReset =>
    intro s t hhalt hstep hcleared
    exact (step_fatal_of_halted hhalt hstep).resolve_left fun hkept => hhalt (hkept.symm.trans hcleared)

end Sys2Proof.Machine
end
